-- ==== Sys2Proof/Word.lean ====
section
/-! DEFINITION. The words of the engine: bytes, 32-bit registers, 128-bit commands, and the limb widths. A limb is an unsigned
number below `2^W` (R12, R110); `W` is a parameter of the instance, so a limb is a `Nat` and every operation narrows it
explicitly with `mod 2^W`, as the rules of `40_primitives.md` write it (DESIGN CHOICE, log 10). A limb address of a command
is a `Nat` too: sums of addresses never wrap (R84). -/

namespace Sys2Proof

/-- One byte of limb memory as the limb window shows it (R52). -/
abbrev Byte := BitVec 8

/-- A control or status register, or one word `CWj` of a command (R24, R80). -/
abbrev Word32 := BitVec 32

/-- A command `C = CW3 || CW2 || CW1 || CW0` (R80). -/
abbrev Command := BitVec 128

/-- The two legal limb widths (R9). -/
inductive LimbWidth
  | w32
  | w64
  deriving DecidableEq, Repr

/-- `W`, the limb width in bits (R9). -/
def LimbWidth.bits : LimbWidth → Nat
  | .w32 => 32
  | .w64 => 64

/-- `W/8`, the bytes of a limb in the limb window (R52). -/
def LimbWidth.bytes : LimbWidth → Nat
  | .w32 => 4
  | .w64 => 8

end Sys2Proof
end

