-- ==== Sys2Proof/Syntax.lean ====
section
/-! DEFINITION. The 14 commands (R85) with the operand fields of their formats (R83), and the text form of R89. -/

namespace Sys2Proof

/-- One constructor per row of the opcode table (R85). Every field is an unsigned number (R84): `ctx` a slot number, `len`
a limb count, `rd`, `ra`, `rb` limb addresses, `bbits` the declared bit length of an exponent. -/
inductive Instr
  /-- `CHKMOD [ra], len` (R141), format K -/
  | chkmod (ra : Nat) (len : Nat)
  /-- `INIT c, [ra], len` (R142), format I -/
  | init (ctx : Nat) (ra : Nat) (len : Nat)
  /-- `FREE c` (R145), format C -/
  | free (ctx : Nat)
  /-- `GETLEN c` (R146), format C -/
  | getlen (ctx : Nat)
  /-- `TOFIELD c, [rd], [ra]` (R160), format U -/
  | tofield (ctx : Nat) (rd ra : Nat)
  /-- `FROMFIELD c, [rd], [ra]` (R161), format U -/
  | fromfield (ctx : Nat) (rd ra : Nat)
  /-- `ONE c, [rd]` (R174), format D -/
  | one (ctx : Nat) (rd : Nat)
  /-- `ADD c, [rd], [ra], [rb]` (R170), format B -/
  | add (ctx : Nat) (rd ra rb : Nat)
  /-- `SUB c, [rd], [ra], [rb]` (R171), format B -/
  | sub (ctx : Nat) (rd ra rb : Nat)
  /-- `MUL c, [rd], [ra], [rb]` (R172), format B -/
  | mul (ctx : Nat) (rd ra rb : Nat)
  /-- `SQR c, [rd], [ra]` (R173), format U -/
  | sqr (ctx : Nat) (rd ra : Nat)
  /-- `EXPCT c, [rd], [ra], [rb], bbits` (R198), format E -/
  | expct (ctx : Nat) (rd ra rb : Nat) (bbits : Nat)
  /-- `EXPVT c, [rd], [ra], [rb], bbits` (R199), format E -/
  | expvt (ctx : Nat) (rd ra rb : Nat) (bbits : Nat)
  /-- `INV c, [rd], [ra]` (R220), format U -/
  | inv (ctx : Nat) (rd ra : Nat)
  deriving DecidableEq, Repr

/-- The mnemonic of the opcode table (R85). -/
def Instr.mnemonic : Instr → String
  | .chkmod _ _ => "CHKMOD"
  | .init _ _ _ => "INIT"
  | .free _ => "FREE"
  | .getlen _ => "GETLEN"
  | .tofield _ _ _ => "TOFIELD"
  | .fromfield _ _ _ => "FROMFIELD"
  | .one _ _ => "ONE"
  | .add _ _ _ _ => "ADD"
  | .sub _ _ _ _ => "SUB"
  | .mul _ _ _ _ => "MUL"
  | .sqr _ _ _ => "SQR"
  | .expct _ _ _ _ _ => "EXPCT"
  | .expvt _ _ _ _ _ => "EXPVT"
  | .inv _ _ _ => "INV"

end Sys2Proof
end

