-- ==== Sys2Proof/WellFormed.lean ====
section
/-! DEFINITION. When a command's operands fit the fields of R81: `CTX` 4 bits, `LEN`, `RD`, `RA`, `RB` 16 bits, `BBITS`
32 bits. Conditions on the state (a slot in range, a buffer inside memory) are admission checks (R239), not form. -/

namespace Sys2Proof

/-- A slot number that fits the 4-bit field `CTX` (R81). -/
def fitsCtx (c : Nat) : Bool := decide (c < 2 ^ 4)

/-- A limb count that fits the 16-bit field `LEN` (R81). -/
def fitsLen (n : Nat) : Bool := decide (n < 2 ^ 16)

/-- A limb address that fits a 16-bit field `RD`, `RA` or `RB` (R81). -/
def fitsAddr (a : Nat) : Bool := decide (a < 2 ^ 16)

/-- A bit length that fits the 32-bit field `BBITS` (R81). -/
def fitsBBits (b : Nat) : Bool := decide (b < 2 ^ 32)

/-- Every operand fits its field (R81). -/
def Instr.wellFormed : Instr → Bool
  | .chkmod ra len => fitsAddr ra && fitsLen len
  | .init c ra len => fitsCtx c && fitsAddr ra && fitsLen len
  | .free c => fitsCtx c
  | .getlen c => fitsCtx c
  | .tofield c rd ra => fitsCtx c && fitsAddr rd && fitsAddr ra
  | .fromfield c rd ra => fitsCtx c && fitsAddr rd && fitsAddr ra
  | .one c rd => fitsCtx c && fitsAddr rd
  | .add c rd ra rb => fitsCtx c && fitsAddr rd && fitsAddr ra && fitsAddr rb
  | .sub c rd ra rb => fitsCtx c && fitsAddr rd && fitsAddr ra && fitsAddr rb
  | .mul c rd ra rb => fitsCtx c && fitsAddr rd && fitsAddr ra && fitsAddr rb
  | .sqr c rd ra => fitsCtx c && fitsAddr rd && fitsAddr ra
  | .expct c rd ra rb b => fitsCtx c && fitsAddr rd && fitsAddr ra && fitsAddr rb && fitsBBits b
  | .expvt c rd ra rb b => fitsCtx c && fitsAddr rd && fitsAddr ra && fitsAddr rb && fitsBBits b
  | .inv c rd ra => fitsCtx c && fitsAddr rd && fitsAddr ra

end Sys2Proof
end

