-- ==== Sys2Proof/Decode.lean ====
section
/-! DEFINITION. The command encoding (`30_encoding.md`): fields (R81), formats (R83), opcodes (R85), the total decode
procedure (R92), the encoder (R89), the opcode table's match and mask rows (R91), and the text form (R89). -/

namespace Sys2Proof

/-- The nine fields of a command (R81). -/
inductive Field
  | opc
  | z1
  | ctx
  | len
  | rd
  | ra
  | rb
  | z2
  | bbits
  deriving DecidableEq, Repr

/-- The lowest bit of a field in `C` (R81). -/
def Field.lo : Field → Nat
  | .opc => 24
  | .z1 => 20
  | .ctx => 16
  | .len => 0
  | .rd => 48
  | .ra => 32
  | .rb => 80
  | .z2 => 64
  | .bbits => 96

/-- The width of a field in bits (R81). -/
def Field.width : Field → Nat
  | .opc => 8
  | .z1 => 4
  | .ctx => 4
  | .len => 16
  | .rd => 16
  | .ra => 16
  | .rb => 16
  | .z2 => 16
  | .bbits => 32

/-- A field's contents, one contiguous bit range read as an unsigned number (R84). -/
def Field.get (f : Field) (c : Command) : Nat := (c.extractLsb' f.lo f.width).toNat

/-- The seven formats (R83). -/
inductive Format
  | fmtK
  | fmtI
  | fmtC
  | fmtD
  | fmtU
  | fmtB
  | fmtE
  deriving DecidableEq, Repr

/-- "Fields that must be zero" of a format (R83). -/
def Format.mustBeZero : Format → List Field
  | .fmtK => [.z1, .ctx, .rd, .rb, .z2, .bbits]
  | .fmtI => [.z1, .rd, .rb, .z2, .bbits]
  | .fmtC => [.z1, .len, .rd, .ra, .rb, .z2, .bbits]
  | .fmtD => [.z1, .len, .ra, .rb, .z2, .bbits]
  | .fmtU => [.z1, .len, .rb, .z2, .bbits]
  | .fmtB => [.z1, .len, .z2, .bbits]
  | .fmtE => [.z1, .len, .z2]

/-- The 14 opcodes (R85). -/
inductive Opcode
  | chkmod
  | init
  | free
  | getlen
  | tofield
  | fromfield
  | one
  | add
  | sub
  | mul
  | sqr
  | expct
  | expvt
  | inv
  deriving DecidableEq, Repr

/-- The opcode value `OPC` (R85). -/
def Opcode.code : Opcode → Nat
  | .chkmod => 0x01
  | .init => 0x02
  | .free => 0x03
  | .getlen => 0x04
  | .tofield => 0x10
  | .fromfield => 0x11
  | .one => 0x12
  | .add => 0x20
  | .sub => 0x21
  | .mul => 0x22
  | .sqr => 0x23
  | .expct => 0x30
  | .expvt => 0x31
  | .inv => 0x32

/-- The format of an opcode (R85). -/
def Opcode.format : Opcode → Format
  | .chkmod => .fmtK
  | .init => .fmtI
  | .free => .fmtC
  | .getlen => .fmtC
  | .tofield => .fmtU
  | .fromfield => .fmtU
  | .one => .fmtD
  | .add => .fmtB
  | .sub => .fmtB
  | .mul => .fmtB
  | .sqr => .fmtU
  | .expct => .fmtE
  | .expvt => .fmtE
  | .inv => .fmtU

/-- Every opcode, in the order of R85. -/
def Opcode.all : List Opcode :=
  [.chkmod, .init, .free, .getlen, .tofield, .fromfield, .one] ++ [.add, .sub, .mul, .sqr, .expct, .expvt, .inv]

/-- The opcode with a given value; every other value is reserved (R86). -/
def opcodeOf (op : Nat) : Option Opcode := Opcode.all.find? fun o => o.code == op

/-- Why a command is not legal (R86): the decoder rejects by name. Both raise `ILLEGAL_CMD` (R232). -/
inductive Reject
  /-- `OPC` is none of the 14 opcodes. -/
  | reservedOpcode (op : Nat)
  /-- A field that the opcode's format requires to be zero is not. -/
  | nonzeroField (f : Field)
  deriving DecidableEq, Repr

/-- "The instruction of `op` with the operand fields of `f`" (R92). -/
def Opcode.build (o : Opcode) (c : Command) : Instr :=
  match o with
  | .chkmod => .chkmod (Field.ra.get c) (Field.len.get c)
  | .init => .init (Field.ctx.get c) (Field.ra.get c) (Field.len.get c)
  | .free => .free (Field.ctx.get c)
  | .getlen => .getlen (Field.ctx.get c)
  | .tofield => .tofield (Field.ctx.get c) (Field.rd.get c) (Field.ra.get c)
  | .fromfield => .fromfield (Field.ctx.get c) (Field.rd.get c) (Field.ra.get c)
  | .one => .one (Field.ctx.get c) (Field.rd.get c)
  | .add => .add (Field.ctx.get c) (Field.rd.get c) (Field.ra.get c) (Field.rb.get c)
  | .sub => .sub (Field.ctx.get c) (Field.rd.get c) (Field.ra.get c) (Field.rb.get c)
  | .mul => .mul (Field.ctx.get c) (Field.rd.get c) (Field.ra.get c) (Field.rb.get c)
  | .sqr => .sqr (Field.ctx.get c) (Field.rd.get c) (Field.ra.get c)
  | .expct => .expct (Field.ctx.get c) (Field.rd.get c) (Field.ra.get c) (Field.rb.get c) (Field.bbits.get c)
  | .expvt => .expvt (Field.ctx.get c) (Field.rd.get c) (Field.ra.get c) (Field.rb.get c) (Field.bbits.get c)
  | .inv => .inv (Field.ctx.get c) (Field.rd.get c) (Field.ra.get c)

/-- The decode procedure of R92, total on all `2^128` commands. -/
def decode (c : Command) : Except Reject Instr :=
  match opcodeOf (Field.opc.get c) with
  | none => .error (.reservedOpcode (Field.opc.get c))
  | some o =>
    match o.format.mustBeZero.find? fun f => f.get c != 0 with
    | some f => .error (.nonzeroField f)
    | none => .ok (o.build c)

/-- `C = CW3 || CW2 || CW1 || CW0` (R80). -/
def Command.ofWords (cw0 cw1 cw2 cw3 : Word32) : Command := cw3 ++ cw2 ++ cw1 ++ cw0

/-- The opcode of a command. -/
def Instr.opcode : Instr → Opcode
  | .chkmod _ _ => .chkmod
  | .init _ _ _ => .init
  | .free _ => .free
  | .getlen _ => .getlen
  | .tofield _ _ _ => .tofield
  | .fromfield _ _ _ => .fromfield
  | .one _ _ => .one
  | .add _ _ _ _ => .add
  | .sub _ _ _ _ => .sub
  | .mul _ _ _ _ => .mul
  | .sqr _ _ _ => .sqr
  | .expct _ _ _ _ _ => .expct
  | .expvt _ _ _ _ _ => .expvt
  | .inv _ _ _ => .inv

/-- The operand field values of a command; an unused field is 0 (R81, R89). -/
structure Operands where
  ctx : Nat := 0
  len : Nat := 0
  rd : Nat := 0
  ra : Nat := 0
  rb : Nat := 0
  bbits : Nat := 0
  deriving DecidableEq, Repr

/-- The fields each line of the table of R89 sets. -/
def Instr.operands : Instr → Operands
  | .chkmod ra len => { ra := ra, len := len }
  | .init c ra len => { ctx := c, ra := ra, len := len }
  | .free c => { ctx := c }
  | .getlen c => { ctx := c }
  | .tofield c rd ra => { ctx := c, rd := rd, ra := ra }
  | .fromfield c rd ra => { ctx := c, rd := rd, ra := ra }
  | .one c rd => { ctx := c, rd := rd }
  | .add c rd ra rb => { ctx := c, rd := rd, ra := ra, rb := rb }
  | .sub c rd ra rb => { ctx := c, rd := rd, ra := ra, rb := rb }
  | .mul c rd ra rb => { ctx := c, rd := rd, ra := ra, rb := rb }
  | .sqr c rd ra => { ctx := c, rd := rd, ra := ra }
  | .expct c rd ra rb b => { ctx := c, rd := rd, ra := ra, rb := rb, bbits := b }
  | .expvt c rd ra rb b => { ctx := c, rd := rd, ra := ra, rb := rb, bbits := b }
  | .inv c rd ra => { ctx := c, rd := rd, ra := ra }

/-- `CW0 = OPC<<24 | CTX<<16 | LEN` (R89). -/
def Instr.cw0 (i : Instr) : Word32 :=
  BitVec.ofNat 32 (i.opcode.code * 2 ^ 24 + i.operands.ctx * 2 ^ 16 + i.operands.len)

/-- `CW1 = RD<<16 | RA` (R89). -/
def Instr.cw1 (i : Instr) : Word32 := BitVec.ofNat 32 (i.operands.rd * 2 ^ 16 + i.operands.ra)

/-- `CW2 = RB<<16` (R89). -/
def Instr.cw2 (i : Instr) : Word32 := BitVec.ofNat 32 (i.operands.rb * 2 ^ 16)

/-- `CW3 = BBITS` (R89). -/
def Instr.cw3 (i : Instr) : Word32 := BitVec.ofNat 32 i.operands.bbits

/-- The encoding of a line (R89). -/
def encode (i : Instr) : Command := Command.ofWords i.cw0 i.cw1 i.cw2 i.cw3

/-- A row of `opcode_table.json` (R91): a command `C` selects the row iff `C & mask = match`. -/
structure OpcodeRow where
  opcode : Opcode
  pattern : Command
  mask : Command
  deriving DecidableEq, Repr

/-- `C & mask = match` (R91). -/
def OpcodeRow.selects (r : OpcodeRow) (c : Command) : Bool := c &&& r.mask == r.pattern

/-- The context, conversion and `ONE` rows of `opcode_table.json` (R91). -/
def opcodeRowsLow : List OpcodeRow :=
  [ { opcode := .chkmod, pattern := 0x00000000000000000000000001000000#128, mask := 0xffffffffffffffffffff0000ffff0000#128 },
    { opcode := .init, pattern := 0x00000000000000000000000002000000#128, mask := 0xffffffffffffffffffff0000fff00000#128 },
    { opcode := .free, pattern := 0x00000000000000000000000003000000#128, mask := 0xfffffffffffffffffffffffffff0ffff#128 },
    { opcode := .getlen, pattern := 0x00000000000000000000000004000000#128, mask := 0xfffffffffffffffffffffffffff0ffff#128 },
    { opcode := .tofield, pattern := 0x00000000000000000000000010000000#128, mask := 0xffffffffffffffff00000000fff0ffff#128 },
    { opcode := .fromfield, pattern := 0x00000000000000000000000011000000#128, mask := 0xffffffffffffffff00000000fff0ffff#128 },
    { opcode := .one, pattern := 0x00000000000000000000000012000000#128, mask := 0xffffffffffffffff0000fffffff0ffff#128 } ]

/-- The arithmetic, exponentiation and inverse rows of `opcode_table.json` (R91). -/
def opcodeRowsHigh : List OpcodeRow :=
  [ { opcode := .add, pattern := 0x00000000000000000000000020000000#128, mask := 0xffffffff0000ffff00000000fff0ffff#128 },
    { opcode := .sub, pattern := 0x00000000000000000000000021000000#128, mask := 0xffffffff0000ffff00000000fff0ffff#128 },
    { opcode := .mul, pattern := 0x00000000000000000000000022000000#128, mask := 0xffffffff0000ffff00000000fff0ffff#128 },
    { opcode := .sqr, pattern := 0x00000000000000000000000023000000#128, mask := 0xffffffffffffffff00000000fff0ffff#128 },
    { opcode := .expct, pattern := 0x00000000000000000000000030000000#128, mask := 0x000000000000ffff00000000fff0ffff#128 },
    { opcode := .expvt, pattern := 0x00000000000000000000000031000000#128, mask := 0x000000000000ffff00000000fff0ffff#128 },
    { opcode := .inv, pattern := 0x00000000000000000000000032000000#128, mask := 0xffffffffffffffff00000000fff0ffff#128 } ]

/-- The 14 rows of `opcode_table.json` (R91). -/
def opcodeTable : List OpcodeRow := opcodeRowsLow ++ opcodeRowsHigh

/-- A buffer `[x]` of the text form (R89), its limb address in decimal (log 23). -/
def asmBuffer (a : Nat) : String := "[" ++ toString a ++ "]"

/-- A slot `c<k>` of the text form (R89). -/
def asmSlot (c : Nat) : String := "c" ++ toString c

/-- The operands of the text form, separated by commas (R89). -/
def asmOperands : Instr → List String
  | .chkmod ra len => [asmBuffer ra, toString len]
  | .init c ra len => [asmSlot c, asmBuffer ra, toString len]
  | .free c => [asmSlot c]
  | .getlen c => [asmSlot c]
  | .tofield c rd ra => [asmSlot c, asmBuffer rd, asmBuffer ra]
  | .fromfield c rd ra => [asmSlot c, asmBuffer rd, asmBuffer ra]
  | .one c rd => [asmSlot c, asmBuffer rd]
  | .add c rd ra rb => [asmSlot c, asmBuffer rd, asmBuffer ra, asmBuffer rb]
  | .sub c rd ra rb => [asmSlot c, asmBuffer rd, asmBuffer ra, asmBuffer rb]
  | .mul c rd ra rb => [asmSlot c, asmBuffer rd, asmBuffer ra, asmBuffer rb]
  | .sqr c rd ra => [asmSlot c, asmBuffer rd, asmBuffer ra]
  | .expct c rd ra rb b => [asmSlot c, asmBuffer rd, asmBuffer ra, asmBuffer rb, toString b]
  | .expvt c rd ra rb b => [asmSlot c, asmBuffer rd, asmBuffer ra, asmBuffer rb, toString b]
  | .inv c rd ra => [asmSlot c, asmBuffer rd, asmBuffer ra]

/-- The textual form of a command: upper-case mnemonic, destination first (R89). -/
def asm (i : Instr) : String := i.mnemonic ++ " " ++ String.intercalate ", " (asmOperands i)

/-- The instruction the decoder reads from a command given as a number numbered as the opcode table numbers it: bit 0 is
the least significant bit of `CW0`, and every bit from `nbits` on is 0. -/
def decodeTableWord (nbits w : Nat) : Option Instr :=
  match decode (BitVec.ofNat 128 (w % 2 ^ nbits)) with
  | .ok i => some i
  | .error _ => none

end Sys2Proof
end

