-- ==== Sys2Proof/Machine/Datapath.lean ====
section
/-! DEFINITION. The datapath primitives of `40_primitives.md` (R110 to R130). `w` is the limb width in bits, `B = 2^w`;
the limb count `k` of a rule is the length of its operands. Flags of a limb operation (carries, borrows, masks) are
data inside a command and reach no register (R23). -/

namespace Sys2Proof.Machine

/-- `val(x) = Σ x[i] * 2^(W*i)` (R12). -/
def val (w : Nat) : List Nat → Nat
  | [] => 0
  | x :: xs => x + 2 ^ w * val w xs

/-- `limbs_k(v)[i] = (v >> (W*i)) mod 2^W` (R12). -/
def limbsOf (w : Nat) : Nat → Nat → List Nat
  | 0, _ => []
  | k + 1, v => v % 2 ^ w :: limbsOf w k (v / 2 ^ w)

/-- Limb `i`, 0 beyond the end. -/
def limbAt (x : List Nat) (i : Nat) : Nat := x.getD i 0

/-- `addc(a, b, cin) -> (s, cout)` (R110). -/
def addc (w a b cin : Nat) : Nat × Nat := ((a + b + cin) % 2 ^ w, (a + b + cin) / 2 ^ w)

/-- `subb(a, b, bin) -> (d, bout)` (R111): `d = (a - b - bin) mod B`, `bout = 1` iff `a - b - bin < 0`. -/
def subb (w a b bin : Nat) : Nat × Nat :=
  ((a + 2 ^ w - (b + bin)) % 2 ^ w, if a < b + bin then 1 else 0)

/-- `mac(a, b, c, d) -> (hi, lo)` (R112): `hi * B + lo = a * b + c + d`. -/
def mac (w a b c d : Nat) : Nat × Nat := ((a * b + c + d) / 2 ^ w, (a * b + c + d) % 2 ^ w)

/-- `mul_wide(a, b) -> (hi, lo)` (R112). -/
def mulWide (w a b : Nat) : Nat × Nat := mac w a b 0 0

/-- The loop of `bn_add` from a carry-in: the sum limbs and the final carry (R113). -/
def bnAddFrom (w : Nat) : Nat → List Nat → List Nat → List Nat × Nat
  | cy, a :: as, b :: bs =>
    let r := bnAddFrom w (addc w a b cy).2 as bs
    ((addc w a b cy).1 :: r.1, r.2)
  | cy, _, _ => ([], cy)

/-- `bn_add(k, a, b) -> (c, carry)` (R113). -/
def bnAdd (w : Nat) (a b : List Nat) : List Nat × Nat := bnAddFrom w 0 a b

/-- The loop of `bn_sub` from a borrow-in: the difference limbs and the final borrow (R114). -/
def bnSubFrom (w : Nat) : Nat → List Nat → List Nat → List Nat × Nat
  | bw, a :: as, b :: bs =>
    let r := bnSubFrom w (subb w a b bw).2 as bs
    ((subb w a b bw).1 :: r.1, r.2)
  | bw, _, _ => ([], bw)

/-- `bn_sub(k, a, b) -> (c, borrow)` (R114). -/
def bnSub (w : Nat) (a b : List Nat) : List Nat × Nat := bnSubFrom w 0 a b

/-- One row of multiply-accumulate: for each limb `j`, `(cy, t[j]) <- mac(x, a[j], t[j], cy)`; the new limbs of `t` and the
last carry. The inner loop of R115 and of R124. -/
def macRow (w x : Nat) : List Nat → List Nat → Nat → List Nat × Nat
  | a :: as, t :: ts, cy =>
    let r := macRow w x as ts (mac w x a t cy).1
    ((mac w x a t cy).2 :: r.1, r.2)
  | _, _, cy => ([], cy)

/-- The outer loop of the schoolbook product (R115) over the limbs of `b`; `t` is the product buffer from limb `i` up, and
each turn's lowest limb is final. -/
def mulRows (w : Nat) (a : List Nat) : List Nat → List Nat → List Nat
  | b :: bs, t =>
    let r := macRow w b a (t.take a.length) 0
    let t' := r.1 ++ r.2 :: t.drop (a.length + 1)
    t'.headD 0 :: mulRows w a bs t'.tail
  | [], t => t

/-- `bn_mul(k, a, b)` (R115), `2k` limbs, `val(t) = val(a) * val(b)`. -/
def bnMul (w : Nat) (a b : List Nat) : List Nat := mulRows w a b (List.replicate (a.length + b.length) 0)

/-- `bn_sqr(k, a)` (R116): "a model defines it as `bn_mul(k, a, a)`". -/
def bnSqr (w : Nat) (a : List Nat) : List Nat := bnMul w a a

/-- `top_index(k, x)` (R117): the largest index of a nonzero limb, 0 for a zero vector (log 19). -/
def topIndex (x : List Nat) : Nat :=
  ((List.range x.length).reverse.find? fun i => limbAt x i != 0).getD 0

/-- One turn of the iteration of R118, `x <- (x * (2 - n0 * x)) mod B`. -/
def newtonStep (w n0 x : Nat) : Nat := x * ((2 + 2 ^ w - n0 * x % 2 ^ w) % 2 ^ w) % 2 ^ w

/-- `mod_inv_limb(n0)` (R118): for odd `n0` the limb `mu` with `(n0 * mu + 1) mod B = 0`, by the procedure the rule gives
from general knowledge (PRESUMED, log 11). An even `n0` never reaches it: `INIT` then takes free values. -/
def modInvLimb (w n0 : Nat) : Nat :=
  (2 ^ w - newtonStep w n0 (newtonStep w n0 (newtonStep w n0 (newtonStep w n0 (newtonStep w n0 n0))))) % 2 ^ w

/-- `mask_of_bit(f) = (0 - f) mod B` (R119). -/
def maskOfBit (w f : Nat) : Nat := (2 ^ w - f) % 2 ^ w

/-- `eq_mask(x, y)`: `B - 1` if `x = y` else 0 (R119). -/
def eqMask (w x y : Nat) : Nat := if x = y then 2 ^ w - 1 else 0

/-- `~m` on `w` bits (R13). -/
def notLimb (w m : Nat) : Nat := m ^^^ (2 ^ w - 1)

/-- `mask_select(m, x, y)`: `z[i] = (x[i] & m) | (y[i] & ~m)` (R120). -/
def maskSelect (w m : Nat) (x y : List Nat) : List Nat :=
  List.zipWith (fun a b => (a &&& m) ||| (b &&& notLimb w m)) x y

/-- The word-by-word exchange of R121: `d <- (x[i] ^ y[i]) & m; x'[i] <- x[i] ^ d`. -/
def swapInto (m : Nat) (x y : List Nat) : List Nat := List.zipWith (fun a b => a ^^^ ((a ^^^ b) &&& m)) x y

/-- `cswap(f, x, y) -> (x', y')` (R121). -/
def cswap (w f : Nat) (x y : List Nat) : List Nat × List Nat :=
  (swapInto (maskOfBit w f) x y, swapInto (maskOfBit w f) y x)

/-- `add_mod_n(k, n, a, b)` (R122): both candidates computed, `m <- mask_of_bit(cy | (1 - bw))`. -/
def addModN (w : Nat) (n a b : List Nat) : List Nat :=
  let s := bnAdd w a b
  let d := bnSub w s.1 n
  maskSelect w (maskOfBit w (s.2 ||| (1 - d.2))) d.1 s.1

/-- `sub_mod_n(k, n, a, b)` (R123): the second pass `d + n` always computed, its carry discarded. -/
def subModN (w : Nat) (n a b : List Nat) : List Nat :=
  let d := bnSub w a b
  let e := bnAdd w d.1 n
  maskSelect w (maskOfBit w d.2) e.1 d.1

/-- `(t[j], cy) <- addc(t[j], cy, 0)` to the top (R124); a carry out of the top limb does not arise there. -/
def propagate (w : Nat) : List Nat → Nat → List Nat
  | t :: ts, cy => (addc w t cy 0).1 :: propagate w ts (addc w t cy 0).2
  | [], _ => []

/-- One Montgomery-reduction step (R124) on the buffer from limb `i` up: add the multiple of `n` that cancels the lowest
limb, and drop that limb ("shifting right by one word"; log 21). -/
def montStep (w : Nat) (n : List Nat) (mu : Nat) (t : List Nat) : List Nat :=
  let q := t.headD 0 * mu % 2 ^ w
  let r := macRow w q n (t.take n.length) 0
  (r.1 ++ propagate w (t.drop n.length) r.2).tail

/-- `i` Montgomery-reduction steps (R124). -/
def montSteps (w : Nat) (n : List Nat) (mu : Nat) : Nat → List Nat → List Nat
  | 0, t => t
  | i + 1, t => montSteps w n mu i (montStep w n mu t)

/-- `mont_reduce(len, n, mu, t)` (R124): `len` steps on `t` extended by one limb, then one conditional subtraction of `n`
chosen by mask. -/
def montReduce (w : Nat) (n : List Nat) (mu : Nat) (t : List Nat) : List Nat :=
  let u := montSteps w n mu n.length (t ++ [0])
  let res := u.take n.length
  let top := limbAt u n.length
  let d := bnSub w res n
  maskSelect w (maskOfBit w (top ||| (1 - d.2))) d.1 res

/-- A value zero-extended to `2*len` limbs (R161, R174). -/
def zeroExtend (x : List Nat) : List Nat := x ++ List.replicate x.length 0

/-- `mont_mul(len, n, mu, a, b)` (R125). -/
def montMul (w : Nat) (n : List Nat) (mu : Nat) (a b : List Nat) : List Nat := montReduce w n mu (bnMul w a b)

/-- `mont_sqr(len, n, mu, a)` (R126). -/
def montSqr (w : Nat) (n : List Nat) (mu : Nat) (a : List Nat) : List Nat := montReduce w n mu (bnSqr w a)

/-- `get_bit(b, i)` (R129). -/
def getBit (w : Nat) (b : List Nat) (i : Nat) : Nat := (limbAt b (i / w) >>> (i % w)) &&& 1

/-- `get_window(b, bLen, p, l)` (R130), with the splice of two limbs when the window straddles them. -/
def getWindow (w : Nat) (b : List Nat) (p l : Nat) : Nat :=
  let i := p / w
  let j := p % w
  let lowPart := limbAt b i >>> j
  let v := if j + l > w ∧ i + 1 < b.length then lowPart ||| ((limbAt b (i + 1) <<< (w - j)) % 2 ^ w) else lowPart
  v &&& (2 ^ l - 1)

/-- `2*W*len` modular doublings from 1: the reference procedure of R143 for `r2`. -/
def doublings (w : Nat) (n : List Nat) : Nat → List Nat → List Nat
  | 0, acc => acc
  | i + 1, acc => doublings w n i (addModN w n acc acc)

/-- `R^2 mod n` by the reference procedure of R143. -/
def r2ByDoubling (w : Nat) (n : List Nat) : List Nat :=
  doublings w n (2 * w * n.length) (limbsOf w n.length 1)

end Sys2Proof.Machine
end

