-- ==== Sys2Proof/Config.lean ====
section
/-! DEFINITION. The parameters and constants of an instance (R9, R10) and the free values (U1 to U3 of
`93_implementation_defined.md`). -/

namespace Sys2Proof

/-- The four parameters of R9, "fixed when an instance is built and constant afterwards". -/
structure Config where
  /-- `W` -/
  width : LimbWidth
  /-- `NCTX`, the number of context slots -/
  nctx : Nat
  /-- `LEN_MAX`, the largest `len` a context may have -/
  lenMax : Nat
  /-- `MEM_LIMBS`, the number of limbs in limb memory -/
  memLimbs : Nat
  deriving DecidableEq, Repr

/-- `W` in bits. -/
def Config.w (c : Config) : Nat := c.width.bits

/-- The legal values of R9: `NCTX` 1 to 16, `LEN_MAX` 1 to 65535, `MEM_LIMBS` 1 to 65536. -/
def Config.legal (c : Config) : Bool :=
  decide (1 ≤ c.nctx ∧ c.nctx ≤ 16 ∧ 1 ≤ c.lenMax ∧ c.lenMax ≤ 65535 ∧ 1 ≤ c.memLimbs ∧ c.memLimbs ≤ 65536)

/-- The instance of `95_test_vectors.md`: `W = 64`, `NCTX = 4`, `LEN_MAX = 64`, `MEM_LIMBS = 1024`
(DESIGN CHOICE, log 1: R9 leaves the parameters to the model). -/
def Config.vectors : Config := { width := .w64, nctx := 4, lenMax := 64, memLimbs := 1024 }

/-- The command-set string `MFE-1/W<W>` (R2). -/
def Config.commandSet (c : Config) : String := "MFE-1/W" ++ toString c.w

/-- `EXP_SMALL_LIMIT` (R10): below it the bit-serial path, from it on the window path. -/
def expSmallLimit : Nat := 200

/-- `WIN` (R10): the window width in bits. -/
def windowBits : Nat := 4

/-- `TBL` (R10): the entries of the precomputed table. -/
def tableSize : Nat := 16

/-- The limb that stands for an open value (U1, U2, U3): nothing constrains it. The arguments are the draw (a counter the
state advances, so that the value "need not be the same on two runs"), everything the command can read, and the index of
the limb; the value is narrowed to `W` bits where it is stored (log 5). -/
opaque Config.freeLimb : (draw : Nat) → (readable : List (List Nat)) → (index : Nat) → Nat

/-- The observable trace of a command whose value precondition fails: the spec "does not promise" that it is independent of
data (`93_implementation_defined.md` section 1, R276), so nothing constrains it (log 12). -/
opaque Config.freeTrace : (draw : Nat) → (readable : List (List Nat)) → List Nat

end Sys2Proof
end

