-- ==== Sys2Proof/Machine/State.lean ====
section
/-! DEFINITION. The state of the engine (R20), plain data; the host agent's moves (R272); the names of the stops; reset
(R39). -/

namespace Sys2Proof.Machine

/-- Limb memory as the limb window shows it (R52): pairs of a byte's offset in the window (host byte offset less
`0x80000`) and the byte, offsets strictly rising and no byte 0. An unlisted byte reads 0, its reset value (R39; log 8). -/
abbrev Memory := List Host.Cell

/-- One context slot `CTX[c]` (R26). -/
structure Slot where
  /-- 1 from a successful `INIT` until `FREE` or reset -/
  valid : Bool
  /-- the limb count, 16 bits -/
  len : Nat
  /-- the modulus, `LEN_MAX` limbs of which limbs `0 .. len-1` are meaningful -/
  n : List Nat
  /-- `-n[0]^-1 mod 2^W` -/
  mu : Nat
  /-- `R^2 mod n`, `LEN_MAX` limbs of which limbs `0 .. len-1` are meaningful -/
  r2 : List Nat
  deriving DecidableEq, Repr

/-- A slot as reset and `FREE` leave it: invalid, every field and all `LEN_MAX` limbs zero (R39, R145). -/
def Slot.zero (lenMax : Nat) : Slot :=
  { valid := false, len := 0, n := List.replicate lenMax 0, mu := 0, r2 := List.replicate lenMax 0 }

/-- The width of a host access; the port takes 32-bit words only (R53). -/
inductive AccessWidth
  | byte
  | half
  | word
  | burst64
  deriving DecidableEq, Repr

/-- A move of the run (R272). Offsets are the 20-bit host byte offsets (R36, R56). -/
inductive Move
  /-- the host reads the register port (R58, R60) -/
  | read (offset : BitVec 20) (width : AccessWidth)
  /-- the host writes the register port (R59, R61); START and soft reset are writes of `CTRL` (R27) -/
  | write (offset : BitVec 20) (width : AccessWidth) (value : Word32)
  /-- the environment's hard reset (R260) -/
  | hardReset
  /-- the engine's turn: it completes the command in flight, if there is one (R82; log 2) -/
  | engine
  deriving DecidableEq, Repr

/-- The state. The engine's own is the table of R20; `cfg` is the instance (R9; log 1); the last three fields are the
MODEL's: the host agent and the count of free values drawn (logs 2, 3, 5). -/
structure State where
  /-- the parameters, read through `CONFIG` and `MEMSIZE` (R33, R34); no step changes them -/
  cfg : Config
  /-- limb memory `LM` (R35) -/
  mem : Memory
  /-- context slots `CTX[0 .. NCTX-1]` (R26) -/
  slots : List Slot
  /-- `CMD0` (R25) -/
  cmd0 : Word32
  /-- `CMD1` (R25) -/
  cmd1 : Word32
  /-- `CMD2` (R25) -/
  cmd2 : Word32
  /-- `CMD3` (R25) -/
  cmd3 : Word32
  /-- `STATUS.BUSY` (R23) -/
  busy : Bool
  /-- `STATUS.DONE` (R23) -/
  done : Bool
  /-- `STATUS.FAULT` (R23) -/
  fault : Bool
  /-- `STATUS.CHK` (R23) -/
  chk : Bool
  /-- `RESULT` (R29) -/
  result : Word32
  /-- `FAULTCODE[7:0]` (R30) -/
  faultCode : Byte
  /-- `FAULTINFO` (R31) -/
  faultInfo : Word32
  /-- the latched command `LC`, meaningful only while `BUSY = 1` (R38) -/
  lc : Command
  /-- the moves still to come (model's own, log 2) -/
  inputs : List Move
  /-- what the host's reads returned, newest first (model's own, log 3) -/
  replies : List Word32
  /-- how many free values have been drawn (model's own, log 5) -/
  freeCount : Nat
  deriving DecidableEq, Repr

/-- Why the model stops with a fault. No command stops it: a command fault is trap entry, a next state (R240). -/
inductive Fault
  /-- Raised by the register port (`portRead`, `portWrite`) for a host access to an address the spec says does not exist:
  a reserved register offset (R42) or a window offset beyond limb memory (R56). The port refuses it and "a model gives a
  refused access no move" (R63; log 4). Safe: the hardware goes on unchanged, the model has no run. -/
  | reservedOffset
  deriving DecidableEq, Repr

/-- Why the model refuses a move. -/
inductive Refusal
  /-- Raised by `exec` alone, for an instruction that has no meaning yet. Safe. -/
  | notModelled (mnemonic : String)
  /-- Raised by the register port for an access that is not 32 bits wide (R53, R63; log 4). Safe. -/
  | accessNotWord
  /-- Raised by the register port for an offset that is not a multiple of 4 (R53, R63; log 4). Safe. -/
  | misalignedOffset
  /-- Raised by the register port for an access R62 does not allow while `BUSY = 1` (R63; log 4). Safe. -/
  | portBusy
  deriving DecidableEq, Repr

/-- An instance right after reset: the table of R39. `LC` is "not meaningful" there; it is 0 (DESIGN CHOICE, log 7). -/
def State.resetOf (c : Config) : State :=
  { cfg := c, mem := [], slots := List.replicate c.nctx (Slot.zero c.lenMax),
    cmd0 := 0, cmd1 := 0, cmd2 := 0, cmd3 := 0,
    busy := false, done := false, fault := false, chk := false,
    result := 0, faultCode := 0, faultInfo := 0, lc := 0,
    inputs := [], replies := [], freeCount := 0 }

/-- The machine right after reset (R39), for the instance of `95_test_vectors.md` (log 1). -/
def State.reset : State := State.resetOf Config.vectors

end Sys2Proof.Machine
end

