-- ==== Sys2Proof/Machine/Memory.lean ====
section
/-! DEFINITION. Limb memory: bytes in canonical form (log 8), the little-endian bytes of a limb (R52), and the
little-limb-first ranges `MemRead` and `MemWrite` (R14, R51). -/

namespace Sys2Proof.Machine

/-- Every key is at least `lo`, keys rise strictly, and no listed byte is the 0 an unlisted one reads as. -/
def Memory.wfFrom : Nat → Memory → Bool
  | _, [] => true
  | lo, (a, v) :: m => decide (lo ≤ a) && v != 0 && Memory.wfFrom (a + 1) m

/-- The canonical form of memory (log 8). -/
def Memory.wf (m : Memory) : Bool := Memory.wfFrom 0 m

/-- Every listed byte lies below `top`. -/
def Memory.within (m : Memory) (top : Nat) : Bool := m.all fun c => decide (c.1 < top)

/-- One byte of the limb window; 0 if nothing wrote it since reset (R55). -/
def Memory.getByte : Memory → Nat → Byte
  | [], _ => 0
  | (b, u) :: m, a => if a = b then u else Memory.getByte m a

/-- Write one byte, keeping the canonical form. -/
def Memory.setByte : Memory → Nat → Byte → Memory
  | [], a, v => if v = 0 then [] else [(a, v)]
  | (b, u) :: m, a, v =>
    if a < b then
      if v = 0 then (b, u) :: m else (a, v) :: (b, u) :: m
    else if a = b then
      if v = 0 then m else (a, v) :: m
    else (b, u) :: Memory.setByte m a v

/-- The number in `k` bytes from `a` up, least significant byte first (R52). -/
def Memory.readLE (m : Memory) (a : Nat) : Nat → Nat
  | 0 => 0
  | k + 1 => (m.getByte a).toNat + 256 * Memory.readLE m (a + 1) k

/-- Store the low `k` bytes of `v` from `a` up, least significant byte first (R52). -/
def Memory.writeLE (m : Memory) (a : Nat) : Nat → Nat → Memory
  | 0, _ => m
  | k + 1, v => Memory.writeLE (m.setByte a (BitVec.ofNat 8 v)) (a + 1) k (v / 256)

/-- `LM[a]` (R14): byte `j` of limb `a` is at window offset `a*(W/8) + j` (R52). -/
def Memory.limb (m : Memory) (wd : LimbWidth) (a : Nat) : Nat := m.readLE (a * wd.bytes) wd.bytes

/-- `LM[a] <- v` (R14). -/
def Memory.setLimb (m : Memory) (wd : LimbWidth) (a : Nat) (v : Nat) : Memory :=
  m.writeLE (a * wd.bytes) wd.bytes v

/-- `MemRead(a, k)` (R14): limb `i` at address `a + i`. -/
def Memory.readLimbs (m : Memory) (wd : LimbWidth) (a : Nat) : Nat → List Nat
  | 0 => []
  | k + 1 => m.limb wd a :: Memory.readLimbs m wd (a + 1) k

/-- `MemWrite(a, k, v)` (R14): `LM[a+i] <- v[i]` for `0 <= i < k`, exactly `k` limbs. -/
def Memory.writeLimbs (m : Memory) (wd : LimbWidth) (a : Nat) : Nat → List Nat → Memory
  | 0, _ => m
  | k + 1, vs => Memory.writeLimbs (m.setLimb wd a (vs.headD 0)) wd (a + 1) k vs.tail

end Sys2Proof.Machine
end

