-- ==== Sys2Proof/Machine/Ops.lean ====
section
/-! DEFINITION. The named operations over memory, slots and registers: reads and writes of limb memory (R14), the life of a
command (R82), trap entry (R240) beside reset, the only way back from a fault (R242, R261), and the free values (log 5). -/

namespace Sys2Proof.Machine

/-- The seven faults (R231). -/
inductive FaultCode
  | illegalCmd
  | ctxRange
  | ctxInvalid
  | ctxInuse
  | lenRange
  | addrRange
  | operandOverlap
  deriving DecidableEq, Repr

/-- The code recorded in `FAULTCODE[7:0]` (R231). -/
def FaultCode.code : FaultCode → Byte
  | .illegalCmd => 0x01
  | .ctxRange => 0x02
  | .ctxInvalid => 0x03
  | .ctxInuse => 0x04
  | .lenRange => 0x05
  | .addrRange => 0x06
  | .operandOverlap => 0x07

/-- `MemRead(a, k)` on the state (R14). -/
def State.memRead (s : State) (a : Nat) (k : Nat) : List Nat := s.mem.readLimbs s.cfg.width a k

/-- `MemWrite(a, k, v)` on the state (R14). -/
def State.memWrite (s : State) (a : Nat) (k : Nat) (v : List Nat) : State :=
  { s with mem := s.mem.writeLimbs s.cfg.width a k v }

/-- Slot `c`; commands look at it only when `c < NCTX` (R239), where it exists (log 22). -/
def State.slot (s : State) (c : Nat) : Slot := s.slots.getD c (Slot.zero s.cfg.lenMax)

/-- Replace slot `c`. -/
def State.setSlot (s : State) (c : Nat) (t : Slot) : State := { s with slots := s.slots.set c t }

/-- `RESULT <- v` (R29). -/
def State.setResult (s : State) (v : Word32) : State := { s with result := v }

/-- `STATUS.CHK <- f` (R23). -/
def State.setChk (s : State) (f : Bool) : State := { s with chk := f }

/-- The command in the registers, `CMD3 || CMD2 || CMD1 || CMD0` (R25). -/
def State.command (s : State) : Command := Command.ofWords s.cmd0 s.cmd1 s.cmd2 s.cmd3

/-- Issue (R82 (1)): `LC <- CMD3 || CMD2 || CMD1 || CMD0`, `BUSY <- 1`, `DONE <- 0`. -/
def State.issue (s : State) : State := { s with lc := s.command, busy := true, done := false }

/-- Completion without fault (R82 (2), R140): `BUSY <- 0`, `DONE <- 1`. -/
def State.retire (s : State) : State := { s with busy := false, done := true }

/-- Trap entry (R240), as one step and nothing else. -/
def State.trap (s : State) (f : FaultCode) : State :=
  { s with busy := false, fault := true, faultCode := f.code, faultInfo := s.lc.extractLsb' 0 32 }

/-- Reset, hard or soft (R260, R261): the whole engine takes its reset value. The host agent's moves and replies and the
count of free values are not engine state and stay (log 15). -/
def State.toReset (s : State) : State :=
  { State.resetOf s.cfg with inputs := s.inputs, replies := s.replies, freeCount := s.freeCount }

/-- The host receives the word a read returned (model's own, log 3). -/
def State.reply (s : State) (v : Word32) : State := { s with replies := v :: s.replies }

/-- One more free value has been drawn (model's own, log 5). -/
def State.drawn (s : State) : State := { s with freeCount := s.freeCount + 1 }

/-- `unspecified(k)` (R14): `k` limbs that nothing constrains but their width, from limb index `i` on. -/
def freeLimbsFrom (w draw : Nat) (readable : List (List Nat)) (i : Nat) : Nat → List Nat
  | 0 => []
  | k + 1 => Config.freeLimb draw readable i % 2 ^ w :: freeLimbsFrom w draw readable (i + 1) k

/-- `unspecified(k)` for the next draw of the state (R14; log 5). -/
def State.freeLimbs (s : State) (readable : List (List Nat)) (k : Nat) : List Nat :=
  freeLimbsFrom s.cfg.w s.freeCount readable 0 k

/-- Write a field result to `[rd, rd+len)`: the value the rule gives when its value preconditions hold, else
`unspecified(len)` (U1, U2, U3); nothing else is affected (R248). -/
def State.writeResult (s : State) (rd : Nat) (len : Nat) (conforming : Bool) (v : List Nat)
    (readable : List (List Nat)) : State :=
  if conforming then s.memWrite rd len v
  else (s.memWrite rd len (s.freeLimbs readable len)).drawn

/-- The engine's one step for an admitted or a faulting command (R82 (2), R239): trap entry for the first admission check
that fails, otherwise the command's effect and completion. -/
def perform (admission : Option FaultCode) (effect : State → State) (s : State) : Host.Outcome State Fault Refusal :=
  match admission with
  | some f => .next (s.trap f)
  | none => .next (effect s).retire

end Sys2Proof.Machine
end

