-- ==== Sys2Proof/Machine/Operands.lean ====
section
/-! DEFINITION. The operand forms: a command's footprint (R68), the admission checks of each format in the order of R239,
and the value preconditions (R248). -/

namespace Sys2Proof.Machine

/-- A buffer `[base, base + len)` of limb memory (R68). -/
structure Buffer where
  base : Nat
  len : Nat
  deriving DecidableEq, Repr

/-- The buffer leaves limb memory: `f + k > MEM_LIMBS`, without wrap-around (R237). -/
def Buffer.outside (c : Config) (b : Buffer) : Bool := decide (b.base + b.len > c.memLimbs)

/-- A source conflicts with the destination: the ranges intersect and do not coincide (R238). -/
def Buffer.conflicts (dst src : Buffer) : Bool :=
  decide (dst.base < src.base + src.len ∧ src.base < dst.base + dst.len ∧
    ¬ (src.base = dst.base ∧ src.len = dst.len))

/-- What a command reads from and writes to limb memory (R68). -/
structure Footprint where
  sources : List Buffer
  dest : Option Buffer
  deriving DecidableEq, Repr

/-- Every buffer of the footprint, sources and destination alike (R237). -/
def Footprint.buffers (p : Footprint) : List Buffer := p.dest.toList ++ p.sources

/-- Check 5 of R239: any buffer beyond `MEM_LIMBS`. -/
def Footprint.outside (c : Config) (p : Footprint) : Bool := p.buffers.any fun b => b.outside c

/-- Check 6 of R239: the destination conflicts with a source. -/
def Footprint.overlaps (p : Footprint) : Bool :=
  match p.dest with
  | none => false
  | some d => p.sources.any fun b => d.conflicts b

/-- `bLen = max(1, ceil(BBITS / W))`, the limbs of an exponent (R67). -/
def bLen (w bbits : Nat) : Nat := max 1 ((bbits + w - 1) / w)

/-- `len` of the selected context (R140). -/
def State.ctxLen (s : State) (c : Nat) : Nat := (s.slot c).len

/-- Footprint of `CHKMOD` and `INIT` (R68). -/
def footprintLoad (ra : Nat) (len : Nat) : Footprint := { sources := [⟨ra, len⟩], dest := none }

/-- Footprint of `FREE` and `GETLEN` (R68). -/
def footprintNone : Footprint := { sources := [], dest := none }

/-- Footprint of format D, `ONE` (R68). -/
def State.footprintD (s : State) (c : Nat) (rd : Nat) : Footprint :=
  { sources := [], dest := some ⟨rd, s.ctxLen c⟩ }

/-- Footprint of format U (R68). -/
def State.footprintU (s : State) (c : Nat) (rd ra : Nat) : Footprint :=
  { sources := [⟨ra, s.ctxLen c⟩], dest := some ⟨rd, s.ctxLen c⟩ }

/-- Footprint of format B (R68). -/
def State.footprintB (s : State) (c : Nat) (rd ra rb : Nat) : Footprint :=
  { sources := [⟨ra, s.ctxLen c⟩, ⟨rb, s.ctxLen c⟩], dest := some ⟨rd, s.ctxLen c⟩ }

/-- Footprint of format E (R68): the exponent has `bLen` limbs (R67). -/
def State.footprintE (s : State) (c : Nat) (rd ra rb : Nat) (bbits : Nat) : Footprint :=
  { sources := [⟨ra, s.ctxLen c⟩, ⟨rb, bLen s.cfg.w bbits⟩], dest := some ⟨rd, s.ctxLen c⟩ }

/-- The footprint of a command (R68). -/
def footprint (i : Instr) (s : State) : Footprint :=
  match i with
  | .chkmod ra len => footprintLoad ra len
  | .init _ ra len => footprintLoad ra len
  | .free _ => footprintNone
  | .getlen _ => footprintNone
  | .tofield c rd ra => s.footprintU c rd ra
  | .fromfield c rd ra => s.footprintU c rd ra
  | .one c rd => s.footprintD c rd
  | .add c rd ra rb => s.footprintB c rd ra rb
  | .sub c rd ra rb => s.footprintB c rd ra rb
  | .mul c rd ra rb => s.footprintB c rd ra rb
  | .sqr c rd ra => s.footprintU c rd ra
  | .expct c rd ra rb bbits => s.footprintE c rd ra rb bbits
  | .expvt c rd ra rb bbits => s.footprintE c rd ra rb bbits
  | .inv c rd ra => s.footprintU c rd ra

/-- The fault of the first check that fails (R239). -/
def firstFault : List (Bool × FaultCode) → Option FaultCode
  | [] => none
  | (failed, f) :: rest => if failed then some f else firstFault rest

/-- Check 2 of R239: `CTX >= NCTX` (R233). -/
def State.ctxRange (s : State) (c : Nat) : Bool := decide (s.cfg.nctx ≤ c)

/-- Check 4 of R239: `LEN = 0` or `LEN > LEN_MAX` (R236). -/
def State.lenRange (s : State) (len : Nat) : Bool := decide (len = 0 ∨ s.cfg.lenMax < len)

/-- Admission of `CHKMOD` (R141). -/
def admitChkmod (s : State) (ra : Nat) (len : Nat) : Option FaultCode :=
  firstFault [(s.lenRange len, .lenRange), ((footprintLoad ra len).outside s.cfg, .addrRange)]

/-- Admission of `INIT` (R142). -/
def admitInit (s : State) (c : Nat) (ra : Nat) (len : Nat) : Option FaultCode :=
  firstFault [(s.ctxRange c, .ctxRange), ((s.slot c).valid, .ctxInuse), (s.lenRange len, .lenRange),
    ((footprintLoad ra len).outside s.cfg, .addrRange)]

/-- Admission of `FREE` and `GETLEN` (R145, R146). -/
def admitSlot (s : State) (c : Nat) : Option FaultCode :=
  firstFault [(s.ctxRange c, .ctxRange), (!(s.slot c).valid, .ctxInvalid)]

/-- Admission of a command that computes with a context: the common admission of `43_field_arith.md` (R170 to R174), of
R160, R161, R190 and R220, over the command's footprint. -/
def admitField (s : State) (c : Nat) (p : Footprint) : Option FaultCode :=
  firstFault [(s.ctxRange c, .ctxRange), (!(s.slot c).valid, .ctxInvalid), (p.outside s.cfg, .addrRange),
    (p.overlaps, .operandOverlap)]

/-- The admission checks of every command, after decoding (R231, R239). -/
def admission (i : Instr) (s : State) : Option FaultCode :=
  match i with
  | .chkmod ra len => admitChkmod s ra len
  | .init c ra len => admitInit s c ra len
  | .free c => admitSlot s c
  | .getlen c => admitSlot s c
  | .tofield c rd ra => admitField s c (s.footprintU c rd ra)
  | .fromfield c rd ra => admitField s c (s.footprintU c rd ra)
  | .one c rd => admitField s c (s.footprintD c rd)
  | .add c rd ra rb => admitField s c (s.footprintB c rd ra rb)
  | .sub c rd ra rb => admitField s c (s.footprintB c rd ra rb)
  | .mul c rd ra rb => admitField s c (s.footprintB c rd ra rb)
  | .sqr c rd ra => admitField s c (s.footprintU c rd ra)
  | .expct c rd ra rb bbits => admitField s c (s.footprintE c rd ra rb bbits)
  | .expvt c rd ra rb bbits => admitField s c (s.footprintE c rd ra rb bbits)
  | .inv c rd ra => admitField s c (s.footprintU c rd ra)

/-- `n = CTX[c].n[0 .. len-1]` (R140). -/
def Slot.modulus (t : Slot) : List Nat := t.n.take t.len

/-- `r2 = CTX[c].r2[0 .. len-1]` (R140). -/
def Slot.radixSquared (t : Slot) : List Nat := t.r2.take t.len

/-- The predicate of `CHKMOD` (R141): `(x[0] & 1) = 1 and val(x) > 1`. -/
def modulusOk (w : Nat) (x : List Nat) : Bool := decide (limbAt x 0 &&& 1 = 1 ∧ val w x > 1)

/-- The context was built on a modulus that meets `INIT`'s value precondition; otherwise `mu`, `r2` and "every later result
computed with this context" are unspecified (R248 row 1; log 6). -/
def Slot.conforming (w : Nat) (t : Slot) : Bool := modulusOk w t.modulus

/-- A field element's value precondition, `val(a) < N` (R248 row 2). -/
def Slot.below (w : Nat) (t : Slot) (a : List Nat) : Bool := decide (val w a < val w t.modulus)

/-- An exponent's value precondition, `val(b) < 2^bBits` (R248 row 3). -/
def exponentFits (w bbits : Nat) (b : List Nat) : Bool := decide (val w b < 2 ^ bbits)

/-- Everything a field command can read: its sources and the slot. An open value "may depend on anything the command can
read" (`93_implementation_defined.md` section 1). -/
def Slot.readable (t : Slot) (sources : List (List Nat)) : List (List Nat) :=
  sources ++ [[t.len], t.modulus, [t.mu], t.radixSquared]

end Sys2Proof.Machine
end

