-- ==== Sys2Proof/Machine/Context.lean ====
section
/-! DEFINITION. The Field Context commands CHKMOD, INIT, FREE, GETLEN (`41_context.md`). -/

namespace Sys2Proof.Machine

/-- The effect of `CHKMOD` (R141): `RESULT <- zext_32(ok)`, `CHK <- ok`. -/
def effectChkmod (ra : Nat) (len : Nat) (s : State) : State :=
  let ok := modulusOk s.cfg.w (s.memRead ra len)
  (s.setResult (if ok then 1 else 0)).setChk ok

/-- `CHKMOD [ra], len` (R141). -/
def execChkmod (ra : Nat) (len : Nat) (s : State) : Host.Outcome State Fault Refusal :=
  perform (admitChkmod s ra len) (effectChkmod ra len) s

/-- The slot `INIT` leaves: the limbs below `LEN` written, "limbs LEN.. stay" (R142; log 18). -/
def Slot.built (t : Slot) (len : Nat) (x : List Nat) (mu : Nat) (r2 : List Nat) : Slot :=
  { valid := true, len := len, n := x ++ t.n.drop len, mu := mu, r2 := r2 ++ t.r2.drop len }

/-- `limbs_LEN(2^(2*W*LEN) mod val(x))`, the value of `r2` (R142, R143; log 21). -/
def radixSquaredOf (w len : Nat) (x : List Nat) : List Nat := limbsOf w len (2 ^ (2 * w * len) % val w x)

/-- The effect of `INIT` (R142). When the modulus is even or not above 1, `valid`, `len` and `n` are written as always and
`mu` and `r2` are free values (U1, R248 row 1). -/
def effectInit (c : Nat) (ra : Nat) (len : Nat) (s : State) : State :=
  let x := s.memRead ra len
  if modulusOk s.cfg.w x then
    s.setSlot c ((s.slot c).built len x (modInvLimb s.cfg.w (limbAt x 0)) (radixSquaredOf s.cfg.w len x))
  else
    let u := s.freeLimbs [x] (len + 1)
    (s.setSlot c ((s.slot c).built len x (u.headD 0) u.tail)).drawn

/-- `INIT c, [ra], len` (R142). -/
def execInit (c : Nat) (ra : Nat) (len : Nat) (s : State) : Host.Outcome State Fault Refusal :=
  perform (admitInit s c ra len) (effectInit c ra len) s

/-- The effect of `FREE` (R145): every field of the slot and all `LEN_MAX` limbs zero. -/
def effectFree (c : Nat) (s : State) : State := s.setSlot c (Slot.zero s.cfg.lenMax)

/-- `FREE c` (R145). -/
def execFree (c : Nat) (s : State) : Host.Outcome State Fault Refusal :=
  perform (admitSlot s c) (effectFree c) s

/-- The effect of `GETLEN` (R146): `RESULT <- zext_32(CTX[c].len)`. -/
def effectGetlen (c : Nat) (s : State) : State := s.setResult (BitVec.ofNat 32 (s.ctxLen c))

/-- `GETLEN c` (R146). -/
def execGetlen (c : Nat) (s : State) : Host.Outcome State Fault Refusal :=
  perform (admitSlot s c) (effectGetlen c) s

end Sys2Proof.Machine
end

