-- ==== Sys2Proof/Machine/Conversion.lean ====
section
/-! DEFINITION. The domain conversion commands TOFIELD and FROMFIELD (`42_conversion.md`). -/

namespace Sys2Proof.Machine

/-- The effect of `TOFIELD` (R160): `aM <- mont_mul(len, n, mu, a, r2)`. -/
def effectTofield (c : Nat) (rd ra : Nat) (s : State) : State :=
  let t := s.slot c
  let a := s.memRead ra t.len
  s.writeResult rd t.len (t.conforming s.cfg.w && t.below s.cfg.w a)
    (montMul s.cfg.w t.modulus t.mu a t.radixSquared) (t.readable [a])

/-- `TOFIELD c, [rd], [ra]` (R160). -/
def execTofield (c : Nat) (rd ra : Nat) (s : State) : Host.Outcome State Fault Refusal :=
  perform (admitField s c (s.footprintU c rd ra)) (effectTofield c rd ra) s

/-- The effect of `FROMFIELD` (R161): `a <- mont_reduce(len, n, mu, t)`, `t` the zero-extended source. -/
def effectFromfield (c : Nat) (rd ra : Nat) (s : State) : State :=
  let t := s.slot c
  let a := s.memRead ra t.len
  s.writeResult rd t.len (t.conforming s.cfg.w && t.below s.cfg.w a)
    (montReduce s.cfg.w t.modulus t.mu (zeroExtend a)) (t.readable [a])

/-- `FROMFIELD c, [rd], [ra]` (R161). -/
def execFromfield (c : Nat) (rd ra : Nat) (s : State) : Host.Outcome State Fault Refusal :=
  perform (admitField s c (s.footprintU c rd ra)) (effectFromfield c rd ra) s

end Sys2Proof.Machine
end

