-- ==== Sys2Proof/Machine/FieldArith.lean ====
section
/-! DEFINITION. The field arithmetic commands ONE, ADD, SUB, MUL, SQR (`43_field_arith.md`). -/

namespace Sys2Proof.Machine

/-- `oneM`: `mont_reduce` of the zero-extended `r2` (R174). -/
def Slot.montOne (w : Nat) (t : Slot) : List Nat := montReduce w t.modulus t.mu (zeroExtend t.radixSquared)

/-- The effect of `ONE` (R174); its only precondition is a conforming context. -/
def effectOne (c : Nat) (rd : Nat) (s : State) : State :=
  let t := s.slot c
  s.writeResult rd t.len (t.conforming s.cfg.w) (t.montOne s.cfg.w) (t.readable [])

/-- `ONE c, [rd]` (R174). -/
def execOne (c : Nat) (rd : Nat) (s : State) : Host.Outcome State Fault Refusal :=
  perform (admitField s c (s.footprintD c rd)) (effectOne c rd) s

/-- The effect of `ADD` (R170): `add_mod_n(len, n, a, b)`. -/
def effectAdd (c : Nat) (rd ra rb : Nat) (s : State) : State :=
  let t := s.slot c
  let a := s.memRead ra t.len
  let b := s.memRead rb t.len
  s.writeResult rd t.len (t.conforming s.cfg.w && t.below s.cfg.w a && t.below s.cfg.w b)
    (addModN s.cfg.w t.modulus a b) (t.readable [a, b])

/-- `ADD c, [rd], [ra], [rb]` (R170). -/
def execAdd (c : Nat) (rd ra rb : Nat) (s : State) : Host.Outcome State Fault Refusal :=
  perform (admitField s c (s.footprintB c rd ra rb)) (effectAdd c rd ra rb) s

/-- The effect of `SUB` (R171): `sub_mod_n(len, n, a, b)`, `[ra] - [rb]`. -/
def effectSub (c : Nat) (rd ra rb : Nat) (s : State) : State :=
  let t := s.slot c
  let a := s.memRead ra t.len
  let b := s.memRead rb t.len
  s.writeResult rd t.len (t.conforming s.cfg.w && t.below s.cfg.w a && t.below s.cfg.w b)
    (subModN s.cfg.w t.modulus a b) (t.readable [a, b])

/-- `SUB c, [rd], [ra], [rb]` (R171). -/
def execSub (c : Nat) (rd ra rb : Nat) (s : State) : Host.Outcome State Fault Refusal :=
  perform (admitField s c (s.footprintB c rd ra rb)) (effectSub c rd ra rb) s

/-- The effect of `MUL` (R172): `mont_mul(len, n, mu, a, b)`. -/
def effectMul (c : Nat) (rd ra rb : Nat) (s : State) : State :=
  let t := s.slot c
  let a := s.memRead ra t.len
  let b := s.memRead rb t.len
  s.writeResult rd t.len (t.conforming s.cfg.w && t.below s.cfg.w a && t.below s.cfg.w b)
    (montMul s.cfg.w t.modulus t.mu a b) (t.readable [a, b])

/-- `MUL c, [rd], [ra], [rb]` (R172). -/
def execMul (c : Nat) (rd ra rb : Nat) (s : State) : Host.Outcome State Fault Refusal :=
  perform (admitField s c (s.footprintB c rd ra rb)) (effectMul c rd ra rb) s

/-- The effect of `SQR` (R173): `mont_sqr(len, n, mu, a)`. -/
def effectSqr (c : Nat) (rd ra : Nat) (s : State) : State :=
  let t := s.slot c
  let a := s.memRead ra t.len
  s.writeResult rd t.len (t.conforming s.cfg.w && t.below s.cfg.w a)
    (montSqr s.cfg.w t.modulus t.mu a) (t.readable [a])

/-- `SQR c, [rd], [ra]` (R173). -/
def execSqr (c : Nat) (rd ra : Nat) (s : State) : Host.Outcome State Fault Refusal :=
  perform (admitField s c (s.footprintU c rd ra)) (effectSqr c rd ra) s

end Sys2Proof.Machine
end

