-- ==== Sys2Proof/Machine/Exponentiation.lean ====
section
/-! DEFINITION. Modular exponentiation (`44_exponentiation.md`): the four procedures of R192 to R197 and the commands EXPCT
and EXPVT. In every procedure `n`, `mu` are the context's, `oneM` is the value of `ONE`, `a` the base `aM`, `b` the
exponent. -/

namespace Sys2Proof.Machine

/-- The loop of the constant-time ladder (R192) for bits `i-1` down to 0, and its final swap: swap, multiply
`r1 <- mm(r0, r1)`, then square `r0 <- ms(r0)`. -/
def ladderLoop (w : Nat) (n : List Nat) (mu : Nat) (b : List Nat) : Nat → List Nat → List Nat → Nat → List Nat
  | 0, r0, r1, prev => (cswap w prev r0 r1).1
  | i + 1, r0, r1, prev =>
    let p := cswap w (getBit w b i ^^^ prev) r0 r1
    ladderLoop w n mu b i (montSqr w n mu p.1) (montMul w n mu p.1 p.2) (getBit w b i)

/-- The constant-time bit-serial path (R192). -/
def expLadder (w : Nat) (n : List Nat) (mu : Nat) (oneM a b : List Nat) (bbits : Nat) : List Nat :=
  ladderLoop w n mu b bbits oneM a 0

/-- The loop of the variable-time bit-serial path (R193): `k` bits to go, from bit `i` upward; "if the bit is 1, multiply
accumulator by the running base; always square the running base". -/
def bitSerialLoop (w : Nat) (n : List Nat) (mu : Nat) (b : List Nat) : Nat → Nat → List Nat → List Nat → List Nat
  | 0, _, acc, _ => acc
  | k + 1, i, acc, base =>
    bitSerialLoop w n mu b k (i + 1) (if getBit w b i = 1 then montMul w n mu acc base else acc)
      (montSqr w n mu base)

/-- The variable-time bit-serial path, least significant bit first (R193, `90_conflicts.md` C3). -/
def expBitSerial (w : Nat) (n : List Nat) (mu : Nat) (oneM a b : List Nat) (bbits : Nat) : List Nat :=
  bitSerialLoop w n mu b bbits 0 oneM a

/-- The next `k` table entries after `prev`: `table[i] <- mm(table[i-1], aM)` (R194). -/
def tableFrom (w : Nat) (n : List Nat) (mu : Nat) (a : List Nat) : Nat → List Nat → List (List Nat)
  | 0, _ => []
  | k + 1, prev =>
    let e := montMul w n mu prev a
    e :: tableFrom w n mu a k e

/-- `table[0..15] = base^0 .. base^15`, built by 14 multiplications (R194). -/
def powerTable (w : Nat) (n : List Nat) (mu : Nat) (oneM a : List Nat) : List (List Nat) :=
  oneM :: a :: tableFrom w n mu a (tableSize - 2) a

/-- The scan of R196 over the entries `i, i+1, ...`: `s <- mask_select(eq_mask(i, v), table[i], s)`. -/
def scanTable (w v : Nat) : Nat → List (List Nat) → List Nat → List Nat
  | _, [], s => s
  | i, e :: es, s => scanTable w v (i + 1) es (maskSelect w (eqMask w i v) e s)

/-- `select_ct(table, v)` (R196): every entry is touched. -/
def selectCt (w : Nat) (table : List (List Nat)) (v : Nat) : List Nat :=
  scanTable w v 1 table.tail (table.headD [])

/-- `select_vt(table, v) = table[v]` (R197). -/
def selectVt (_w : Nat) (table : List (List Nat)) (v : Nat) : List Nat := table.getD v []

/-- `ms` applied `l` times. -/
def montSqrTimes (w : Nat) (n : List Nat) (mu : Nat) : Nat → List Nat → List Nat
  | 0, acc => acc
  | l + 1, acc => montSqrTimes w n mu l (montSqr w n mu acc)

/-- One window of R195: `l` squarings, then the multiplication by the entry of the `l` bits at position `p`. -/
def windowTurn (w : Nat) (n : List Nat) (mu : Nat) (select : Nat → List (List Nat) → Nat → List Nat)
    (table : List (List Nat)) (b : List Nat) (p l : Nat) (acc : List Nat) : List Nat :=
  montMul w n mu (montSqrTimes w n mu l acc) (select w table (getWindow w b p l))

/-- The full windows of R195, top first: with `k+1` to go the next one lies at `p = r + 4k`, which is
`bBits - 4*(j+1)` for window `j`. -/
def windowLoop (w : Nat) (n : List Nat) (mu : Nat) (select : Nat → List (List Nat) → Nat → List Nat)
    (table : List (List Nat)) (b : List Nat) (r : Nat) : Nat → List Nat → List Nat
  | 0, acc => acc
  | k + 1, acc =>
    windowLoop w n mu select table b r k (windowTurn w n mu select table b (r + windowBits * k) windowBits acc)

/-- The large-exponent path (R195): full windows from the top, then the final partial window of the low `r` bits
(`90_conflicts.md` C7), with the table of R194. -/
def expWindow (w : Nat) (n : List Nat) (mu : Nat) (select : Nat → List (List Nat) → Nat → List Nat)
    (oneM a b : List Nat) (bbits : Nat) : List Nat :=
  let table := powerTable w n mu oneM a
  let r := bbits % windowBits
  let acc := windowLoop w n mu select table b r (bbits / windowBits) oneM
  if r > 0 then windowTurn w n mu select table b 0 r acc else acc

/-- The computation of `EXPCT` (R198), dispatched on `BBITS` alone (R191). -/
def expCt (w : Nat) (n : List Nat) (mu : Nat) (oneM a b : List Nat) (bbits : Nat) : List Nat :=
  if bbits < expSmallLimit then expLadder w n mu oneM a b bbits else expWindow w n mu selectCt oneM a b bbits

/-- The computation of `EXPVT` (R199), dispatched on `BBITS` alone (R191). -/
def expVt (w : Nat) (n : List Nat) (mu : Nat) (oneM a b : List Nat) (bbits : Nat) : List Nat :=
  if bbits < expSmallLimit then expBitSerial w n mu oneM a b bbits else expWindow w n mu selectVt oneM a b bbits

/-- The value preconditions of R190: a conforming context, `val(aM) < N`, `val(b) < 2^bBits`. -/
def Slot.exponentOk (w : Nat) (t : Slot) (a b : List Nat) (bbits : Nat) : Bool :=
  t.conforming w && t.below w a && exponentFits w bbits b

/-- The effect of `EXPCT` (R198). -/
def effectExpct (c : Nat) (rd ra rb : Nat) (bbits : Nat) (s : State) : State :=
  let t := s.slot c
  let a := s.memRead ra t.len
  let b := s.memRead rb (bLen s.cfg.w bbits)
  s.writeResult rd t.len (t.exponentOk s.cfg.w a b bbits)
    (expCt s.cfg.w t.modulus t.mu (t.montOne s.cfg.w) a b bbits) (t.readable [a, b])

/-- `EXPCT c, [rd], [ra], [rb], bbits` (R198). -/
def execExpct (c : Nat) (rd ra rb : Nat) (bbits : Nat) (s : State) : Host.Outcome State Fault Refusal :=
  perform (admitField s c (s.footprintE c rd ra rb bbits)) (effectExpct c rd ra rb bbits) s

/-- The effect of `EXPVT` (R199). -/
def effectExpvt (c : Nat) (rd ra rb : Nat) (bbits : Nat) (s : State) : State :=
  let t := s.slot c
  let a := s.memRead ra t.len
  let b := s.memRead rb (bLen s.cfg.w bbits)
  s.writeResult rd t.len (t.exponentOk s.cfg.w a b bbits)
    (expVt s.cfg.w t.modulus t.mu (t.montOne s.cfg.w) a b bbits) (t.readable [a, b])

/-- `EXPVT c, [rd], [ra], [rb], bbits` (R199). -/
def execExpvt (c : Nat) (rd ra rb : Nat) (bbits : Nat) (s : State) : Host.Outcome State Fault Refusal :=
  perform (admitField s c (s.footprintE c rd ra rb bbits)) (effectExpvt c rd ra rb bbits) s

end Sys2Proof.Machine
end

