-- ==== Sys2Proof/Machine/Inverse.lean ====
section
/-! DEFINITION. The modular inverse INV by Fermat's little theorem (`45_inverse.md`). No constant-time variant is added:
the limitation of R222 is kept. -/

namespace Sys2Proof.Machine

/-- `n_minus_2(c)` (R221): `bn_sub(len, n, two)`, the borrow discarded. -/
def nMinus2 (w : Nat) (n : List Nat) : List Nat := (bnSub w n (limbsOf w n.length 2)).1

/-- The effect of `INV` (R220): the computation of `EXPVT` with exponent `n - 2` and `bBits = len * W`. A composite modulus
or `aM = 0` gives the same, defined, power (U4). -/
def effectInv (c : Nat) (rd ra : Nat) (s : State) : State :=
  let t := s.slot c
  let a := s.memRead ra t.len
  s.writeResult rd t.len (t.conforming s.cfg.w && t.below s.cfg.w a)
    (expVt s.cfg.w t.modulus t.mu (t.montOne s.cfg.w) a (nMinus2 s.cfg.w t.modulus) (t.len * s.cfg.w))
    (t.readable [a])

/-- `INV c, [rd], [ra]` (R220). -/
def execInv (c : Nat) (rd ra : Nat) (s : State) : Host.Outcome State Fault Refusal :=
  perform (admitField s c (s.footprintU c rd ra)) (effectInv c rd ra) s

end Sys2Proof.Machine
end

