-- ==== Sys2Proof/Machine/Dispatch.lean ====
section
/-! DEFINITION. One arm per command (R85): the engine's completion of a decoded command (R82 (2)). -/

namespace Sys2Proof.Machine

/-- The completion of a decoded command. -/
def exec (i : Instr) (s : State) : Host.Outcome State Fault Refusal :=
  match i with
  | .chkmod ra len => Sys2Proof.Machine.execChkmod ra len s
  | .init c ra len => Sys2Proof.Machine.execInit c ra len s
  | .free c => Sys2Proof.Machine.execFree c s
  | .getlen c => Sys2Proof.Machine.execGetlen c s
  | .tofield c rd ra => Sys2Proof.Machine.execTofield c rd ra s
  | .fromfield c rd ra => Sys2Proof.Machine.execFromfield c rd ra s
  | .one c rd => Sys2Proof.Machine.execOne c rd s
  | .add c rd ra rb => Sys2Proof.Machine.execAdd c rd ra rb s
  | .sub c rd ra rb => Sys2Proof.Machine.execSub c rd ra rb s
  | .mul c rd ra rb => Sys2Proof.Machine.execMul c rd ra rb s
  | .sqr c rd ra => Sys2Proof.Machine.execSqr c rd ra s
  | .expct c rd ra rb bbits => Sys2Proof.Machine.execExpct c rd ra rb bbits s
  | .expvt c rd ra rb bbits => Sys2Proof.Machine.execExpvt c rd ra rb bbits s
  | .inv c rd ra => Sys2Proof.Machine.execInv c rd ra s

end Sys2Proof.Machine
end

