-- ==== Sys2Proof/Machine/Flags.lean ====
section
/-! DEFINITION. The register views the host reads: `STATUS` from its four flags (R28), `CTXVALID` from the slots (R32),
`CONFIG` and `MEMSIZE` from the instance (R33, R34), `FAULTCODE` zero-extended (R30). The engine has no condition codes:
no command sets a carry, zero, sign or overflow flag (R23, R128). -/

namespace Sys2Proof.Machine

/-- `STATUS`: bit 0 `BUSY`, bit 1 `DONE`, bit 2 `FAULT`, bit 3 `CHK`, bits 31:4 read 0 (R28). -/
def State.statusWord (s : State) : Word32 :=
  BitVec.ofNat 32 (s.busy.toNat + 2 * s.done.toNat + 4 * s.fault.toNat + 8 * s.chk.toNat)

/-- The number whose bit `c` is the `c`-th flag. -/
def packBits : List Bool → Nat
  | [] => 0
  | b :: bs => b.toNat + 2 * packBits bs

/-- `CTXVALID`: bit `c` equals `CTX[c].valid`, bits `31:NCTX` read 0 (R32). -/
def State.ctxValidWord (s : State) : Word32 := BitVec.ofNat 32 (packBits (s.slots.map Slot.valid))

/-- `CONFIG`: bits 7:0 `W`, bits 15:8 `NCTX`, bits 31:16 `LEN_MAX` (R33). -/
def State.configWord (s : State) : Word32 :=
  BitVec.ofNat 32 (s.cfg.w + s.cfg.nctx * 2 ^ 8 + s.cfg.lenMax * 2 ^ 16)

/-- `MEMSIZE`: bits 16:0 `MEM_LIMBS`, bits 31:17 read 0 (R34). -/
def State.memSizeWord (s : State) : Word32 := BitVec.ofNat 32 s.cfg.memLimbs

/-- `FAULTCODE`: bits 7:0 the code, bits 31:8 read 0 (R30). -/
def State.faultCodeWord (s : State) : Word32 := s.faultCode.setWidth 32

end Sys2Proof.Machine
end

