-- ==== Sys2Proof/Machine/Port.lean ====
section
/-! DEFINITION. The register port (`20_memory.md` R53, R58 to R63; `10_state.md` R24 to R34, R42): the host's reads and
writes of registers and of the limb window, and the accesses it refuses. A refused access stops the run by name ("no move",
R63; log 4). -/

namespace Sys2Proof.Machine

/-- The first offset of the limb window (R52). -/
def windowBase : Nat := 0x80000

/-- The bytes of the limb window, `MEM_LIMBS*(W/8)` (R52). -/
def State.windowBytes (s : State) : Nat := s.cfg.memLimbs * s.cfg.width.bytes

/-- An offset inside the limb window (R52, R56). -/
def State.inWindow (s : State) (o : Nat) : Bool := decide (windowBase ≤ o ∧ o < windowBase + s.windowBytes)

/-- A register offset, `0x000 .. 0x02C` (R24). -/
def isRegister (o : Nat) : Bool := decide (o < 0x30)

/-- An offset the space has: a register or the window; every other offset is reserved (R42, R56). -/
def State.mapped (s : State) (o : Nat) : Bool := isRegister o || s.inWindow o

/-- The registers readable at any time: `STATUS`, `FAULTCODE`, `FAULTINFO`, `CTXVALID`, `CONFIG`, `MEMSIZE` (R62). -/
def alwaysReadable (o : Nat) : Bool :=
  o == 0x14 || o == 0x1C || o == 0x20 || o == 0x24 || o == 0x28 || o == 0x2C

/-- The value of the register at offset `o` (R24, R58); `CTRL` reads 0 (R27). -/
def State.readRegister (s : State) (o : Nat) : Word32 :=
  if o = 0x00 then s.cmd0
  else if o = 0x04 then s.cmd1
  else if o = 0x08 then s.cmd2
  else if o = 0x0C then s.cmd3
  else if o = 0x10 then 0
  else if o = 0x14 then s.statusWord
  else if o = 0x18 then s.result
  else if o = 0x1C then s.faultCodeWord
  else if o = 0x20 then s.faultInfo
  else if o = 0x24 then s.ctxValidWord
  else if o = 0x28 then s.configWord
  else s.memSizeWord

/-- The word of the limb window at window offset `p`, least significant byte first (R52, R60). -/
def State.readWindow (s : State) (p : Nat) : Word32 := BitVec.ofNat 32 (s.mem.readLE p 4)

/-- The 4 bytes of the limb window at window offset `p` take `v` (R52, R61). -/
def State.writeWindow (s : State) (p : Nat) (v : Word32) : State :=
  { s with mem := s.mem.writeLE p 4 v.toNat }

/-- The value a permitted read returns (R58, R60). -/
def State.readPort (s : State) (o : Nat) : Word32 :=
  if isRegister o then s.readRegister o else s.readWindow (o - windowBase)

/-- A `CTRL` write (R27): `RESET` wins; `START` issues the command unless `FAULT = 1`; other bits are ignored. -/
def State.writeCtrl (s : State) (v : Word32) : State :=
  if v.getLsbD 1 then s.toReset
  else if v.getLsbD 0 then
    if s.fault then s else s.issue
  else s

/-- A register write with `BUSY = 0` (R59): `CMD0..CMD3` take the value, `CTRL` acts, a read-only register ignores it. -/
def State.writeRegister (s : State) (o : Nat) (v : Word32) : State :=
  if o = 0x00 then { s with cmd0 := v }
  else if o = 0x04 then { s with cmd1 := v }
  else if o = 0x08 then { s with cmd2 := v }
  else if o = 0x0C then { s with cmd3 := v }
  else if o = 0x10 then s.writeCtrl v
  else s

/-- The state after a permitted write (R59, R61). -/
def State.writePort (s : State) (o : Nat) (v : Word32) : State :=
  if isRegister o then s.writeRegister o v else s.writeWindow (o - windowBase) v

/-- What stops any access: not a 32-bit word, misaligned (R53), or a reserved offset (R42, R56). The order names the stop
only: a refused access changes nothing (R63; log 20). -/
def checkedAccess (s : State) (o : Nat) (wd : AccessWidth) (k : Host.Outcome State Fault Refusal) :
    Host.Outcome State Fault Refusal :=
  if wd ≠ .word then .refused .accessNotWord
  else if o % 4 ≠ 0 then .refused .misalignedOffset
  else if s.mapped o = false then .fault .reservedOffset
  else k

/-- A host read (R58, R60), allowed while `BUSY = 1` for the registers of R62 only. -/
def portRead (o : Nat) (wd : AccessWidth) (s : State) : Host.Outcome State Fault Refusal :=
  checkedAccess s o wd <|
    if s.busy && !alwaysReadable o then .refused .portBusy else .next (s.reply (s.readPort o))

/-- A host write (R59, R61), allowed while `BUSY = 1` for `CTRL` with `RESET = 1` only (R62). -/
def portWrite (o : Nat) (wd : AccessWidth) (v : Word32) (s : State) : Host.Outcome State Fault Refusal :=
  checkedAccess s o wd <|
    if s.busy && !(o == 0x10 && v.getLsbD 1) then .refused .portBusy else .next (s.writePort o v)

/-- The host's moves that write limb `a` through the window: one word for `W = 32`, two for `W = 64` (R52; the directive
`WRITE` of R89). -/
def hostWriteLimb (wd : LimbWidth) (a : Nat) (v : Nat) : List Move :=
  match wd with
  | .w32 => [.write (BitVec.ofNat 20 (windowBase + 4 * a)) .word (BitVec.ofNat 32 v)]
  | .w64 => [.write (BitVec.ofNat 20 (windowBase + 8 * a)) .word (BitVec.ofNat 32 v),
      .write (BitVec.ofNat 20 (windowBase + 8 * a + 4)) .word (BitVec.ofNat 32 (v / 2 ^ 32))]

/-- The host's moves that read limb `a` through the window (the directive `READ` of R89). -/
def hostReadLimb (wd : LimbWidth) (a : Nat) : List Move :=
  match wd with
  | .w32 => [.read (BitVec.ofNat 20 (windowBase + 4 * a)) .word]
  | .w64 => [.read (BitVec.ofNat 20 (windowBase + 8 * a)) .word, .read (BitVec.ofNat 20 (windowBase + 8 * a + 4)) .word]

/-- The moves that issue a command and let the engine complete it: the four `CMD` writes, START, the engine's turn
(R25, R82). -/
def hostIssue (i : Instr) : List Move :=
  [.write 0x00 .word i.cw0, .write 0x04 .word i.cw1, .write 0x08 .word i.cw2, .write 0x0C .word i.cw3,
    .write 0x10 .word 1, .engine]

end Sys2Proof.Machine
end

