-- ==== Sys2Proof/Machine/Engine.lean ====
section
/-! DEFINITION. The moves of the two agents and of the environment (R82, R260, R272). -/

namespace Sys2Proof.Machine

/-- Completion of the command in flight (R82 (2)): decode `LC`; an illegal command traps (R92, R232), a legal one is
executed. -/
def complete (s : State) : Host.Outcome State Fault Refusal :=
  match decode s.lc with
  | .error _ => .next (s.trap .illegalCmd)
  | .ok i => exec i s

/-- The engine's turn: it completes the command in flight; with none in flight it has no move and waits (R246, R272;
log 13). -/
def engineTurn (s : State) : Host.Outcome State Fault Refusal := if s.busy then complete s else .next s

/-- The effect of one move (R272, R260). -/
def performMove (m : Move) (s : State) : Host.Outcome State Fault Refusal :=
  match m with
  | .read o wd => portRead o.toNat wd s
  | .write o wd v => portWrite o.toNat wd v s
  | .hardReset => .next s.toReset
  | .engine => engineTurn s

/-- The state once the next move has been taken from the list. -/
def State.withInputs (s : State) (ms : List Move) : State := { s with inputs := ms }

/-- The next move of the run: the first one listed; with none left, the engine's, so that "completion is always eventually
taken" (R82, R273; log 2). -/
def nextMove (s : State) : Host.Outcome State Fault Refusal :=
  match s.inputs with
  | [] => engineTurn s
  | m :: ms => performMove m (s.withInputs ms)

/-- The command `c` issued and in flight, the engine's turn next: what the host's four `CMD` writes and an accepted START
leave (R25, R82; log 14). -/
def State.inFlight (s : State) (c : Command) : State :=
  { s with
    cmd0 := c.extractLsb' 0 32, cmd1 := c.extractLsb' 32 32, cmd2 := c.extractLsb' 64 32, cmd3 := c.extractLsb' 96 32,
    lc := c, busy := true, done := false, fault := false, faultCode := 0, faultInfo := 0,
    inputs := .engine :: s.inputs }

end Sys2Proof.Machine
end

