-- ==== Sys2Proof/Machine/Step.lean ====
section
/-! DEFINITION. One step of the machine: the next move of the host, the environment or the engine (R64: one total order of
events; log 2). -/

namespace Sys2Proof.Machine

/-- One step (R19, R64, R82). -/
def step (s : State) : Host.Outcome State Fault Refusal := nextMove s

/-- `s` with the command numbered `w` (bit 0 the least significant bit of `CW0`, bits from `nbits` on zero) issued and in
flight, so that the very next step completes it (log 14). -/
def State.withFetchWord (s : State) (nbits w : Nat) : State := s.inFlight (BitVec.ofNat 128 (w % 2 ^ nbits))

end Sys2Proof.Machine
end

