-- ==== Sys2Proof/Machine/Preconditions.lean ====
section
/-! DEFINITION. The value preconditions of every command (the complete list of R248) and what it can read, as the claims and
the leakage model use them. The engine never checks them (R230): the meanings use them only to tell a value the rules fix
from an open one. -/

namespace Sys2Proof.Machine

/-- The value preconditions of a command (R248 rows 1 to 3). Row 4, "`n` prime, `aM != 0`", leaves the value of `INV`
defined and is no part of it (U4). -/
def valuesOk (i : Instr) (s : State) : Bool :=
  let w := s.cfg.w
  match i with
  | .chkmod _ _ => true
  | .init _ ra len => modulusOk w (s.memRead ra len)
  | .free _ => true
  | .getlen _ => true
  | .tofield c _ ra => (s.slot c).conforming w && (s.slot c).below w (s.memRead ra (s.ctxLen c))
  | .fromfield c _ ra => (s.slot c).conforming w && (s.slot c).below w (s.memRead ra (s.ctxLen c))
  | .one c _ => (s.slot c).conforming w
  | .add c _ ra rb => (s.slot c).conforming w && (s.slot c).below w (s.memRead ra (s.ctxLen c)) &&
      (s.slot c).below w (s.memRead rb (s.ctxLen c))
  | .sub c _ ra rb => (s.slot c).conforming w && (s.slot c).below w (s.memRead ra (s.ctxLen c)) &&
      (s.slot c).below w (s.memRead rb (s.ctxLen c))
  | .mul c _ ra rb => (s.slot c).conforming w && (s.slot c).below w (s.memRead ra (s.ctxLen c)) &&
      (s.slot c).below w (s.memRead rb (s.ctxLen c))
  | .sqr c _ ra => (s.slot c).conforming w && (s.slot c).below w (s.memRead ra (s.ctxLen c))
  | .expct c _ ra rb bbits =>
      (s.slot c).exponentOk w (s.memRead ra (s.ctxLen c)) (s.memRead rb (bLen w bbits)) bbits
  | .expvt c _ ra rb bbits =>
      (s.slot c).exponentOk w (s.memRead ra (s.ctxLen c)) (s.memRead rb (bLen w bbits)) bbits
  | .inv c _ ra => (s.slot c).conforming w && (s.slot c).below w (s.memRead ra (s.ctxLen c))

/-- The slot a command names in its `CTX` field, if its format uses it (R83). -/
def slotNamed : Instr → Option Nat
  | .chkmod _ _ => none
  | .init c _ _ => some c
  | .free c => some c
  | .getlen c => some c
  | .tofield c _ _ => some c
  | .fromfield c _ _ => some c
  | .one c _ => some c
  | .add c _ _ _ => some c
  | .sub c _ _ _ => some c
  | .mul c _ _ _ => some c
  | .sqr c _ _ => some c
  | .expct c _ _ _ _ => some c
  | .expvt c _ _ _ _ => some c
  | .inv c _ _ => some c

/-- How a command touches its context slot: the column "context access" of R68. -/
inductive ContextAccess
  | none
  | reads (c : Nat)
  | writes (c : Nat)
  deriving DecidableEq, Repr

/-- The context access of a command (R68). -/
def contextAccess : Instr → ContextAccess
  | .chkmod _ _ => .none
  | .init c _ _ => .writes c
  | .free c => .writes c
  | .getlen c => .reads c
  | .tofield c _ _ => .reads c
  | .fromfield c _ _ => .reads c
  | .one c _ => .reads c
  | .add c _ _ _ => .reads c
  | .sub c _ _ _ => .reads c
  | .mul c _ _ _ => .reads c
  | .sqr c _ _ => .reads c
  | .expct c _ _ _ _ => .reads c
  | .expvt c _ _ _ _ => .reads c
  | .inv c _ _ => .reads c

/-- Everything a command can read: its source limbs and the slot it names (R68). -/
def readableBy (i : Instr) (s : State) : List (List Nat) :=
  let sources := (footprint i s).sources.map fun b => s.memRead b.base b.len
  match slotNamed i with
  | none => sources
  | some c => (s.slot c).readable sources

end Sys2Proof.Machine
end

