-- ==== Sys2Proof/Machine/Leakage.lean ====
section
/-! DEFINITION. The leakage model (R275 to R278): `leak` gives the observable trace of a command, "the sequence of
limb-memory and scratch addresses it touches, and the sequence of internal operations it performs". Every procedure whose
control flow could depend on data is written again with its trace beside its value; the values are those of the meanings
(`Laws/Leakage.lean`). Durations are no value of the model (P6; log 17). Granularity: log 12. -/

namespace Sys2Proof.Machine

/-- One observable event of a command's execution (R275). `k` is the limb count of the operation. -/
inductive TraceEvent
  /-- the command faults at admission; that depends on fields and slot state only (R277) -/
  | admissionFault (f : FaultCode)
  | limbRead (a : Nat)
  | limbWrite (a : Nat)
  /-- slot `c` is read (R68) -/
  | slotRead (c : Nat)
  /-- slot `c` is written (R68) -/
  | slotWrite (c : Nat)
  | bnAdd (k : Nat)
  | bnSub (k : Nat)
  /-- a mask is made from a carry or a borrow (R119, R122, R123) -/
  | maskOfBit
  /-- a mask is made from comparing table index `i` with the window's value (R119, R196) -/
  | eqMask (i : Nat)
  | maskSelect (k : Nat)
  | cswap (k : Nat)
  | montReduce (k : Nat)
  | montMul (k : Nat)
  | montSqr (k : Nat)
  /-- a branch and the way it goes: keyed on an exponent bit (R193), or on the splice test of a window's position (R130) -/
  | branch (taken : Bool)
  /-- limb `i` of the exponent in scratch, its copy (R190) or the value `n - 2` of `INV` (R221), is read -/
  | exponentRead (i : Nat)
  /-- bit `i` of the exponent is extracted (R129) -/
  | getBit (i : Nat)
  /-- the `l` bits of the exponent from bit `p` on are extracted (R130) -/
  | getWindow (p l : Nat)
  /-- entry `i` of the scratch table is written (R194) -/
  | tableWrite (i : Nat)
  /-- entry `i` of the scratch table is read (R196, R197) -/
  | tableRead (i : Nat)
  /-- the trace may depend on all of this: no data-independence claim is made (R277) -/
  | anyOf (readable : List (List Nat))
  /-- the trace of a command whose value precondition fails is not promised (R276) -/
  | unspecified (code : List Nat)
  deriving DecidableEq, Repr

/-- A value with the trace of its computation. -/
abbrev Traced := List Nat × List TraceEvent

/-- `mont_mul` and its trace: every loop bound depends on `len` only (R124). -/
def montMulT (w : Nat) (n : List Nat) (mu : Nat) (a b : List Nat) : Traced :=
  (montMul w n mu a b, [.montMul n.length])

/-- `mont_sqr` and its trace (R126). -/
def montSqrT (w : Nat) (n : List Nat) (mu : Nat) (a : List Nat) : Traced :=
  (montSqr w n mu a, [.montSqr n.length])

/-- The trace of `get_bit(b, i)`: one limb of the exponent is read (R129). -/
def getBitTrace (w i : Nat) : List TraceEvent := [.getBit i, .exponentRead (i / w)]

/-- The trace of `get_window(b, bLen, p, l)`: one limb of the exponent, or two when the window straddles them; the test looks at
the position only (R130). -/
def getWindowTrace (w bLen p l : Nat) : List TraceEvent :=
  [.getWindow p l, .exponentRead (p / w)] ++
    if p % w + l > w ∧ p / w + 1 < bLen then [.branch true, .exponentRead (p / w + 1)] else [.branch false]

/-- The ladder of R192 with its trace. -/
def ladderLoopT (w : Nat) (n : List Nat) (mu : Nat) (b : List Nat) : Nat → List Nat → List Nat → Nat → Traced
  | 0, r0, r1, prev => ((cswap w prev r0 r1).1, [.cswap n.length])
  | i + 1, r0, r1, prev =>
    let p := cswap w (getBit w b i ^^^ prev) r0 r1
    let m := montMulT w n mu p.1 p.2
    let q := montSqrT w n mu p.1
    let rest := ladderLoopT w n mu b i q.1 m.1 (getBit w b i)
    (rest.1, getBitTrace w i ++ .cswap n.length :: (m.2 ++ q.2 ++ rest.2))

/-- The variable-time bit-serial loop of R193 with its trace. -/
def bitSerialLoopT (w : Nat) (n : List Nat) (mu : Nat) (b : List Nat) : Nat → Nat → List Nat → List Nat → Traced
  | 0, _, acc, _ => (acc, [])
  | k + 1, i, acc, base =>
    let m : Traced :=
      if getBit w b i = 1 then
        let m := montMulT w n mu acc base
        (m.1, .branch true :: m.2)
      else (acc, [.branch false])
    let q := montSqrT w n mu base
    let rest := bitSerialLoopT w n mu b k (i + 1) m.1 q.1
    (rest.1, getBitTrace w i ++ m.2 ++ q.2 ++ rest.2)

/-- The trace of building `k` table entries from index `i` on (R194): the same for every exponent. -/
def tableTrace (n : List Nat) : Nat → Nat → List TraceEvent
  | _, 0 => []
  | i, k + 1 => .montMul n.length :: .tableWrite i :: tableTrace n (i + 1) k

/-- The scan of R196 with its trace. -/
def scanTableT (w v k : Nat) : Nat → List (List Nat) → List Nat → Traced
  | _, [], s => (s, [])
  | i, e :: es, s =>
    let rest := scanTableT w v k (i + 1) es (maskSelect w (eqMask w i v) e s)
    (rest.1, .eqMask i :: .tableRead i :: .maskSelect k :: rest.2)

/-- `select_ct` with its trace: all entries, always (R196). -/
def selectCtT (w k : Nat) (table : List (List Nat)) (v : Nat) : Traced :=
  let r := scanTableT w v k 1 table.tail (table.headD [])
  (r.1, .tableRead 0 :: r.2)

/-- `select_vt` with its trace: "the address itself depends on secret exponent bits" (R197). -/
def selectVtT (w _k : Nat) (table : List (List Nat)) (v : Nat) : Traced := (selectVt w table v, [.tableRead v])

/-- `l` squarings with their trace. -/
def montSqrTimesT (w : Nat) (n : List Nat) (mu : Nat) : Nat → List Nat → Traced
  | 0, acc => (acc, [])
  | l + 1, acc =>
    let q := montSqrT w n mu acc
    let rest := montSqrTimesT w n mu l q.1
    (rest.1, q.2 ++ rest.2)

/-- One window of R195 with its trace. -/
def windowTurnT (w : Nat) (n : List Nat) (mu : Nat) (select : Nat → Nat → List (List Nat) → Nat → Traced)
    (table : List (List Nat)) (b : List Nat) (p l : Nat) (acc : List Nat) : Traced :=
  let q := montSqrTimesT w n mu l acc
  let e := select w n.length table (getWindow w b p l)
  let m := montMulT w n mu q.1 e.1
  (m.1, q.2 ++ getWindowTrace w b.length p l ++ e.2 ++ m.2)

/-- The full windows of R195 with their trace. -/
def windowLoopT (w : Nat) (n : List Nat) (mu : Nat) (select : Nat → Nat → List (List Nat) → Nat → Traced)
    (table : List (List Nat)) (b : List Nat) (r : Nat) : Nat → List Nat → Traced
  | 0, acc => (acc, [])
  | k + 1, acc =>
    let t := windowTurnT w n mu select table b (r + windowBits * k) windowBits acc
    let rest := windowLoopT w n mu select table b r k t.1
    (rest.1, t.2 ++ rest.2)

/-- The large-exponent path (R195) with its trace. -/
def expWindowT (w : Nat) (n : List Nat) (mu : Nat) (select : Nat → Nat → List (List Nat) → Nat → Traced)
    (oneM a b : List Nat) (bbits : Nat) : Traced :=
  let table := powerTable w n mu oneM a
  let built : List TraceEvent := .tableWrite 0 :: .tableWrite 1 :: tableTrace n 2 (tableSize - 2)
  let r := bbits % windowBits
  let full := windowLoopT w n mu select table b r (bbits / windowBits) oneM
  if r > 0 then
    let last := windowTurnT w n mu select table b 0 r full.1
    (last.1, built ++ full.2 ++ last.2)
  else (full.1, built ++ full.2)

/-- The computation of `EXPCT` with its trace (R198); the dispatch on `BBITS` is public (R278). -/
def expCtT (w : Nat) (n : List Nat) (mu : Nat) (oneM a b : List Nat) (bbits : Nat) : Traced :=
  if bbits < expSmallLimit then ladderLoopT w n mu b bbits oneM a 0
  else expWindowT w n mu selectCtT oneM a b bbits

/-- The computation of `EXPVT` with its trace (R199). -/
def expVtT (w : Nat) (n : List Nat) (mu : Nat) (oneM a b : List Nat) (bbits : Nat) : Traced :=
  if bbits < expSmallLimit then bitSerialLoopT w n mu b bbits 0 oneM a
  else expWindowT w n mu selectVtT oneM a b bbits

/-- The limbs of a buffer read in order. -/
def readEvents (b : Buffer) : List TraceEvent := (List.range b.len).map fun j => .limbRead (b.base + j)

/-- The limbs of a buffer written in order. -/
def writeEvents (b : Buffer) : List TraceEvent := (List.range b.len).map fun j => .limbWrite (b.base + j)

/-- The event of reading the context slot, for a command that reads one (R68). -/
def ContextAccess.readEvents : ContextAccess → List TraceEvent
  | .none => []
  | .reads c => [.slotRead c]
  | .writes _ => []

/-- The event of writing the context slot, for a command that writes one (R68). -/
def ContextAccess.writeEvents : ContextAccess → List TraceEvent
  | .none => []
  | .reads _ => []
  | .writes c => [.slotWrite c]

/-- What a command touches around its internal operations: the sources and the slot it reads first, the slot it writes and the
destination last (R57, R68). -/
def around (p : Footprint) (x : ContextAccess) (operations : List TraceEvent) : List TraceEvent :=
  p.sources.flatMap readEvents ++ x.readEvents ++ operations ++ x.writeEvents ++ p.dest.toList.flatMap writeEvents

/-- The internal operations of an admitted command whose value preconditions hold. The variable-time commands and `CHKMOD`,
`INIT`, `GETLEN`, "without a claim", may depend on anything they can read (R277): `anyOf` says so. `FREE` "depends on nothing
but `c`" (R145): it has no operation but writing its slot. -/
def operations (i : Instr) (s : State) : List TraceEvent :=
  let w := s.cfg.w
  match i with
  | .chkmod _ _ => [.anyOf (readableBy i s)]
  | .init _ _ _ => [.anyOf (readableBy i s)]
  | .free _ => []
  | .getlen _ => [.anyOf (readableBy i s)]
  | .tofield c _ ra =>
    let t := s.slot c
    (montMulT w t.modulus t.mu (s.memRead ra t.len) t.radixSquared).2
  | .fromfield c _ _ => [.montReduce (s.slot c).modulus.length]
  | .one c _ => [.montReduce (s.slot c).modulus.length]
  | .add c _ _ _ =>
    let k := (s.slot c).modulus.length
    [.bnAdd k, .bnSub k, .maskOfBit, .maskSelect k]
  | .sub c _ _ _ =>
    let k := (s.slot c).modulus.length
    [.bnSub k, .bnAdd k, .maskOfBit, .maskSelect k]
  | .mul c _ ra rb =>
    let t := s.slot c
    (montMulT w t.modulus t.mu (s.memRead ra t.len) (s.memRead rb t.len)).2
  | .sqr c _ ra =>
    let t := s.slot c
    (montSqrT w t.modulus t.mu (s.memRead ra t.len)).2
  | .expct c _ ra rb bbits =>
    let t := s.slot c
    .montReduce t.modulus.length ::
      (expCtT w t.modulus t.mu (t.montOne w) (s.memRead ra t.len) (s.memRead rb (bLen w bbits)) bbits).2
  | .expvt c _ ra rb bbits =>
    let t := s.slot c
    .montReduce t.modulus.length ::
      ((expVtT w t.modulus t.mu (t.montOne w) (s.memRead ra t.len) (s.memRead rb (bLen w bbits)) bbits).2 ++
        [.anyOf (readableBy i s)])
  | .inv c _ ra =>
    let t := s.slot c
    .bnSub t.modulus.length :: .montReduce t.modulus.length ::
      ((expVtT w t.modulus t.mu (t.montOne w) (s.memRead ra t.len) (nMinus2 w t.modulus) (t.len * w)).2 ++
        [.anyOf (readableBy i s)])

/-- The leakage function of R275. -/
def leak (i : Instr) (s : State) : List TraceEvent :=
  match admission i s with
  | some f => [.admissionFault f]
  | none =>
    if valuesOk i s then around (footprint i s) (contextAccess i) (operations i s)
    else [.unspecified (Config.freeTrace s.freeCount (readableBy i s))]

/-- The constant-time commands (R276). -/
def constantTime : Instr → Bool
  | .chkmod _ _ => false
  | .init _ _ _ => false
  | .free _ => false
  | .getlen _ => false
  | .tofield _ _ _ => true
  | .fromfield _ _ _ => true
  | .one _ _ => true
  | .add _ _ _ _ => true
  | .sub _ _ _ _ => true
  | .mul _ _ _ _ => true
  | .sqr _ _ _ => true
  | .expct _ _ _ _ _ => true
  | .expvt _ _ _ _ _ => false
  | .inv _ _ _ => false

/-- How many Montgomery multiplications and squarings a trace holds (the counts of R192 to R195, "relative cost" in
R274). -/
def montCount (t : List TraceEvent) : Nat :=
  t.countP fun e => match e with
    | .montMul _ => true
    | .montSqr _ => true
    | _ => false

end Sys2Proof.Machine
end

