-- ==== Sys2Proof/Safety.lean ====
section
/-! DEFINITION. What claims are stated in: the invariant of the engine's states (R28, R38, R41), a run that ended well
(R19), the public inputs of a command (R275), and what an access can see. -/

namespace Sys2Proof.Machine

/-- Every limb of a vector fits `W` bits. -/
def limbsFit (w : Nat) (x : List Nat) : Bool := x.all fun a => decide (a < 2 ^ w)

/-- Every limb of a vector is 0. -/
def allZero (x : List Nat) : Bool := x.all fun a => a == 0

/-- The constants of a conforming context (R41): `(n[0] * mu + 1) mod 2^W = 0` and `val(r2) = 2^(2*W*len) mod val(n)`. -/
def Slot.constantsRight (w : Nat) (t : Slot) : Bool :=
  decide ((limbAt t.modulus 0 * t.mu + 1) % 2 ^ w = 0 ∧
    val w t.radixSquared = 2 ^ (2 * w * t.len) % val w t.modulus)

/-- A slot of a reachable state (R26, R41): full-width vectors, zero limbs from `len` on, an invalid slot all zero, a valid
one with `1 <= len <= LEN_MAX`, and right constants whenever its modulus met `INIT`'s precondition. -/
def Slot.ok (c : Config) (t : Slot) : Bool :=
  decide (t.n.length = c.lenMax ∧ t.r2.length = c.lenMax ∧ t.mu < 2 ^ c.w) &&
  limbsFit c.w t.n && limbsFit c.w t.r2 && allZero (t.n.drop t.len) && allZero (t.r2.drop t.len) &&
  (if t.valid then
    decide (1 ≤ t.len ∧ t.len ≤ c.lenMax) && (!t.conforming c.w || t.constantsRight c.w)
  else decide (t.len = 0 ∧ t.mu = 0))

/-- `BUSY, DONE, FAULT` is one of 000, 100, 010, 001 (R28, R263). -/
def State.statusLegal (s : State) : Bool :=
  !(s.busy && s.done) && !(s.busy && s.fault) && !(s.done && s.fault)

/-- `FAULTCODE` and `FAULTINFO` are 0 while `FAULT = 0`; a recorded code is one of `0x01 .. 0x07` (R30, R31, R231). -/
def State.faultRecordLegal (s : State) : Bool :=
  if s.fault then decide (1 ≤ s.faultCode.toNat ∧ s.faultCode.toNat ≤ 7)
  else decide (s.faultCode = 0 ∧ s.faultInfo = 0)

/-- The invariant every step keeps: legal parameters (R9), canonical memory inside `MEM_LIMBS` limbs (R35; log 8), `NCTX`
slots each as R41 says, legal flags (R28), a legal fault record (R30, R31), and `LC` equal to the `CMD` registers while it
is meaningful (R38). -/
abbrev State.Inv (s : State) : Prop :=
  s.cfg.legal = true ∧
  s.mem.wf = true ∧
  s.mem.within s.windowBytes = true ∧
  s.slots.length = s.cfg.nctx ∧
  (s.slots.all fun t => t.ok s.cfg) = true ∧
  s.statusLegal = true ∧
  s.faultRecordLegal = true ∧
  (s.busy = true → s.lc = s.command)

/-- A run that ended (R19, R279): the host has no move left, its last command among them, and no command is in flight. -/
abbrev State.ended (s : State) : Prop := s.inputs = [] ∧ s.busy = false

/-- A run that ended well (R19): it ended, with `STATUS.FAULT = 0`. -/
abbrev State.endedWell (s : State) : Prop := s.ended ∧ s.fault = false

/-- Slot `c` exists and is valid: checks 2 and 3 of R239 pass. -/
abbrev State.accepts (s : State) (c : Nat) : Prop := c < s.cfg.nctx ∧ (s.slot c).valid = true

/-- The engine completes at the next step: a command is in flight and no move of the host comes before the engine's. -/
abbrev State.completesNext (s : State) : Prop :=
  s.busy = true ∧ (s.inputs = [] ∨ ∃ ms, s.inputs = .engine :: ms)

/-- The next move is a reset, hard or soft (R260): the environment's, or a write of `CTRL` with `RESET`. -/
abbrev State.resetNext (s : State) : Prop :=
  s.inputs.head? = some .hardReset ∨ ∃ v : Word32, s.inputs.head? = some (.write 0x10 .word v) ∧ v.getLsbD 1 = true

/-- Two states agree on the public inputs of a command (R275): the instance and, for the slot it names, whether it is valid
and its `len`. The opcode, `CTX`, `LEN`, the addresses and `BBITS` are the command itself. -/
abbrev publicAgree (i : Instr) (s t : State) : Prop :=
  s.cfg = t.cfg ∧ ∀ c, slotNamed i = some c → (s.slot c).valid = (t.slot c).valid ∧ (s.slot c).len = (t.slot c).len

/-- The range `[a, a+k)` lies inside limb memory (R50). -/
abbrev State.inside (s : State) (a : Nat) (k : Nat) : Prop := a + k ≤ s.cfg.memLimbs

/-- A destination `[rd, rd+len)` and a source `[src, src+k)` are disjoint or coincide exactly (R57, R264). -/
abbrev apart (rd : Nat) (len : Nat) (src : Nat) (k : Nat) : Prop :=
  rd + len ≤ src ∨ src + k ≤ rd ∨ (src = rd ∧ k = len)

/-- The operand at `a` of a command with context `c`, a number (R51, R54). -/
abbrev State.operand (s : State) (c : Nat) (a : Nat) : Nat := val s.cfg.w (s.memRead a (s.ctxLen c))

/-- `N = val(n)` of context `c` (R140). -/
abbrev State.modulusValue (s : State) (c : Nat) : Nat := val s.cfg.w (s.slot c).modulus

/-- `R = 2^(W*len)` of context `c` (R140). -/
abbrev State.radix (s : State) (c : Nat) : Nat := 2 ^ (s.cfg.w * s.ctxLen c)

/-- The exponent at `rb`, `bLen` limbs (R67). -/
abbrev State.exponent (s : State) (rb : Nat) (bbits : Nat) : Nat :=
  val s.cfg.w (s.memRead rb (bLen s.cfg.w bbits))

/-- `INIT`'s value precondition held for context `c`: its modulus is odd and above 1 (R142, R248 row 1). -/
abbrev State.oddModulus (s : State) (c : Nat) : Prop := s.modulusValue c % 2 = 1 ∧ 1 < s.modulusValue c

/-- A format U command passes every admission check (R160, `43_field_arith.md` "Common admission", R220). -/
abbrev State.takesU (s : State) (c : Nat) (rd ra : Nat) : Prop :=
  s.accepts c ∧ s.inside rd (s.ctxLen c) ∧ s.inside ra (s.ctxLen c) ∧ apart rd (s.ctxLen c) ra (s.ctxLen c)

/-- A format B command passes every admission check (`43_field_arith.md` "Common admission"). -/
abbrev State.takesB (s : State) (c : Nat) (rd ra rb : Nat) : Prop :=
  s.takesU c rd ra ∧ s.inside rb (s.ctxLen c) ∧ apart rd (s.ctxLen c) rb (s.ctxLen c)

/-- A format E command passes every admission check (R190). -/
abbrev State.takesE (s : State) (c : Nat) (rd ra rb : Nat) (bbits : Nat) : Prop :=
  s.takesU c rd ra ∧ s.inside rb (bLen s.cfg.w bbits) ∧ apart rd (s.ctxLen c) rb (bLen s.cfg.w bbits)

/-- Two ranges share no limb. -/
abbrev disjoint (a : Nat) (k : Nat) (b : Nat) (l : Nat) : Prop := a + k ≤ b ∨ b + l ≤ a

/-- The state a list of commands leaves, one completed after another, if each answers a next state. -/
def execAll : List Instr → State → Option State
  | [], s => some s
  | i :: is, s =>
    match exec i s with
    | .next t => execAll is t
    | .fault _ => none
    | .refused _ => none

/-- Every byte of limb memory outside the limbs `[rd, rd + len)` reads as before. -/
abbrev bytesKeptOutside (s t : State) (rd : Nat) (len : Nat) : Prop :=
  ∀ a, a < rd * s.cfg.width.bytes ∨ (rd + len) * s.cfg.width.bytes ≤ a → t.mem.getByte a = s.mem.getByte a

/-- The command completed (R140) and changed nothing but limb memory in `[rd, rd + len)` and the model's own count of free
values: the "Writes" line of a field command. -/
abbrev wroteOnly (s t : State) (rd : Nat) (len : Nat) : Prop :=
  t = { s with mem := t.mem, busy := false, done := true, freeCount := t.freeCount } ∧ bytesKeptOutside s t rd len

/-- The state of trap entry with the given code (R240), field by field. -/
abbrev State.trapped (s : State) (code : Byte) : State :=
  { s with busy := false, fault := true, faultCode := code, faultInfo := s.lc.extractLsb' 0 32 }

end Sys2Proof.Machine
end

