-- ==== Sys2Proof/Certificates/Slice0/Obligations.lean ====
section
/-! DEFINITION. The statements for the provers. Each docstring names the rules it formalises. `s.Inv` is the invariant of
`Safety.lean`; `EveryStepKeepsTheInvariant` and `ResetMeetsTheInvariant` say that it holds of every state a run reaches. A
statement about a host access is made at `step`, with the access at the head of the moves still to come. Nothing rests on the
value of a free limb or of `freeCount` (logs 5, 6). -/

section
open Sys2Proof Sys2Proof.Machine

/-! ## Encoding -/

/-- Decode of encode is the identity on every well-formed command, every operand at every value its field admits (R81, R83,
R89, R92). -/
def Obligations.DecodeInvertsEncode : Prop := ∀ i : Instr, i.wellFormed = true → decode (encode i) = .ok i

/-- Every word the decoder accepts is the encoding of the well-formed command it gives: no two words of the `2^128` decode to
the same command (R86, R92). -/
def Obligations.EveryLegalWordIsTheEncodingOfItsCommand : Prop :=
  ∀ (c : Command) (i : Instr), decode c = .ok i → i.wellFormed = true ∧ encode i = c

/-- A command is legal iff exactly one row of `opcode_table.json` matches it; the row that matches is its opcode's; never two
match (R91, R92). -/
def Obligations.LegalCommandsAreTheTableRows : Prop :=
  ∀ c : Command,
    ((∃ i, decode c = .ok i) ↔ (opcodeTable.filter fun r => r.selects c).length = 1) ∧
    (∀ r ∈ opcodeTable, r.selects c = true → ∃ i, decode c = .ok i ∧ i.opcode = r.opcode) ∧
    (opcodeTable.filter fun r => r.selects c).length ≤ 1

/-- Each field of a command stands at the bits of the table of R81, and the four words are those of R89. -/
def Obligations.FieldsStandAtTheirBits : Prop :=
  ∀ i : Instr, i.wellFormed = true →
    ((encode i).extractLsb' 24 8).toNat = i.opcode.code ∧ (encode i).extractLsb' 20 4 = 0 ∧
    ((encode i).extractLsb' 16 4).toNat = i.operands.ctx ∧ ((encode i).extractLsb' 0 16).toNat = i.operands.len ∧
    ((encode i).extractLsb' 48 16).toNat = i.operands.rd ∧ ((encode i).extractLsb' 32 16).toNat = i.operands.ra ∧
    ((encode i).extractLsb' 80 16).toNat = i.operands.rb ∧ (encode i).extractLsb' 64 16 = 0 ∧
    ((encode i).extractLsb' 96 32).toNat = i.operands.bbits ∧
    (encode i).extractLsb' 0 32 = i.cw0 ∧ (encode i).extractLsb' 32 32 = i.cw1 ∧
    (encode i).extractLsb' 64 32 = i.cw2 ∧ (encode i).extractLsb' 96 32 = i.cw3

/-- An illegal command raises `ILLEGAL_CMD` (code 1) and does nothing else: every reserved opcode, every legal opcode with a
nonzero must-be-zero field, the all-zero command (R86, R232). -/
def Obligations.IllegalCommandTrapsAndDoesNothingElse : Prop :=
  ∀ s : State, s.completesNext →
    ((s.lc.extractLsb' 24 8).toNat ∉ [0x01, 0x02, 0x03, 0x04, 0x10, 0x11, 0x12, 0x20, 0x21, 0x22, 0x23, 0x30, 0x31, 0x32] →
      step s = .next ((s.withInputs s.inputs.tail).trapped 0x01)) ∧
    (∀ (o : Opcode) (f : Field), (s.lc.extractLsb' 24 8).toNat = o.code → f ∈ o.format.mustBeZero → f.get s.lc ≠ 0 →
      step s = .next ((s.withInputs s.inputs.tail).trapped 0x01)) ∧
    (s.lc = 0 → step s = .next ((s.withInputs s.inputs.tail).trapped 0x01))

/-- Some words of `95_test_vectors.md` V7.1 to V7.16 and V7.20 to V7.31, written out from the spec, decode as listed
there. -/
def Obligations.WordsOfTheSpecDecode : Prop :=
  decode (Command.ofWords 0x01000004 0x00000010 0 0) = .ok (.chkmod 0x10 4) ∧
  decode (Command.ofWords 0x02010004 0x00000010 0 0) = .ok (.init 1 0x10 4) ∧
  decode (Command.ofWords 0x12020000 0x00140000 0 0) = .ok (.one 2 0x14) ∧
  decode (Command.ofWords 0x11010000 0x00440040 0 0) = .ok (.fromfield 1 0x44 0x40) ∧
  decode (Command.ofWords 0x220f0000 0xfffffffe 0xfffd0000 0) = .ok (.mul 15 0xffff 0xfffe 0xfffd) ∧
  decode (Command.ofWords 0x30010000 0x00480020 0x00300000 0x000000ff) = .ok (.expct 1 0x48 0x20 0x30 255) ∧
  decode (Command.ofWords 0x20190000 0x00400040 0x00200000 0) = .error (.nonzeroField .z1)

/-! ## Steps, registers, the port -/

/-- When a command is in flight, no move of the host comes first and `LC` decodes to `i`, a step is `exec i` of the state with
the engine's move taken from the list (R82 (2), R92; the list of moves is the model's own, log 2). -/
def Obligations.StepRunsTheDecodedCommand : Prop :=
  ∀ (s : State) (i : Instr), s.completesNext → decode s.lc = .ok i → step s = exec i (s.withInputs s.inputs.tail)

/-- A write of `CTRL` (R27): `RESET` wins and resets at any time; `START` alone issues when `BUSY = 0` and `FAULT = 0`, is
ignored when `FAULT = 1`; without `RESET` it has no move while `BUSY = 1`; with both bits 0 it does nothing; bits 31:2 are
ignored; a read returns 0. That `LC` is 0 after a reset (log 7) and that the host's own fields and `freeCount` survive one
(log 15) are the model's choices, no part of the rule. -/
def Obligations.ControlRegisterActs : Prop :=
  ∀ (s : State) (v : Word32) (ms : List Move),
    (s.inputs = .write 0x10 .word v :: ms →
      (v.getLsbD 1 = true →
        step s = .next { State.resetOf s.cfg with inputs := ms, replies := s.replies, freeCount := s.freeCount }) ∧
      (v.getLsbD 1 = false → v.getLsbD 0 = true → s.busy = false → s.fault = false →
        step s = .next { s with lc := s.cmd3 ++ s.cmd2 ++ s.cmd1 ++ s.cmd0, busy := true, done := false, inputs := ms }) ∧
      (v.getLsbD 1 = false → v.getLsbD 0 = true → s.busy = false → s.fault = true →
        step s = .next { s with inputs := ms }) ∧
      (v.getLsbD 1 = false → s.busy = true → step s = .refused .portBusy) ∧
      (v.getLsbD 1 = false → v.getLsbD 0 = false → s.busy = false → step s = .next { s with inputs := ms })) ∧
    (s.inputs = .read 0x10 .word :: ms → s.busy = false →
      step s = .next { s with inputs := ms, replies := 0 :: s.replies })

/-- After a hard reset, and after a write of `CTRL` with `RESET`, in any state, every piece of the engine's state has the
value of the table of R39, and a command in flight has had no effect (R260, R261). -/
def Obligations.ResetLeavesTheResetTable : Prop :=
  ∀ (s : State) (ms : List Move),
    (s.inputs = .hardReset :: ms ∨ ∃ v : Word32, s.inputs = .write 0x10 .word v :: ms ∧ v.getLsbD 1 = true) →
    ∃ t, step s = .next t ∧ (∀ a, t.mem.getByte a = 0) ∧ t.slots.length = s.cfg.nctx ∧
      (∀ c, c < s.cfg.nctx → t.slots[c]? =
        some { valid := false, len := 0, n := List.replicate s.cfg.lenMax 0, mu := 0,
               r2 := List.replicate s.cfg.lenMax 0 }) ∧
      t.cmd0 = 0 ∧ t.cmd1 = 0 ∧ t.cmd2 = 0 ∧ t.cmd3 = 0 ∧
      t.busy = false ∧ t.done = false ∧ t.fault = false ∧ t.chk = false ∧
      t.result = 0 ∧ t.faultCode = 0 ∧ t.faultInfo = 0 ∧ t.cfg = s.cfg ∧ t.inputs = ms

/-- While `BUSY = 1` the host may only read the six registers of R62, which return their current values, and write `CTRL`
with `RESET = 1`; every other access has no next state (R62). That `LC` is 0 after the reset (log 7) and that the host's own
fields and `freeCount` survive it (log 15) are the model's choices, no part of the rule. -/
def Obligations.BusyPortAllowsOnlySixReadsAndReset : Prop :=
  ∀ (s : State) (ms : List Move), s.busy = true →
    (s.inputs = .read 0x14 .word :: ms →
      step s = .next { s with inputs := ms, replies := s.statusWord :: s.replies }) ∧
    (s.inputs = .read 0x1C .word :: ms →
      step s = .next { s with inputs := ms, replies := s.faultCode.setWidth 32 :: s.replies }) ∧
    (s.inputs = .read 0x20 .word :: ms →
      step s = .next { s with inputs := ms, replies := s.faultInfo :: s.replies }) ∧
    (s.inputs = .read 0x24 .word :: ms →
      step s = .next { s with inputs := ms, replies := s.ctxValidWord :: s.replies }) ∧
    (s.inputs = .read 0x28 .word :: ms →
      step s = .next { s with inputs := ms, replies := s.configWord :: s.replies }) ∧
    (s.inputs = .read 0x2C .word :: ms →
      step s = .next { s with inputs := ms, replies := s.memSizeWord :: s.replies }) ∧
    (∀ v : Word32, s.inputs = .write 0x10 .word v :: ms → v.getLsbD 1 = true →
      step s = .next { State.resetOf s.cfg with inputs := ms, replies := s.replies, freeCount := s.freeCount }) ∧
    (∀ (o : BitVec 20) (wd : AccessWidth) (t : State), s.inputs = .read o wd :: ms →
      ¬(wd = .word ∧ (o = 0x14 ∨ o = 0x1C ∨ o = 0x20 ∨ o = 0x24 ∨ o = 0x28 ∨ o = 0x2C)) → step s ≠ .next t) ∧
    (∀ (o : BitVec 20) (wd : AccessWidth) (v : Word32) (t : State), s.inputs = .write o wd v :: ms →
      ¬(wd = .word ∧ o = 0x10 ∧ v.getLsbD 1 = true) → step s ≠ .next t)

/-- A refused access has no move: a width other than 32 bits, a misaligned offset, a reserved register offset, a window
offset at or beyond the end of limb memory, and every access R62 does not allow while `BUSY = 1` (R42, R63). -/
def Obligations.RefusedAccessHasNoMove : Prop :=
  (∀ (s t : State) (ms : List Move) (o : BitVec 20) (wd : AccessWidth),
    (s.inputs = .read o wd :: ms ∨ ∃ v : Word32, s.inputs = .write o wd v :: ms) →
    (wd ≠ .word ∨ o.toNat % 4 ≠ 0 ∨ (0x30 ≤ o.toNat ∧ o.toNat < 0x80000) ∨
      0x80000 + s.cfg.memLimbs * s.cfg.width.bytes ≤ o.toNat) →
    step s ≠ .next t) ∧
  (∀ (s t : State) (ms : List Move) (o : BitVec 20) (wd : AccessWidth), s.busy = true →
    (s.inputs = .read o wd :: ms ∧ o ∉ [0x14, 0x1C, 0x20, 0x24, 0x28, 0x2C]) ∨
      (∃ v : Word32, s.inputs = .write o wd v :: ms ∧ ¬(o = 0x10 ∧ v.getLsbD 1 = true)) →
    step s ≠ .next t)

/-- `CONFIG` reads `W`, `NCTX`, `LEN_MAX` and `MEMSIZE` reads `MEM_LIMBS`, whatever the engine is doing; the reads change
nothing, a write is ignored, and no step changes the instance (R33, R34). -/
def Obligations.ConfigAndMemsizeReadTheInstance : Prop :=
  (∀ (s : State) (ms : List Move), s.cfg.legal = true →
    (s.inputs = .read 0x28 .word :: ms →
      ∃ v : Word32, step s = .next { s with inputs := ms, replies := v :: s.replies } ∧
        (v.extractLsb' 0 8).toNat = s.cfg.w ∧ (v.extractLsb' 8 8).toNat = s.cfg.nctx ∧
        (v.extractLsb' 16 16).toNat = s.cfg.lenMax) ∧
    (s.inputs = .read 0x2C .word :: ms →
      ∃ v : Word32, step s = .next { s with inputs := ms, replies := v :: s.replies } ∧
        (v.extractLsb' 0 17).toNat = s.cfg.memLimbs ∧ v.extractLsb' 17 15 = 0)) ∧
  (∀ (s : State) (ms : List Move) (v : Word32), s.busy = false →
    (s.inputs = .write 0x28 .word v :: ms ∨ s.inputs = .write 0x2C .word v :: ms) → step s = .next { s with inputs := ms }) ∧
  (∀ s t : State, step s = .next t → t.cfg = s.cfg)

/-- `CTXVALID` reads bit `c` as `CTX[c].valid` and bits `31:NCTX` as 0; a write is ignored (R32). -/
def Obligations.CtxvalidIsAViewOfTheValidBits : Prop :=
  ∀ (s : State) (ms : List Move), s.Inv →
    (s.inputs = .read 0x24 .word :: ms →
      ∃ v : Word32, step s = .next { s with inputs := ms, replies := v :: s.replies } ∧
        ∀ c, v.getLsbD c = (decide (c < s.cfg.nctx) && (s.slot c).valid)) ∧
    (∀ v : Word32, s.busy = false → s.inputs = .write 0x24 .word v :: ms → step s = .next { s with inputs := ms })

/-- `STATUS` reads bit 0 `BUSY`, bit 1 `DONE`, bit 2 `FAULT`, bit 3 `CHK`, bits 31:4 zero, without side effect; a write is
ignored; `BUSY, DONE, FAULT` is 000, 100, 010 or 001 (R28). -/
def Obligations.StatusReadsTheFourFlags : Prop :=
  ∀ (s : State) (ms : List Move), s.Inv →
    (s.inputs = .read 0x14 .word :: ms →
      ∃ v : Word32, step s = .next { s with inputs := ms, replies := v :: s.replies } ∧
        v.getLsbD 0 = s.busy ∧ v.getLsbD 1 = s.done ∧ v.getLsbD 2 = s.fault ∧ v.getLsbD 3 = s.chk ∧
        v.extractLsb' 4 28 = 0) ∧
    (∀ v : Word32, s.busy = false → s.inputs = .write 0x14 .word v :: ms → step s = .next { s with inputs := ms }) ∧
    (s.busy, s.done, s.fault) ∈ [(false, false, false), (true, false, false), (false, true, false), (false, false, true)]

/-- `FAULTCODE` reads the code in bits 7:0 and 0 above, `FAULTINFO` the recorded word; both read 0 while `FAULT = 0` and the
code is one of 1 to 7 otherwise (R30, R31, R231). -/
def Obligations.FaultRegistersReadTheRecord : Prop :=
  ∀ (s : State) (ms : List Move), s.Inv →
    (s.inputs = .read 0x1C .word :: ms →
      ∃ v : Word32, step s = .next { s with inputs := ms, replies := v :: s.replies } ∧
        v.extractLsb' 0 8 = s.faultCode ∧ v.extractLsb' 8 24 = 0 ∧ (s.fault = false → v = 0) ∧
        (s.fault = true → 1 ≤ v.toNat ∧ v.toNat ≤ 7)) ∧
    (s.inputs = .read 0x20 .word :: ms →
      ∃ v : Word32, step s = .next { s with inputs := ms, replies := v :: s.replies } ∧
        v = s.faultInfo ∧ (s.fault = false → v = 0))

/-- The command registers (R25) and register writes while idle (R59): a write of `CMDj` stores all 32 bits there and nowhere
else, a read returns what is stored; `CTRL` acts as R27 says; a read-only register ignores the write; neither a read nor a
write of a `CMD` register has a move while busy; START latches `CMD3 || CMD2 || CMD1 || CMD0` and keeps them; the engine's turn
never writes them; reset leaves 0. -/
def Obligations.CommandRegistersHoldWhatTheHostWrote : Prop :=
  (∀ (s : State) (ms : List Move) (v : Word32), s.busy = false →
    (s.inputs = .write 0x00 .word v :: ms → step s = .next { s with inputs := ms, cmd0 := v }) ∧
    (s.inputs = .write 0x04 .word v :: ms → step s = .next { s with inputs := ms, cmd1 := v }) ∧
    (s.inputs = .write 0x08 .word v :: ms → step s = .next { s with inputs := ms, cmd2 := v }) ∧
    (s.inputs = .write 0x0C .word v :: ms → step s = .next { s with inputs := ms, cmd3 := v }) ∧
    (s.inputs = .write 0x10 .word v :: ms → step s = .next ((s.withInputs ms).writeCtrl v)) ∧
    (∀ o : BitVec 20, o ∈ [0x14, 0x18, 0x1C, 0x20, 0x24, 0x28, 0x2C] → s.inputs = .write o .word v :: ms →
      step s = .next { s with inputs := ms })) ∧
  (∀ (s : State) (ms : List Move), s.busy = false →
    (s.inputs = .read 0x00 .word :: ms → step s = .next { s with inputs := ms, replies := s.cmd0 :: s.replies }) ∧
    (s.inputs = .read 0x04 .word :: ms → step s = .next { s with inputs := ms, replies := s.cmd1 :: s.replies }) ∧
    (s.inputs = .read 0x08 .word :: ms → step s = .next { s with inputs := ms, replies := s.cmd2 :: s.replies }) ∧
    (s.inputs = .read 0x0C .word :: ms → step s = .next { s with inputs := ms, replies := s.cmd3 :: s.replies })) ∧
  (∀ (s : State) (ms : List Move) (v : Word32) (o : BitVec 20), s.busy = true → o ∈ [0x00, 0x04, 0x08, 0x0C] →
    s.inputs = .write o .word v :: ms ∨ s.inputs = .read o .word :: ms → step s = .refused .portBusy) ∧
  (∀ (s : State) (ms : List Move) (v : Word32), s.busy = false → s.fault = false → v.getLsbD 1 = false → v.getLsbD 0 = true →
    s.inputs = .write 0x10 .word v :: ms →
    ∃ t, step s = .next t ∧ t.lc = s.cmd3 ++ s.cmd2 ++ s.cmd1 ++ s.cmd0 ∧
      t.cmd0 = s.cmd0 ∧ t.cmd1 = s.cmd1 ∧ t.cmd2 = s.cmd2 ∧ t.cmd3 = s.cmd3) ∧
  (∀ s t : State, s.inputs = [] ∨ s.inputs.head? = some .engine → step s = .next t →
    t.cmd0 = s.cmd0 ∧ t.cmd1 = s.cmd1 ∧ t.cmd2 = s.cmd2 ∧ t.cmd3 = s.cmd3) ∧
  (∀ c : Config, (State.resetOf c).cmd0 = 0 ∧ (State.resetOf c).cmd1 = 0 ∧ (State.resetOf c).cmd2 = 0 ∧
    (State.resetOf c).cmd3 = 0)

/-- A write of word `q` of the limb window (R61): for `W = 32` limb `q` takes the value; for `W = 64` the low (`q` even) or
high (`q` odd) half of limb `q div 2` takes it and the other half keeps its bits; every other limb and all other state is
unchanged. -/
def Obligations.WindowWriteReplacesOneWord : Prop :=
  ∀ (s : State) (ms : List Move) (o : BitVec 20) (v : Word32) (q : Nat), s.Inv → s.busy = false →
    s.inputs = .write o .word v :: ms → o.toNat = 0x80000 + 4 * q → q < s.cfg.memLimbs * (s.cfg.w / 32) →
    ∃ t, step s = .next t ∧ t = { s with inputs := ms, mem := t.mem } ∧
      (s.cfg.width = .w32 → t.mem.limb .w32 q = v.toNat ∧ ∀ a, a ≠ q → t.mem.limb .w32 a = s.mem.limb .w32 a) ∧
      (s.cfg.width = .w64 →
        (q % 2 = 0 → t.mem.limb .w64 (q / 2) = s.mem.limb .w64 (q / 2) / 2 ^ 32 * 2 ^ 32 + v.toNat) ∧
        (q % 2 = 1 → t.mem.limb .w64 (q / 2) = v.toNat * 2 ^ 32 + s.mem.limb .w64 (q / 2) % 2 ^ 32) ∧
        ∀ a, a ≠ q / 2 → t.mem.limb .w64 a = s.mem.limb .w64 a)

/-- A read of word `q` of the limb window (R60) returns limb `q` for `W = 32`, and the low or high half of limb `q div 2` for
`W = 64`; no other state changes. Byte `j` of a limb holds its bits `8j+7 : 8j` (R52). -/
def Obligations.WindowReadReturnsTheWordOfTheLimb : Prop :=
  (∀ (s : State) (ms : List Move) (o : BitVec 20) (q : Nat), s.busy = false → s.inputs = .read o .word :: ms →
    o.toNat = 0x80000 + 4 * q → q < s.cfg.memLimbs * (s.cfg.w / 32) →
    ∃ v : Word32, step s = .next { s with inputs := ms, replies := v :: s.replies } ∧
      (s.cfg.width = .w32 → v.toNat = s.mem.limb .w32 q) ∧
      (s.cfg.width = .w64 →
        (q % 2 = 0 → v.toNat = s.mem.limb .w64 (q / 2) % 2 ^ 32) ∧
        (q % 2 = 1 → v.toNat = s.mem.limb .w64 (q / 2) / 2 ^ 32))) ∧
  (∀ (m : Memory) (wd : LimbWidth) (a j : Nat), j < wd.bytes →
    (m.getByte (a * wd.bytes + j)).toNat = m.limb wd a / 256 ^ j % 256)

/-! ## Command faults -/

/-- `CTX_RANGE` (R233): every command but `CHKMOD` when `CTX >= NCTX`; with `NCTX = 16` it cannot occur. -/
def Obligations.SlotNumberOutOfRangeTraps : Prop :=
  (∀ (i : Instr) (s : State) (c : Nat), slotNamed i = some c → s.cfg.nctx ≤ c → exec i s = .next (s.trapped 0x02)) ∧
  (∀ (i : Instr) (s : State), i.wellFormed = true → s.cfg.nctx = 16 → s.fault = false →
    exec i s ≠ .next (s.trapped 0x02))

/-- `CTX_INVALID` (R234): every command but `CHKMOD` and `INIT` when the slot exists and is invalid. -/
def Obligations.InvalidSlotTraps : Prop :=
  ∀ (i : Instr) (s : State) (c : Nat), slotNamed i = some c → (∀ ra len, i ≠ .init c ra len) → c < s.cfg.nctx →
    (s.slot c).valid = false → exec i s = .next (s.trapped 0x03)

/-- `CTX_INUSE` (R235): `INIT` of a slot that exists and is valid. -/
def Obligations.InitOfAValidSlotTraps : Prop :=
  ∀ (s : State) (c : Nat) (ra : Nat) (len : Nat), c < s.cfg.nctx → (s.slot c).valid = true →
    exec (.init c ra len) s = .next (s.trapped 0x04)

/-- `LEN_RANGE` (R236): `CHKMOD` and `INIT` when `LEN = 0` or `LEN > LEN_MAX`, the slot checks of `INIT` having passed
(R239). -/
def Obligations.LengthOutOfRangeTraps : Prop :=
  ∀ (s : State) (c : Nat) (ra : Nat) (len : Nat), (len = 0 ∨ s.cfg.lenMax < len) →
    exec (.chkmod ra len) s = .next (s.trapped 0x05) ∧
    (c < s.cfg.nctx → (s.slot c).valid = false → exec (.init c ra len) s = .next (s.trapped 0x05))

/-- `ADDR_RANGE` (R237): any buffer of the footprint with `base + length > MEM_LIMBS`, sources and destination alike, the
earlier checks having passed (R239). -/
def Obligations.BufferOutsideMemoryTraps : Prop :=
  ∀ (s : State) (c : Nat) (rd ra rb : Nat) (len bbits : Nat),
    (1 ≤ len → len ≤ s.cfg.lenMax → ¬s.inside ra len →
      exec (.chkmod ra len) s = .next (s.trapped 0x06) ∧
      (c < s.cfg.nctx → (s.slot c).valid = false → exec (.init c ra len) s = .next (s.trapped 0x06))) ∧
    (s.accepts c →
      (¬s.inside rd (s.ctxLen c) → exec (.one c rd) s = .next (s.trapped 0x06)) ∧
      (∀ i ∈ [Instr.tofield c rd ra, .fromfield c rd ra, .sqr c rd ra, .inv c rd ra],
        ¬s.inside rd (s.ctxLen c) ∨ ¬s.inside ra (s.ctxLen c) → exec i s = .next (s.trapped 0x06)) ∧
      (∀ i ∈ [Instr.add c rd ra rb, .sub c rd ra rb, .mul c rd ra rb],
        ¬s.inside rd (s.ctxLen c) ∨ ¬s.inside ra (s.ctxLen c) ∨ ¬s.inside rb (s.ctxLen c) →
        exec i s = .next (s.trapped 0x06)) ∧
      (∀ i ∈ [Instr.expct c rd ra rb bbits, .expvt c rd ra rb bbits],
        ¬s.inside rd (s.ctxLen c) ∨ ¬s.inside ra (s.ctxLen c) ∨ ¬s.inside rb (max 1 ((bbits + s.cfg.w - 1) / s.cfg.w)) →
        exec i s = .next (s.trapped 0x06)))

/-- `OPERAND_OVERLAP` (R238): a source meets the destination without coinciding with it, every earlier check having passed
(R239); a command without both a source and a destination in limb memory cannot raise it. -/
def Obligations.PartialOverlapTraps : Prop :=
  (∀ (s : State) (c : Nat) (rd ra rb : Nat) (bbits : Nat),
    s.accepts c → s.inside rd (s.ctxLen c) → s.inside ra (s.ctxLen c) →
    (∀ i ∈ [Instr.tofield c rd ra, .fromfield c rd ra, .sqr c rd ra, .inv c rd ra],
      ¬apart rd (s.ctxLen c) ra (s.ctxLen c) → exec i s = .next (s.trapped 0x07)) ∧
    (∀ i ∈ [Instr.add c rd ra rb, .sub c rd ra rb, .mul c rd ra rb], s.inside rb (s.ctxLen c) →
      ¬apart rd (s.ctxLen c) ra (s.ctxLen c) ∨ ¬apart rd (s.ctxLen c) rb (s.ctxLen c) →
      exec i s = .next (s.trapped 0x07)) ∧
    (∀ i ∈ [Instr.expct c rd ra rb bbits, .expvt c rd ra rb bbits], s.inside rb (bLen s.cfg.w bbits) →
      ¬apart rd (s.ctxLen c) ra (s.ctxLen c) ∨ ¬apart rd (s.ctxLen c) rb (bLen s.cfg.w bbits) →
      exec i s = .next (s.trapped 0x07))) ∧
  (∀ (s : State) (c rd ra len : Nat), s.fault = false →
    ∀ i ∈ [Instr.chkmod ra len, .init c ra len, .free c, .getlen c, .one c rd], exec i s ≠ .next (s.trapped 0x07))

/-- Every command in flight finishes at the engine's one move, whatever its fields and the data (R273): `BUSY = 0` with
`DONE`, the fault record untouched, or trap entry with one of the seven codes and nothing else (R240, R241). -/
def Obligations.EveryCommandInFlightFinishes : Prop :=
  ∀ s : State, s.completesNext →
    ∃ t, step s = .next t ∧ t.busy = false ∧
      ((t.done = true ∧ t.fault = s.fault ∧ t.faultCode = s.faultCode ∧ t.faultInfo = s.faultInfo) ∨
        ∃ code ∈ [(0x01 : Byte), 0x02, 0x03, 0x04, 0x05, 0x06, 0x07], t = (s.withInputs s.inputs.tail).trapped code)

/-- The fault record lasts until reset (R242, R243), from a faulted state: a step whose move is no reset keeps `FAULT`,
`FAULTCODE` and `FAULTINFO` and issues nothing, so that no second fault can occur; a step whose move is a reset, hard or soft,
clears all three. -/
def Obligations.FaultRecordLastsUntilReset : Prop :=
  ∀ s t : State, s.Inv → s.fault = true → step s = .next t →
    (¬s.resetNext →
      t.fault = true ∧ t.faultCode = s.faultCode ∧ t.faultInfo = s.faultInfo ∧
      t.busy = false ∧ t.lc = s.lc ∧ t.slots = s.slots) ∧
    (s.resetNext → t.fault = false ∧ t.faultCode = 0 ∧ t.faultInfo = 0)

/-- The lifecycle over `(BUSY, DONE, FAULT)` (R263): START leads from IDLE0 and IDLE1 to RUN and leaves DEAD alone; the
engine's move leads from RUN to IDLE1 or DEAD; a reset leads to IDLE0; every other move keeps the three bits; window and
`CMD` accesses are possible unless RUN, where they have no move. -/
def Obligations.LifecycleOfTheEngine : Prop :=
  ∀ s : State, s.Inv →
    (s.busy, s.done, s.fault) ∈
      [(false, false, false), (true, false, false), (false, true, false), (false, false, true)] ∧
    (∀ t, step s = .next t →
      (∀ v : Word32, s.inputs.head? = some (.write 0x10 .word v) → v.getLsbD 1 = false → v.getLsbD 0 = true →
        (s.busy = false ∧ s.fault = false ∧ (t.busy, t.done, t.fault) = (true, false, false)) ∨
        ((s.busy, s.done, s.fault) = (false, false, true) ∧ (t.busy, t.done, t.fault) = (false, false, true))) ∧
      (s.completesNext → (t.busy, t.done, t.fault) = (false, true, false) ∨ (t.busy, t.done, t.fault) = (false, false, true)) ∧
      (s.inputs.head? = some .hardReset ∨
          (∃ v : Word32, s.inputs.head? = some (.write 0x10 .word v) ∧ v.getLsbD 1 = true) →
        (t.busy, t.done, t.fault) = (false, false, false)) ∧
      (¬s.completesNext → s.inputs.head? ≠ some .hardReset →
        (∀ v : Word32, s.inputs.head? = some (.write 0x10 .word v) → v.getLsbD 1 = false ∧ v.getLsbD 0 = false) →
        (t.busy, t.done, t.fault) = (s.busy, s.done, s.fault))) ∧
    (∀ (o : BitVec 20) (v : Word32) (ms : List Move),
      o.toNat % 4 = 0 → (o.toNat < 0x10 ∨ (0x80000 ≤ o.toNat ∧ o.toNat < 0x80000 + s.cfg.memLimbs * s.cfg.width.bytes)) →
      s.inputs = .read o .word :: ms ∨ s.inputs = .write o .word v :: ms →
      ((∃ t, step s = .next t) ↔ s.busy = false))

/-! ## What every command leaves alone -/

/-- The frame of every command, completed or faulted: the host's registers, the instance, `LC` and the host's lists are
unchanged; the fault record is unchanged or that of trap entry; and every byte of limb memory outside the destination of the
command's footprint (R68, computed at issue, R57) reads as before: all of memory for a command without one. -/
def Obligations.CommandTouchesOnlyItsFootprint : Prop :=
  ∀ (i : Instr) (s t : State), exec i s = .next t →
    t.cfg = s.cfg ∧ t.cmd0 = s.cmd0 ∧ t.cmd1 = s.cmd1 ∧ t.cmd2 = s.cmd2 ∧ t.cmd3 = s.cmd3 ∧ t.lc = s.lc ∧
    t.inputs = s.inputs ∧ t.replies = s.replies ∧
    ((t.fault = s.fault ∧ t.faultCode = s.faultCode ∧ t.faultInfo = s.faultInfo) ∨ ∃ code, t = s.trapped code) ∧
    ∀ a, (∀ b, (footprint i s).dest = some b →
        a < b.base * s.cfg.width.bytes ∨ (b.base + b.len) * s.cfg.width.bytes ≤ a) →
      t.mem.getByte a = s.mem.getByte a

/-- Contexts are immutable (R40): the only commands that write a slot are `INIT`, to an invalid slot, and `FREE`, to a valid
one, and they write that slot alone; every other command reads no slot but the one it names and `CHKMOD` none: with the other
slots replaced it does the same. -/
def Obligations.OnlyInitAndFreeWriteSlots : Prop :=
  (∀ (i : Instr) (s t : State), exec i s = .next t → t.slots ≠ s.slots →
    ∃ c, ((i = .free c ∧ (s.slot c).valid = true) ∨ ∃ ra len, i = .init c ra len ∧ (s.slot c).valid = false) ∧
      ∀ d, d ≠ c → t.slots[d]? = s.slots[d]?) ∧
  (∀ (i : Instr) (s t : State) (others : List Slot), (∀ c, i ≠ .free c) → (∀ c ra len, i ≠ .init c ra len) →
    (∀ c, slotNamed i = some c → others[c]? = s.slots[c]?) → exec i s = .next t →
    exec i { s with slots := others } = .next { t with slots := others })

/-- `RESULT` (R29): only a `CHKMOD` or a `GETLEN` that completed changes it, to 0 or 1, or to `len`; every other command and
every faulting one leaves it; its reset value is 0; a read has no side effect. -/
def Obligations.ResultIsWrittenByChkmodAndGetlenOnly : Prop :=
  (∀ (i : Instr) (s t : State), exec i s = .next t → t.result ≠ s.result →
    t.busy = false ∧ t.done = true ∧
    ((∃ ra len, i = .chkmod ra len ∧ (t.result = 0 ∨ t.result = 1)) ∨
      ∃ c, i = .getlen c ∧ t.result = BitVec.ofNat 32 (s.slot c).len)) ∧
  (∀ (i : Instr) (s t : State), exec i s = .next t → t.chk ≠ s.chk → ∃ ra len, i = .chkmod ra len) ∧
  (∀ c : Config, (State.resetOf c).result = 0) ∧
  (∀ (s : State) (ms : List Move), s.busy = false → s.inputs = .read 0x18 .word :: ms →
    step s = .next { s with inputs := ms, replies := s.result :: s.replies })

/-! ## Context commands -/

/-- `CHKMOD` completes on every operand and gives `RESULT` and `CHK` the predicate "odd and above 1"; nothing else changes
(R141). -/
def Obligations.ChkmodTestsOddAndAboveOne : Prop :=
  ∀ (s : State) (ra : Nat) (len : Nat), 1 ≤ len → len ≤ s.cfg.lenMax → s.inside ra len →
    let x := val s.cfg.w (s.memRead ra len)
    exec (.chkmod ra len) s = .next { s with
      result := if x % 2 = 1 ∧ 1 < x then 1 else 0
      chk := decide (x % 2 = 1 ∧ 1 < x)
      busy := false
      done := true }

/-- `INIT` on an odd modulus above 1 (R142, R143): the slot becomes valid with `len`, an owned copy of the modulus, the `mu`
with `(n[0] * mu + 1) mod 2^W = 0` and `r2 = 2^(2*W*len) mod N`, its limbs from `len` on zero; no other slot and no other state
changes. -/
def Obligations.InitBuildsTheContext : Prop :=
  ∀ (s : State) (c : Nat) (ra : Nat) (len : Nat), s.Inv → c < s.cfg.nctx → (s.slot c).valid = false →
    1 ≤ len → len ≤ s.cfg.lenMax → s.inside ra len →
    let x := s.memRead ra len
    val s.cfg.w x % 2 = 1 → 1 < val s.cfg.w x →
    ∃ t, exec (.init c ra len) s = .next t ∧
      t = { s with slots := t.slots, busy := false, done := true } ∧
      (∀ d, d ≠ c → t.slots[d]? = s.slots[d]?) ∧ t.slots.length = s.slots.length ∧
      (t.slot c).valid = true ∧ (t.slot c).len = len ∧
      (t.slot c).n = x ++ List.replicate (s.cfg.lenMax - len) 0 ∧
      (t.slot c).mu < 2 ^ s.cfg.w ∧ (limbAt x 0 * (t.slot c).mu + 1) % 2 ^ s.cfg.w = 0 ∧
      val s.cfg.w (t.slot c).radixSquared = 2 ^ (2 * s.cfg.w * len) % val s.cfg.w x ∧
      (t.slot c).r2.drop len = List.replicate (s.cfg.lenMax - len) 0

/-- `INIT` on an even modulus or one not above 1 completes without a fault and writes `valid`, `len` and `n` as always; of
`mu` and `r2` nothing is said but their widths (R142, R248 row 1, U1); no other slot and no other state changes. -/
def Obligations.InitOnABadModulusStillCompletes : Prop :=
  ∀ (s : State) (c : Nat) (ra : Nat) (len : Nat), s.Inv → c < s.cfg.nctx → (s.slot c).valid = false →
    1 ≤ len → len ≤ s.cfg.lenMax → s.inside ra len →
    let x := s.memRead ra len
    (val s.cfg.w x % 2 = 0 ∨ val s.cfg.w x ≤ 1) →
    ∃ t, exec (.init c ra len) s = .next t ∧
      t = { s with slots := t.slots, busy := false, done := true, freeCount := t.freeCount } ∧
      (∀ d, d ≠ c → t.slots[d]? = s.slots[d]?) ∧ t.slots.length = s.slots.length ∧
      (t.slot c).valid = true ∧ (t.slot c).len = len ∧
      (t.slot c).n = x ++ List.replicate (s.cfg.lenMax - len) 0 ∧
      (t.slot c).mu < 2 ^ s.cfg.w ∧ limbsFit s.cfg.w (t.slot c).r2 = true ∧
      (t.slot c).r2.drop len = List.replicate (s.cfg.lenMax - len) 0

/-- `FREE` of a valid slot zeroes every field of it, all `LEN_MAX` limbs included, and changes nothing else (R145). -/
def Obligations.FreeZeroesTheSlot : Prop :=
  ∀ (s : State) (c : Nat), s.accepts c →
    exec (.free c) s = .next { s with
      slots := s.slots.set c { valid := false, len := 0, n := List.replicate s.cfg.lenMax 0, mu := 0,
                               r2 := List.replicate s.cfg.lenMax 0 }
      busy := false
      done := true }

/-- `GETLEN` of a valid slot puts the slot's `len` into `RESULT` and changes nothing else (R146). -/
def Obligations.GetlenReturnsTheLength : Prop :=
  ∀ (s : State) (c : Nat), s.accepts c →
    exec (.getlen c) s = .next { s with result := BitVec.ofNat 32 (s.slot c).len, busy := false, done := true }

/-! ## Conversion and field arithmetic -/

/-- `TOFIELD` (R160): for `a < N` it completes and the destination is `a * R mod N`. -/
def Obligations.TofieldMultipliesByTheRadix : Prop :=
  ∀ (s : State) (c : Nat) (rd ra : Nat), s.Inv → s.takesU c rd ra → s.oddModulus c →
    s.operand c ra < s.modulusValue c →
    ∃ t, exec (.tofield c rd ra) s = .next t ∧ wroteOnly s t rd (s.ctxLen c) ∧ t.freeCount = s.freeCount ∧
      t.operand c rd = s.operand c ra * s.radix c % s.modulusValue c

/-- `FROMFIELD` (R161): for `aM < N` it completes and the destination is the `a < N` with `a * R mod N = aM`. -/
def Obligations.FromfieldDividesByTheRadix : Prop :=
  ∀ (s : State) (c : Nat) (rd ra : Nat), s.Inv → s.takesU c rd ra → s.oddModulus c →
    s.operand c ra < s.modulusValue c →
    ∃ t, exec (.fromfield c rd ra) s = .next t ∧ wroteOnly s t rd (s.ctxLen c) ∧ t.freeCount = s.freeCount ∧
      t.operand c rd < s.modulusValue c ∧ t.operand c rd * s.radix c % s.modulusValue c = s.operand c ra

/-- `ONE` (R174): it completes and the destination is `R mod N`. -/
def Obligations.OneWritesTheRadixModN : Prop :=
  ∀ (s : State) (c : Nat) (rd : Nat), s.Inv → s.accepts c → s.inside rd (s.ctxLen c) → s.oddModulus c →
    ∃ t, exec (.one c rd) s = .next t ∧ wroteOnly s t rd (s.ctxLen c) ∧ t.freeCount = s.freeCount ∧
      t.operand c rd = s.radix c % s.modulusValue c

/-- `ADD` (R170): for sources below `N` it completes and the destination is `(a + b) mod N`. -/
def Obligations.AddAddsModN : Prop :=
  ∀ (s : State) (c : Nat) (rd ra rb : Nat), s.Inv → s.takesB c rd ra rb → s.oddModulus c →
    s.operand c ra < s.modulusValue c → s.operand c rb < s.modulusValue c →
    ∃ t, exec (.add c rd ra rb) s = .next t ∧ wroteOnly s t rd (s.ctxLen c) ∧ t.freeCount = s.freeCount ∧
      t.operand c rd = (s.operand c ra + s.operand c rb) % s.modulusValue c

/-- `SUB` (R171): for sources below `N` it completes and the destination is `(a - b) mod N`, in `0 .. N-1`. -/
def Obligations.SubSubtractsModN : Prop :=
  ∀ (s : State) (c : Nat) (rd ra rb : Nat), s.Inv → s.takesB c rd ra rb → s.oddModulus c →
    s.operand c ra < s.modulusValue c → s.operand c rb < s.modulusValue c →
    ∃ t, exec (.sub c rd ra rb) s = .next t ∧ wroteOnly s t rd (s.ctxLen c) ∧ t.freeCount = s.freeCount ∧
      (t.operand c rd : Int) = ((s.operand c ra : Int) - (s.operand c rb : Int)) % (s.modulusValue c : Int)

/-- `MUL` (R172): for sources below `N` it completes and the destination is `a * b * R^-1 mod N`: below `N`, and congruent to
`a * b` when multiplied by `R`. -/
def Obligations.MulIsTheMontgomeryProduct : Prop :=
  ∀ (s : State) (c : Nat) (rd ra rb : Nat), s.Inv → s.takesB c rd ra rb → s.oddModulus c →
    s.operand c ra < s.modulusValue c → s.operand c rb < s.modulusValue c →
    ∃ t, exec (.mul c rd ra rb) s = .next t ∧ wroteOnly s t rd (s.ctxLen c) ∧ t.freeCount = s.freeCount ∧
      t.operand c rd < s.modulusValue c ∧
      t.operand c rd * s.radix c % s.modulusValue c = s.operand c ra * s.operand c rb % s.modulusValue c

/-- `SQR` (R173): for a source below `N` it completes with `a * a * R^-1 mod N`, and leaves the identical state that
`MUL c, [rd], [ra], [ra]` leaves. -/
def Obligations.SqrIsMulOfTheSourceWithItself : Prop :=
  ∀ (s : State) (c : Nat) (rd ra : Nat), s.Inv → s.takesU c rd ra → s.oddModulus c →
    s.operand c ra < s.modulusValue c →
    ∃ t, exec (.sqr c rd ra) s = .next t ∧ exec (.mul c rd ra ra) s = .next t ∧
      wroteOnly s t rd (s.ctxLen c) ∧ t.freeCount = s.freeCount ∧ t.operand c rd < s.modulusValue c ∧
      t.operand c rd * s.radix c % s.modulusValue c = s.operand c ra * s.operand c ra % s.modulusValue c

/-! ## Exponentiation and inverse -/

/-- `EXPCT` (R198, R200): for a base below `N` and an exponent below `2^BBITS`, on either path, it completes and the
destination is `A^e * R mod N`, where `A` is the plain value of the base and `0^0 = 1`. -/
def Obligations.ExpctRaisesToThePower : Prop :=
  ∀ (s : State) (c : Nat) (rd ra rb : Nat) (bbits : Nat), s.Inv → s.takesE c rd ra rb bbits → s.oddModulus c →
    s.operand c ra < s.modulusValue c → s.exponent rb bbits < 2 ^ bbits →
    ∃ t A, exec (.expct c rd ra rb bbits) s = .next t ∧ wroteOnly s t rd (s.ctxLen c) ∧ t.freeCount = s.freeCount ∧
      A < s.modulusValue c ∧ A * s.radix c % s.modulusValue c = s.operand c ra ∧
      t.operand c rd = A ^ s.exponent rb bbits * s.radix c % s.modulusValue c

/-- `EXPVT` (R199, R200): as `EXPCT`, by its own two paths. -/
def Obligations.ExpvtRaisesToThePower : Prop :=
  ∀ (s : State) (c : Nat) (rd ra rb : Nat) (bbits : Nat), s.Inv → s.takesE c rd ra rb bbits → s.oddModulus c →
    s.operand c ra < s.modulusValue c → s.exponent rb bbits < 2 ^ bbits →
    ∃ t A, exec (.expvt c rd ra rb bbits) s = .next t ∧ wroteOnly s t rd (s.ctxLen c) ∧ t.freeCount = s.freeCount ∧
      A < s.modulusValue c ∧ A * s.radix c % s.modulusValue c = s.operand c ra ∧
      t.operand c rd = A ^ s.exponent rb bbits * s.radix c % s.modulusValue c

/-- `INV` (R220): for a source below `N`, prime modulus or not, zero or not, it completes and the destination is
`A^(N-2) * R mod N`. -/
def Obligations.InvRaisesToTheModulusMinusTwo : Prop :=
  ∀ (s : State) (c : Nat) (rd ra : Nat), s.Inv → s.takesU c rd ra → s.oddModulus c →
    s.operand c ra < s.modulusValue c →
    ∃ t A, exec (.inv c rd ra) s = .next t ∧ wroteOnly s t rd (s.ctxLen c) ∧ t.freeCount = s.freeCount ∧
      A < s.modulusValue c ∧ A * s.radix c % s.modulusValue c = s.operand c ra ∧
      t.operand c rd = A ^ (s.modulusValue c - 2) * s.radix c % s.modulusValue c

/-- A violated value precondition is never a fault (R248): every field command whose admission passes completes whatever the
limbs of its operands and of its context are, touching only its destination. -/
def Obligations.UncheckedValuesStillComplete : Prop :=
  ∀ (s : State) (c : Nat) (rd ra rb : Nat) (bbits : Nat),
    (s.accepts c → s.inside rd (s.ctxLen c) → ∃ t, exec (.one c rd) s = .next t ∧ wroteOnly s t rd (s.ctxLen c)) ∧
    (∀ i ∈ [Instr.tofield c rd ra, .fromfield c rd ra, .sqr c rd ra, .inv c rd ra], s.takesU c rd ra →
      ∃ t, exec i s = .next t ∧ wroteOnly s t rd (s.ctxLen c)) ∧
    (∀ i ∈ [Instr.add c rd ra rb, .sub c rd ra rb, .mul c rd ra rb], s.takesB c rd ra rb →
      ∃ t, exec i s = .next t ∧ wroteOnly s t rd (s.ctxLen c)) ∧
    (∀ i ∈ [Instr.expct c rd ra rb bbits, .expvt c rd ra rb bbits], s.takesE c rd ra rb bbits →
      ∃ t, exec i s = .next t ∧ wroteOnly s t rd (s.ctxLen c))

/-! ## Laws of the source -/

/-- Round trip (R162): `TOFIELD` then `FROMFIELD` returns the source's limbs, and `FROMFIELD` then `TOFIELD` does too, for
every value below `N`. -/
def Obligations.ConversionsAreInverse : Prop :=
  ∀ (s : State) (c : Nat) (x y z : Nat), s.Inv → s.takesU c y x → s.takesU c z y → s.oddModulus c →
    s.operand c x < s.modulusValue c →
    (∃ t, execAll [.tofield c y x, .fromfield c z y] s = some t ∧
      t.memRead z (s.ctxLen c) = s.memRead x (s.ctxLen c)) ∧
    (∃ t, execAll [.fromfield c y x, .tofield c z y] s = some t ∧
      t.memRead z (s.ctxLen c) = s.memRead x (s.ctxLen c))

/-- Homomorphism (R175): with `a` at `[x]`, `b` at `[y]`, both below `N`, and disjoint buffers `[p]`, `[q]`, `[z]`, converting,
operating and converting back gives `(a + b)`, `(a - b)`, `a * b`, `a^2` modulo `N`; `SQR` is `MUL` with itself; multiplying by
`ONE` returns the operand; `ADD` and `MUL` commute in their sources. -/
def Obligations.FieldCommandsAreHomomorphic : Prop :=
  ∀ (s : State) (c : Nat) (x y p q z : Nat), s.Inv → s.accepts c → s.oddModulus c →
    (∀ a ∈ [x, y, p, q, z], s.inside a (s.ctxLen c)) →
    (∀ a ∈ [x, y], ∀ b ∈ [p, q, z], disjoint a (s.ctxLen c) b (s.ctxLen c)) →
    disjoint p (s.ctxLen c) q (s.ctxLen c) → disjoint p (s.ctxLen c) z (s.ctxLen c) → disjoint q (s.ctxLen c) z (s.ctxLen c) →
    s.operand c x < s.modulusValue c → s.operand c y < s.modulusValue c →
    (∃ t, execAll [.tofield c p x, .tofield c q y, .add c z p q, .fromfield c z z] s = some t ∧
      t.operand c z = (s.operand c x + s.operand c y) % s.modulusValue c) ∧
    (∃ t, execAll [.tofield c p x, .tofield c q y, .sub c z p q, .fromfield c z z] s = some t ∧
      (t.operand c z : Int) = ((s.operand c x : Int) - (s.operand c y : Int)) % (s.modulusValue c : Int)) ∧
    (∃ t, execAll [.tofield c p x, .tofield c q y, .mul c z p q, .fromfield c z z] s = some t ∧
      t.operand c z = s.operand c x * s.operand c y % s.modulusValue c) ∧
    (∃ t, execAll [.tofield c p x, .sqr c z p, .fromfield c z z] s = some t ∧
      t.operand c z = s.operand c x ^ 2 % s.modulusValue c) ∧
    (∃ t, exec (.sqr c z x) s = .next t ∧ exec (.mul c z x x) s = .next t) ∧
    (∃ t, execAll [.one c q, .mul c z x q] s = some t ∧ t.memRead z (s.ctxLen c) = s.memRead x (s.ctxLen c)) ∧
    (∃ t, exec (.mul c z x y) s = .next t ∧ exec (.mul c z y x) s = .next t) ∧
    (∃ t, exec (.add c z x y) s = .next t ∧ exec (.add c z y x) s = .next t)

/-- The laws of exponentiation (R201): `EXPCT` and `EXPVT` leave the identical state, and converted back it is `a^b mod N`; an
exponent of value 0 gives the state `ONE` gives; of value 1 gives back the base; two bounds that both cover the exponent give
the identical state, also across 200. -/
def Obligations.ExponentiationLaws : Prop :=
  ∀ (s : State) (c : Nat) (z p e : Nat) (bbits bbits' : Nat), s.Inv → s.takesE c z p e bbits → s.oddModulus c →
    s.operand c p < s.modulusValue c → s.exponent e bbits < 2 ^ bbits →
    (∃ t, exec (.expct c z p e bbits) s = .next t ∧ exec (.expvt c z p e bbits) s = .next t) ∧
    (∀ x, s.takesU c p x → disjoint p (s.ctxLen c) e (bLen s.cfg.w bbits) → s.operand c x < s.modulusValue c →
      ∃ t, execAll [.tofield c p x, .expct c z p e bbits, .fromfield c z z] s = some t ∧
        t.operand c z = s.operand c x ^ s.exponent e bbits % s.modulusValue c) ∧
    (s.exponent e bbits = 0 → exec (.expct c z p e bbits) s = exec (.one c z) s) ∧
    (s.exponent e bbits = 1 →
      ∃ t, exec (.expct c z p e bbits) s = .next t ∧ t.memRead z (s.ctxLen c) = s.memRead p (s.ctxLen c)) ∧
    (s.takesE c z p e bbits' → s.exponent e bbits' = s.exponent e bbits → s.exponent e bbits < 2 ^ bbits' →
      exec (.expct c z p e bbits) s = exec (.expct c z p e bbits') s)

/-- The inverse law of the source (`95_test_vectors.md` S3 law 5): for a prime modulus and a nonzero operand, `MUL` of the
operand and its `INV` is what `ONE` writes, and converted back it is 1. -/
def Obligations.InverseTimesOperandIsOne : Prop :=
  ∀ (s : State) (c : Nat) (x y z : Nat), s.Inv → s.takesU c y x → s.takesB c z x y →
    disjoint y (s.ctxLen c) x (s.ctxLen c) → s.oddModulus c → Nat.Prime (s.modulusValue c) →
    s.operand c x < s.modulusValue c → 0 < s.operand c x →
    (∃ t, execAll [.inv c y x, .mul c z x y] s = some t ∧ t.operand c z = s.radix c % s.modulusValue c) ∧
    (∃ t, execAll [.inv c y x, .mul c z x y, .fromfield c z z] s = some t ∧ t.operand c z = 1)

/-! ## Datapath primitives -/

/-- The value of `mont_reduce` (R127): for `val(t) < N * R` the limb procedure of R124 returns `len` limbs with value below
`N` that times `R` is congruent to `val(t)` modulo `N`. -/
def Obligations.MontgomeryReductionValue : Prop :=
  ∀ (w : Nat) (n t : List Nat) (mu : Nat), limbsFit w n = true → limbsFit w t = true → t.length = 2 * n.length →
    (limbAt n 0 * mu + 1) % 2 ^ w = 0 → val w t < val w n * 2 ^ (w * n.length) →
    (montReduce w n mu t).length = n.length ∧ limbsFit w (montReduce w n mu t) = true ∧
    val w (montReduce w n mu t) < val w n ∧
    val w (montReduce w n mu t) * 2 ^ (w * n.length) % val w n = val w t % val w n

/-- The values of `bn_add`, `bn_sub`, `bn_mul` (R113, R114, R115), with the borrow of `bn_sub` the comparison. -/
def Obligations.LimbVectorArithmeticValues : Prop :=
  ∀ (w : Nat) (a b : List Nat), limbsFit w a = true → limbsFit w b = true → a.length = b.length →
    (val w (bnAdd w a b).1 + (bnAdd w a b).2 * 2 ^ (w * a.length) = val w a + val w b ∧ (bnAdd w a b).2 ≤ 1 ∧
      (bnAdd w a b).1.length = a.length ∧ limbsFit w (bnAdd w a b).1 = true) ∧
    (val w (bnSub w a b).1 + val w b = val w a + (bnSub w a b).2 * 2 ^ (w * a.length) ∧
      (bnSub w a b).2 = (if val w a < val w b then 1 else 0) ∧
      (bnSub w a b).1.length = a.length ∧ limbsFit w (bnSub w a b).1 = true) ∧
    (val w (bnMul w a b) = val w a * val w b ∧ (bnMul w a b).length = 2 * a.length ∧ limbsFit w (bnMul w a b) = true)

/-- The values of `add_mod_n` and `sub_mod_n` for operands below the modulus (R122, R123). -/
def Obligations.ModularAddAndSubtractValues : Prop :=
  ∀ (w : Nat) (n a b : List Nat), limbsFit w n = true → limbsFit w a = true → limbsFit w b = true →
    a.length = n.length → b.length = n.length → val w a < val w n → val w b < val w n →
    val w (addModN w n a b) = (val w a + val w b) % val w n ∧
    val w (subModN w n a b) = (val w a + val w n - val w b) % val w n ∧
    limbsFit w (addModN w n a b) = true ∧ limbsFit w (subModN w n a b) = true ∧
    (addModN w n a b).length = n.length ∧ (subModN w n a b).length = n.length

/-- `mod_inv_limb` returns the unique limb with `(n0 * mu + 1) mod 2^W = 0` for odd `n0` and both widths (R118), and `2*W*len`
modular doublings from 1 give the limbs of `2^(2*W*len) mod N`, the `r2` that `INIT` writes (R143). -/
def Obligations.ContextConstantsAreRight : Prop :=
  (∀ (wd : LimbWidth) (n0 : Nat), n0 % 2 = 1 → n0 < 2 ^ wd.bits →
    modInvLimb wd.bits n0 < 2 ^ wd.bits ∧ (n0 * modInvLimb wd.bits n0 + 1) % 2 ^ wd.bits = 0 ∧
    ∀ m, m < 2 ^ wd.bits → (n0 * m + 1) % 2 ^ wd.bits = 0 → m = modInvLimb wd.bits n0) ∧
  (∀ (wd : LimbWidth) (n : List Nat), limbsFit wd.bits n = true → 1 < val wd.bits n →
    r2ByDoubling wd.bits n = radixSquaredOf wd.bits n.length n)

/-- Bit and window extraction read the exponent's value (R129, R130), across limb boundaries too; the two table selections
return entry `v` (R196, R197). -/
def Obligations.ExponentBitsAndTableEntriesAreRight : Prop :=
  (∀ (wd : LimbWidth) (b : List Nat) (i : Nat), limbsFit wd.bits b = true → i < wd.bits * b.length →
    getBit wd.bits b i = val wd.bits b / 2 ^ i % 2) ∧
  (∀ (wd : LimbWidth) (b : List Nat) (p l : Nat), limbsFit wd.bits b = true → 1 ≤ l → l ≤ 4 →
    p + l ≤ wd.bits * b.length → getWindow wd.bits b p l = val wd.bits b / 2 ^ p % 2 ^ l) ∧
  (∀ (wd : LimbWidth) (table : List (List Nat)) (k v : Nat), table.length = 16 → v < 16 →
    (∀ x ∈ table, x.length = k ∧ limbsFit wd.bits x = true) →
    selectCt wd.bits table v = table.getD v [] ∧ selectVt wd.bits table v = table.getD v [])

/-! ## Leakage -/

/-- The constant-time commands (R275, R276): two states that agree on the public inputs, the value preconditions holding in
both, give the command identical observable traces, whatever the limbs of the operands, of the exponent, of `n`, `mu` and `r2`.
Admission depends on public inputs only for every command (R277). The trace is the model's list of events, whose granularity is
its choice (log 12); it holds no duration, which R275 counts in (log 17). -/
def Obligations.ConstantTimeCommandsLeakPublicInputsOnly : Prop :=
  ∀ (i : Instr) (s t : State), s.Inv → t.Inv → publicAgree i s t →
    admission i s = admission i t ∧
    (constantTime i = true → valuesOk i s = true → valuesOk i t = true → leak i s = leak i t)

/-- Operation counts: the ladder makes `2 * bBits` multiplications and squarings and `bBits + 1` swaps (R192), the bit-serial
path `bBits` plus one per 1 bit (R193), the window path `14 + bBits + ceil(bBits/4)` in both commands (R195, R274). -/
def Obligations.OperationCountsOfExponentiation : Prop :=
  ∀ (w : Nat) (n : List Nat) (mu : Nat) (oneM a b : List Nat) (bbits : Nat),
    (bbits < 200 →
      montCount (expCtT w n mu oneM a b bbits).2 = 2 * bbits ∧
      (expCtT w n mu oneM a b bbits).2.countP (fun e => decide (e = .cswap n.length)) = bbits + 1 ∧
      montCount (expVtT w n mu oneM a b bbits).2 =
        bbits + (List.range bbits).countP fun i => decide (getBit w b i = 1)) ∧
    (200 ≤ bbits →
      montCount (expCtT w n mu oneM a b bbits).2 = 14 + bbits + (bbits + 3) / 4 ∧
      montCount (expVtT w n mu oneM a b bbits).2 = 14 + bbits + (bbits + 3) / 4)

/-! ## The invariant -/

/-- Every step that has a next state keeps the invariant (R28, R30, R31, R38, R41; log 8) and the instance (R9). -/
def Obligations.EveryStepKeepsTheInvariant : Prop :=
  ∀ s t : State, s.Inv → step s = .next t → t.Inv ∧ t.cfg = s.cfg

/-- The state after reset meets the invariant, for the instance of `State.reset` and for every legal one (R9, R39). -/
def Obligations.ResetMeetsTheInvariant : Prop :=
  State.reset.Inv ∧ ∀ c : Config, c.legal = true → (State.resetOf c).Inv

/-- The end of a run (R19, R279): with no move of the host left, an engine that is not busy stays as it is, and a busy one
completes at its next step; the run then ended well iff `DONE` is set. That an empty list of moves is the engine's turn is the
model's choice (logs 2, 13). -/
def Obligations.RunsEndWithTheHost : Prop :=
  ∀ s : State, s.Inv → s.inputs = [] →
    (s.ended → step s = .next s) ∧
    (¬s.ended → ∃ t, step s = .next t ∧ t.ended ∧ (t.endedWell ↔ t.done = true))

end
end

