-- ==== Sys2Proof/Laws/Datapath.lean ====
section
/-! SUPPORT. The values of the limb procedures of `40_primitives.md`, loop by loop: each lemma says once what its loop
computes, on any operands or on limbs that fit `W` bits. -/

namespace Sys2Proof.Machine

/-! ## Values of limb vectors (R12) -/

@[simp] theorem val_nil (w : Nat) : val w [] = 0 := rfl

@[simp] theorem val_cons (w : Nat) (x : Nat) (xs : List Nat) : val w (x :: xs) = x + 2 ^ w * val w xs := rfl

@[simp] theorem limbsFit_nil (w : Nat) : limbsFit w [] = true := rfl

@[simp] theorem limbsFit_cons (w : Nat) (x : Nat) (xs : List Nat) :
    limbsFit w (x :: xs) = true ↔ x < 2 ^ w ∧ limbsFit w xs = true := by simp [limbsFit]

theorem limbsFit_append (w : Nat) (x y : List Nat) :
    limbsFit w (x ++ y) = true ↔ limbsFit w x = true ∧ limbsFit w y = true := by simp [limbsFit]

theorem limbsFit_replicate_zero (w k : Nat) : limbsFit w (List.replicate k 0) = true := by simp [limbsFit]

theorem limbsFit_take {w : Nat} {x : List Nat} (k : Nat) (h : limbsFit w x = true) : limbsFit w (x.take k) = true := by
  simp only [limbsFit, List.all_eq_true] at h ⊢
  exact fun a ha => h a (List.mem_of_mem_take ha)

theorem limbsFit_drop {w : Nat} {x : List Nat} (k : Nat) (h : limbsFit w x = true) : limbsFit w (x.drop k) = true := by
  simp only [limbsFit, List.all_eq_true] at h ⊢
  exact fun a ha => h a (List.mem_of_mem_drop ha)

theorem val_append (w : Nat) (x y : List Nat) : val w (x ++ y) = val w x + 2 ^ (w * x.length) * val w y := by
  induction x with
  | nil => simp
  | cons a x ih => simp only [List.cons_append, val_cons, ih, List.length_cons, Nat.mul_add, Nat.mul_one, Nat.pow_add]; ring

theorem val_replicate_zero (w k : Nat) : val w (List.replicate k 0) = 0 := by
  induction k with
  | zero => rfl
  | succ k ih => simp [List.replicate_succ, ih]

theorem val_lt {w : Nat} {x : List Nat} (h : limbsFit w x = true) : val w x < 2 ^ (w * x.length) := by
  induction x with
  | nil => simp
  | cons a x ih =>
    rw [limbsFit_cons] at h
    have h1 := ih h.2
    rw [val_cons, List.length_cons, Nat.mul_add, Nat.mul_one, Nat.add_comm (w * x.length), Nat.pow_add]
    have : 2 ^ w * (val w x + 1) ≤ 2 ^ w * 2 ^ (w * x.length) := Nat.mul_le_mul_left _ h1
    rw [Nat.mul_add] at this; omega

theorem val_div (w : Nat) {a : Nat} (x : List Nat) (h : a < 2 ^ w) : val w (a :: x) / 2 ^ w = val w x := by
  rw [val_cons, Nat.add_mul_div_left _ _ (Nat.two_pow_pos w), Nat.div_eq_of_lt h, Nat.zero_add]

theorem val_mod (w : Nat) {a : Nat} (x : List Nat) (h : a < 2 ^ w) : val w (a :: x) % 2 ^ w = a := by
  rw [val_cons, Nat.add_mul_mod_self_left, Nat.mod_eq_of_lt h]

/-- Equal values of the same length are equal limbs. -/
theorem val_inj {w : Nat} {x y : List Nat} (hx : limbsFit w x = true) (hy : limbsFit w y = true)
    (hl : x.length = y.length) (h : val w x = val w y) : x = y := by
  induction x generalizing y with
  | nil => cases y <;> simp_all
  | cons a x ih =>
    obtain _ | ⟨b, y⟩ := y
    · simp at hl
    · rw [limbsFit_cons] at hx hy
      have h1 : a = b := by rw [← val_mod w x hx.1, h, val_mod w y hy.1]
      have h2 : val w x = val w y := by rw [← val_div w x hx.1, h, val_div w y hy.1]
      rw [h1, ih hx.2 hy.2 (by simpa using hl) h2]

@[simp] theorem length_limbsOf (w k v : Nat) : (limbsOf w k v).length = k := by
  induction k generalizing v with
  | zero => rfl
  | succ k ih => simp [limbsOf, ih]

theorem limbsFit_limbsOf (w k v : Nat) : limbsFit w (limbsOf w k v) = true := by
  induction k generalizing v with
  | zero => rfl
  | succ k ih => simp [limbsOf, ih, Nat.mod_lt]

theorem val_limbsOf (w k v : Nat) : val w (limbsOf w k v) = v % 2 ^ (w * k) := by
  induction k generalizing v with
  | zero => simp [limbsOf, Nat.mod_one]
  | succ k ih => rw [limbsOf, val_cons, ih, Nat.mul_add, Nat.mul_one, Nat.add_comm (w * k), Nat.pow_add, Nat.mod_mul]

/-- Limb `i` is the value's digit `i`. -/
theorem limbAt_eq {w : Nat} {x : List Nat} (i : Nat) (h : limbsFit w x = true) :
    limbAt x i = val w x / 2 ^ (w * i) % 2 ^ w := by
  induction x generalizing i with
  | nil => simp [limbAt]
  | cons a x ih =>
    rw [limbsFit_cons] at h
    cases i with
    | zero => simp only [Nat.mul_zero, Nat.pow_zero, Nat.div_one, val_mod w x h.1]; rfl
    | succ i =>
      rw [Nat.mul_add, Nat.mul_one, Nat.add_comm (w * i), Nat.pow_add, ← Nat.div_div_eq_div_mul, val_div w x h.1, ← ih i h.2]
      rfl

theorem limbAt_lt {w : Nat} {x : List Nat} (i : Nat) (h : limbsFit w x = true) : limbAt x i < 2 ^ w := by
  rw [limbAt_eq i h]; exact Nat.mod_lt _ (Nat.two_pow_pos w)

/-- The lowest bit of limb 0 is the parity of the value. -/
theorem limbAt_zero_and_one {w : Nat} (hw : 0 < w) (x : List Nat) : limbAt x 0 &&& 1 = val w x % 2 := by
  rw [Nat.and_one_is_mod]
  cases x with
  | nil => rfl
  | cons a x =>
    obtain ⟨w, rfl⟩ : ∃ v, w = v + 1 := ⟨w - 1, by omega⟩
    rw [val_cons, Nat.pow_succ, Nat.mul_comm (2 ^ w) 2, Nat.mul_assoc, Nat.add_mul_mod_self_left]; rfl

theorem modulusOk_iff {w : Nat} (hw : 0 < w) (x : List Nat) : modulusOk w x = true ↔ val w x % 2 = 1 ∧ 1 < val w x := by
  simp [modulusOk, limbAt_zero_and_one hw]

theorem bits_pos (wd : LimbWidth) : 0 < wd.bits := by cases wd <;> decide

theorem Config.w_pos (c : Config) : 0 < c.w := bits_pos c.width

/-! ## Carries and borrows (R110, R111, R113, R114) -/

theorem addc_value (w a b cin : Nat) : (addc w a b cin).1 + 2 ^ w * (addc w a b cin).2 = a + b + cin :=
  Nat.mod_add_div _ _

theorem addc_carry_le {w a b cin : Nat} (ha : a < 2 ^ w) (hb : b < 2 ^ w) (hc : cin ≤ 1) : (addc w a b cin).2 ≤ 1 := by
  have : (addc w a b cin).2 < 2 := by
    unfold addc; rw [Nat.div_lt_iff_lt_mul (Nat.two_pow_pos w)]; omega
  omega

theorem subb_value {w a b bin : Nat} (ha : a < 2 ^ w) (hb : b < 2 ^ w) (hc : bin ≤ 1) :
    (subb w a b bin).1 + b + bin = a + 2 ^ w * (subb w a b bin).2 := by
  unfold subb
  simp only
  split
  · rw [Nat.mod_eq_of_lt (by omega)]; omega
  · rw [show a + 2 ^ w - (b + bin) = (a - (b + bin)) + 2 ^ w by omega, Nat.add_mod_right, Nat.mod_eq_of_lt (by omega)]
    omega

theorem subb_borrow_le (w a b bin : Nat) : (subb w a b bin).2 ≤ 1 := by unfold subb; dsimp only; split <;> omega

theorem bnAddFrom_value (w cy : Nat) {a b : List Nat} (h : a.length = b.length) :
    val w (bnAddFrom w cy a b).1 + 2 ^ (w * a.length) * (bnAddFrom w cy a b).2 = val w a + val w b + cy := by
  induction a generalizing b cy with
  | nil => cases b <;> simp_all [bnAddFrom]
  | cons x a ih =>
    obtain _ | ⟨y, b⟩ := b
    · simp at h
    · have h1 := ih (addc w x y cy).2 (b := b) (by simpa using h)
      have h2 := addc_value w x y cy
      simp only [bnAddFrom, val_cons, List.length_cons, Nat.mul_add, Nat.mul_one]
      rw [Nat.add_comm (w * a.length), Nat.pow_add]
      linear_combination 2 ^ w * h1 + h2

theorem length_bnAddFrom (w cy : Nat) {a b : List Nat} (h : a.length = b.length) :
    (bnAddFrom w cy a b).1.length = a.length := by
  induction a generalizing b cy with
  | nil => cases b <;> simp_all [bnAddFrom]
  | cons x a ih =>
    obtain _ | ⟨y, b⟩ := b
    · simp at h
    · simp [bnAddFrom, ih _ (by simpa using h : a.length = b.length)]

theorem limbsFit_bnAddFrom (w cy : Nat) (a b : List Nat) : limbsFit w (bnAddFrom w cy a b).1 = true := by
  induction a generalizing b cy with
  | nil => rfl
  | cons x a ih =>
    obtain _ | ⟨y, b⟩ := b
    · rfl
    · exact (limbsFit_cons _ _ _).2 ⟨Nat.mod_lt _ (Nat.two_pow_pos w), ih _ _⟩

theorem bnAddFrom_carry_le {w cy : Nat} {a b : List Nat} (hc : cy ≤ 1) (ha : limbsFit w a = true)
    (hb : limbsFit w b = true) : (bnAddFrom w cy a b).2 ≤ 1 := by
  induction a generalizing b cy with
  | nil => exact hc
  | cons x a ih =>
    obtain _ | ⟨y, b⟩ := b
    · exact hc
    · rw [limbsFit_cons] at ha hb
      exact ih (addc_carry_le ha.1 hb.1 hc) ha.2 hb.2

theorem bnSubFrom_value {w bw : Nat} {a b : List Nat} (hc : bw ≤ 1) (h : a.length = b.length) (ha : limbsFit w a = true)
    (hb : limbsFit w b = true) :
    val w (bnSubFrom w bw a b).1 + val w b + bw = val w a + 2 ^ (w * a.length) * (bnSubFrom w bw a b).2 := by
  induction a generalizing b bw with
  | nil => cases b <;> simp_all [bnSubFrom]
  | cons x a ih =>
    obtain _ | ⟨y, b⟩ := b
    · simp at h
    · rw [limbsFit_cons] at ha hb
      have h1 := ih (b := b) (subb_borrow_le w x y bw) (by simpa using h) ha.2 hb.2
      have h2 := subb_value ha.1 hb.1 hc
      simp only [bnSubFrom, val_cons, List.length_cons, Nat.mul_add, Nat.mul_one]
      rw [Nat.add_comm (w * a.length), Nat.pow_add]
      linear_combination 2 ^ w * h1 + h2

theorem length_bnSubFrom (w bw : Nat) {a b : List Nat} (h : a.length = b.length) :
    (bnSubFrom w bw a b).1.length = a.length := by
  induction a generalizing b bw with
  | nil => cases b <;> simp_all [bnSubFrom]
  | cons x a ih =>
    obtain _ | ⟨y, b⟩ := b
    · simp at h
    · simp [bnSubFrom, ih _ (by simpa using h : a.length = b.length)]

theorem limbsFit_bnSubFrom (w bw : Nat) (a b : List Nat) : limbsFit w (bnSubFrom w bw a b).1 = true := by
  induction a generalizing b bw with
  | nil => rfl
  | cons x a ih =>
    obtain _ | ⟨y, b⟩ := b
    · rfl
    · exact (limbsFit_cons _ _ _).2 ⟨Nat.mod_lt _ (Nat.two_pow_pos w), ih _ _⟩

theorem bnSubFrom_borrow_le {w bw : Nat} (a b : List Nat) (hc : bw ≤ 1) : (bnSubFrom w bw a b).2 ≤ 1 := by
  induction a generalizing b bw with
  | nil => exact hc
  | cons x a ih =>
    obtain _ | ⟨y, b⟩ := b
    · exact hc
    · exact ih _ (subb_borrow_le w x y bw)

/-! ## Multiply-accumulate (R112, R115, R124) -/

theorem mac_value (w a b c d : Nat) : (mac w a b c d).2 + 2 ^ w * (mac w a b c d).1 = a * b + c + d := Nat.mod_add_div _ _

theorem macRow_value (w x : Nat) {a t : List Nat} (cy : Nat) (h : a.length = t.length) :
    val w (macRow w x a t cy).1 + 2 ^ (w * a.length) * (macRow w x a t cy).2 = x * val w a + val w t + cy := by
  induction a generalizing t cy with
  | nil => cases t <;> simp_all [macRow]
  | cons y a ih =>
    obtain _ | ⟨u, t⟩ := t
    · simp at h
    · have h1 := ih (t := t) (mac w x y u cy).1 (by simpa using h)
      have h2 := mac_value w x y u cy
      simp only [macRow, val_cons, List.length_cons, Nat.mul_add, Nat.mul_one]
      rw [Nat.add_comm (w * a.length), Nat.pow_add]
      linear_combination 2 ^ w * h1 + h2

theorem length_macRow (w x : Nat) {a t : List Nat} (cy : Nat) (h : a.length = t.length) :
    (macRow w x a t cy).1.length = a.length := by
  induction a generalizing t cy with
  | nil => cases t <;> simp_all [macRow]
  | cons y a ih =>
    obtain _ | ⟨u, t⟩ := t
    · simp at h
    · simp [macRow, ih _ (by simpa using h : a.length = t.length)]

theorem limbsFit_macRow (w x : Nat) (a t : List Nat) (cy : Nat) : limbsFit w (macRow w x a t cy).1 = true := by
  induction a generalizing t cy with
  | nil => rfl
  | cons y a ih =>
    obtain _ | ⟨u, t⟩ := t
    · rfl
    · exact (limbsFit_cons _ _ _).2 ⟨Nat.mod_lt _ (Nat.two_pow_pos w), ih _ _⟩

/-- "The sum never exceeds `B^2 - 1`" (R112): the carry of a row is a limb. -/
theorem macRow_carry_lt {w x : Nat} {a t : List Nat} {cy : Nat} (hx : x < 2 ^ w) (ha : limbsFit w a = true)
    (ht : limbsFit w t = true) (hc : cy < 2 ^ w) : (macRow w x a t cy).2 < 2 ^ w := by
  induction a generalizing t cy with
  | nil => exact hc
  | cons y a ih =>
    obtain _ | ⟨u, t⟩ := t
    · exact hc
    · rw [limbsFit_cons] at ha ht
      refine ih ha.2 ht.2 ?_
      show (x * y + u + cy) / 2 ^ w < 2 ^ w
      rw [Nat.div_lt_iff_lt_mul (Nat.two_pow_pos w)]
      have : x * y ≤ (2 ^ w - 1) * (2 ^ w - 1) := Nat.mul_le_mul (by omega) (by omega)
      obtain ⟨v, hv⟩ : ∃ v, 2 ^ w = v + 1 := ⟨2 ^ w - 1, by omega⟩
      rw [hv] at this ht hc ⊢
      simp only [Nat.add_sub_cancel] at this
      nlinarith

theorem propagate_value (w : Nat) (t : List Nat) (cy : Nat) :
    val w (propagate w t cy) = (val w t + cy) % 2 ^ (w * t.length) := by
  induction t generalizing cy with
  | nil => simp [propagate, Nat.mod_one]
  | cons x t ih =>
    have h := addc_value w x cy 0
    have h1 : (addc w x cy 0).1 < 2 ^ w := Nat.mod_lt _ (Nat.two_pow_pos w)
    rw [propagate, val_cons, ih, List.length_cons, Nat.mul_add, Nat.mul_one, Nat.add_comm (w * t.length), Nat.pow_add,
      Nat.mod_mul, val_cons]
    have e : x + 2 ^ w * val w t + cy = (addc w x cy 0).1 + 2 ^ w * (val w t + (addc w x cy 0).2) := by
      linear_combination -h
    rw [e, Nat.add_mul_mod_self_left, Nat.mod_eq_of_lt h1, Nat.add_mul_div_left _ _ (Nat.two_pow_pos w),
      Nat.div_eq_of_lt h1, Nat.zero_add]

@[simp] theorem length_propagate (w : Nat) (t : List Nat) (cy : Nat) : (propagate w t cy).length = t.length := by
  induction t generalizing cy with
  | nil => rfl
  | cons x t ih => simp [propagate, ih]

theorem limbsFit_propagate (w : Nat) (t : List Nat) (cy : Nat) : limbsFit w (propagate w t cy) = true := by
  induction t generalizing cy with
  | nil => rfl
  | cons x t ih => exact (limbsFit_cons _ _ _).2 ⟨Nat.mod_lt _ (Nat.two_pow_pos w), ih _⟩

/-- A list of at least `k + 1` limbs is its first `k`, the next one and the rest. -/
theorem val_take_drop (w : Nat) {t : List Nat} (k : Nat) (h : k ≤ t.length) :
    val w t = val w (t.take k) + 2 ^ (w * k) * val w (t.drop k) := by
  have := val_append w (t.take k) (t.drop k)
  rwa [List.take_append_drop, List.length_take, Nat.min_eq_left h] at this

theorem val_headD_tail (w : Nat) (t : List Nat) : val w t = t.headD 0 + 2 ^ w * val w t.tail := by
  cases t <;> simp

theorem limbsFit_tail {w : Nat} {t : List Nat} (h : limbsFit w t = true) : limbsFit w t.tail = true := by
  cases t <;> simp_all

/-- The rows of the schoolbook product (R115): the buffer gains `a * b`, if the top limb it writes in each row was 0. -/
theorem mulRows_value {w : Nat} {a b t : List Nat} (hl : t.length = a.length + b.length)
    (hz : t.drop a.length = List.replicate b.length 0) :
    val w (mulRows w a b t) = val w t + val w a * val w b ∧ (mulRows w a b t).length = t.length := by
  induction b generalizing t with
  | nil => simp [mulRows]
  | cons y b ih =>
    simp only [List.length_cons] at hl
    have hk : (t.take a.length).length = a.length := by rw [List.length_take]; omega
    have hr := macRow_value w y (a := a) (t := t.take a.length) 0 hk.symm
    have hrl := length_macRow w y (a := a) (t := t.take a.length) 0 hk.symm
    have hd : t.drop (a.length + 1) = List.replicate b.length 0 := by
      rw [← List.drop_drop, hz]; simp
    set r := macRow w y a (t.take a.length) 0 with hrdef
    have hval : val w (r.1 ++ r.2 :: t.drop (a.length + 1)) = val w t + y * val w a := by
      have e := val_take_drop w (t := t) a.length (by omega)
      rw [hz, val_replicate_zero] at e
      rw [val_append, val_cons, hd, val_replicate_zero, hrl]
      linear_combination hr - e
    have hlen : (r.1 ++ r.2 :: t.drop (a.length + 1)).length = t.length := by
      simp [hrl, hd]; omega
    rw [mulRows]
    simp only [← hrdef]
    generalize ht' : r.1 ++ r.2 :: t.drop (a.length + 1) = t' at hval hlen
    have hne : t' ≠ [] := by intro h; rw [h] at hlen; simp at hlen; omega
    have htl : t'.tail.length = a.length + b.length := by simp; omega
    have hz' : t'.tail.drop a.length = List.replicate b.length 0 := by
      rw [← ht', List.drop_tail, List.drop_append, hrl]
      simp [hd, List.drop_eq_nil_of_le, hrl]
    obtain ⟨h1, h2⟩ := ih htl hz'
    have hh := val_headD_tail w t'
    refine ⟨?_, ?_⟩
    · rw [val_cons, h1]; simp only [val_cons]; linear_combination hval - hh
    · simp [h2]; omega

theorem limbsFit_mulRows {w : Nat} {a b t : List Nat} (ha : limbsFit w a = true) (hb : limbsFit w b = true)
    (ht : limbsFit w t = true) : limbsFit w (mulRows w a b t) = true := by
  induction b generalizing t with
  | nil => exact ht
  | cons y b ih =>
    rw [limbsFit_cons] at hb
    rw [mulRows]
    have hcar : (macRow w y a (t.take a.length) 0).2 < 2 ^ w :=
      macRow_carry_lt hb.1 ha (limbsFit_take _ ht) (Nat.two_pow_pos w)
    have hfit : limbsFit w ((macRow w y a (t.take a.length) 0).1 ++
        (macRow w y a (t.take a.length) 0).2 :: t.drop (a.length + 1)) = true :=
      (limbsFit_append _ _ _).2 ⟨limbsFit_macRow _ _ _ _ _, (limbsFit_cons _ _ _).2 ⟨hcar, limbsFit_drop _ ht⟩⟩
    refine (limbsFit_cons _ _ _).2 ⟨?_, ih hb.2 (limbsFit_tail hfit)⟩
    generalize hx : (macRow w y a (t.take a.length) 0).1 ++
        (macRow w y a (t.take a.length) 0).2 :: t.drop (a.length + 1) = x at hfit
    cases x with
    | nil => exact Nat.two_pow_pos w
    | cons z x => exact ((limbsFit_cons _ _ _).1 hfit).1

/-! ## Masks (R119, R120, R121) -/

theorem maskOfBit_one (w : Nat) : maskOfBit w 1 = 2 ^ w - 1 := by
  unfold maskOfBit; exact Nat.mod_eq_of_lt (by have := Nat.two_pow_pos w; omega)

theorem maskOfBit_zero (w : Nat) : maskOfBit w 0 = 0 := by simp [maskOfBit]

theorem maskSelect_ones {w : Nat} {x y : List Nat} (hx : limbsFit w x = true) (h : x.length = y.length) :
    maskSelect w (2 ^ w - 1) x y = x := by
  induction x generalizing y with
  | nil => simp [maskSelect]
  | cons a x ih =>
    obtain _ | ⟨b, y⟩ := y
    · simp at h
    · rw [limbsFit_cons] at hx
      have h1 := ih hx.2 (by simpa using h : x.length = y.length)
      unfold maskSelect at h1 ⊢
      rw [List.zipWith_cons_cons, h1]
      simp only [notLimb, Nat.xor_self, Nat.and_zero, Nat.or_zero, Nat.and_two_pow_sub_one_eq_mod, Nat.mod_eq_of_lt hx.1]

theorem maskSelect_zero {w : Nat} {x y : List Nat} (hy : limbsFit w y = true) (h : x.length = y.length) :
    maskSelect w 0 x y = y := by
  induction x generalizing y with
  | nil => cases y <;> simp_all [maskSelect]
  | cons a x ih =>
    obtain _ | ⟨b, y⟩ := y
    · simp at h
    · rw [limbsFit_cons] at hy
      have h1 := ih (y := y) hy.2 (by simpa using h)
      unfold maskSelect at h1 ⊢
      rw [List.zipWith_cons_cons, h1]
      simp only [notLimb, Nat.zero_xor, Nat.and_zero, Nat.zero_or, Nat.and_two_pow_sub_one_eq_mod, Nat.mod_eq_of_lt hy.1]

/-- A mask select by a bit is a choice. -/
theorem maskSelect_bit {w f : Nat} {x y : List Nat} (hf : f ≤ 1) (hx : limbsFit w x = true) (hy : limbsFit w y = true)
    (h : x.length = y.length) : maskSelect w (maskOfBit w f) x y = if f = 1 then x else y := by
  obtain rfl | rfl : f = 0 ∨ f = 1 := by omega
  · rw [maskOfBit_zero, maskSelect_zero hy h]; rfl
  · rw [maskOfBit_one, maskSelect_ones hx h]; rfl

theorem swapInto_ones {w : Nat} {x y : List Nat} (hx : limbsFit w x = true) (hy : limbsFit w y = true)
    (h : x.length = y.length) : swapInto (2 ^ w - 1) x y = y := by
  induction x generalizing y with
  | nil => cases y <;> simp_all [swapInto]
  | cons a x ih =>
    obtain _ | ⟨b, y⟩ := y
    · simp at h
    · rw [limbsFit_cons] at hx hy
      have h1 := ih (y := y) hx.2 hy.2 (by simpa using h)
      unfold swapInto at h1 ⊢
      rw [List.zipWith_cons_cons, h1]
      rw [Nat.and_two_pow_sub_one_eq_mod, Nat.mod_eq_of_lt (Nat.xor_lt_two_pow hx.1 hy.1), ← Nat.xor_assoc, Nat.xor_self, Nat.zero_xor]

theorem swapInto_zero {x y : List Nat} (h : x.length = y.length) : swapInto 0 x y = x := by
  induction x generalizing y with
  | nil => rfl
  | cons a x ih =>
    obtain _ | ⟨b, y⟩ := y
    · simp at h
    · have h1 := ih (y := y) (by simpa using h)
      unfold swapInto at h1 ⊢
      rw [List.zipWith_cons_cons, h1]; simp

/-- `cswap` swaps iff its bit is 1 (R121). -/
theorem cswap_bit {w f : Nat} {x y : List Nat} (hf : f ≤ 1) (hx : limbsFit w x = true) (hy : limbsFit w y = true)
    (h : x.length = y.length) : cswap w f x y = if f = 1 then (y, x) else (x, y) := by
  obtain rfl | rfl : f = 0 ∨ f = 1 := by omega
  · simp [cswap, maskOfBit_zero, swapInto_zero h, swapInto_zero h.symm]
  · simp [cswap, maskOfBit_one, swapInto_ones hx hy h, swapInto_ones hy hx h.symm]

/-- The bit `x | (1 - y)` of the conditional subtraction (R122, R124). -/
theorem or_not_bit {x y : Nat} (hx : x ≤ 1) (hy : y ≤ 1) : (x ||| (1 - y)) ≤ 1 ∧ ((x ||| (1 - y)) = 1 ↔ x = 1 ∨ y = 0) := by
  obtain rfl | rfl : x = 0 ∨ x = 1 := by omega
  all_goals obtain rfl | rfl : y = 0 ∨ y = 1 := by omega
  all_goals decide

/-! ## Montgomery reduction (R124) -/

/-- One step on a buffer with room above: it adds `q * n`, the lowest limb becomes 0, and the buffer shifts down by a limb.
The premise says the sum fits the buffer. -/
theorem montStep_value {w : Nat} {n t : List Nat} {mu : Nat} (hn : n ≠ []) (hl : n.length ≤ t.length)
    (hmu : (limbAt n 0 * mu + 1) % 2 ^ w = 0) :
    ∃ q, q < 2 ^ w ∧
      (val w t + q * val w n < 2 ^ (w * t.length) → 2 ^ w * val w (montStep w n mu t) = val w t + q * val w n) ∧
      (montStep w n mu t).length + 1 = t.length ∧ limbsFit w (montStep w n mu t) = true := by
  obtain ⟨n0, n', rfl⟩ : ∃ n0 n', n = n0 :: n' := by cases n <;> simp_all
  obtain ⟨t0, t', rfl⟩ : ∃ t0 t', t = t0 :: t' := by cases t <;> simp_all
  have hk : ((t0 :: t').take (n0 :: n').length).length = (n0 :: n').length := by
    rw [List.length_take]; omega
  refine ⟨t0 * mu % 2 ^ w, Nat.mod_lt _ (Nat.two_pow_pos w), ?_⟩
  have hr := macRow_value w (t0 * mu % 2 ^ w) (a := n0 :: n') (t := (t0 :: t').take (n0 :: n').length) 0 hk.symm
  have hrl := length_macRow w (t0 * mu % 2 ^ w) (a := n0 :: n') (t := (t0 :: t').take (n0 :: n').length) 0 hk.symm
  have hrf := limbsFit_macRow w (t0 * mu % 2 ^ w) (n0 :: n') ((t0 :: t').take (n0 :: n').length) 0
  have hsplit := val_take_drop w (t := t0 :: t') (n0 :: n').length hl
  have hu : montStep w (n0 :: n') mu (t0 :: t') = ((macRow w (t0 * mu % 2 ^ w) (n0 :: n') ((t0 :: t').take (n0 :: n').length) 0).1 ++
    propagate w ((t0 :: t').drop (n0 :: n').length) (macRow w (t0 * mu % 2 ^ w) (n0 :: n') ((t0 :: t').take (n0 :: n').length) 0).2).tail := rfl
  rw [hu]
  set r := macRow w (t0 * mu % 2 ^ w) (n0 :: n') ((t0 :: t').take (n0 :: n').length) 0 with hrdef
  have hhead : r.1.headD 0 = 0 := by
    rw [hrdef]
    simp only [List.length_cons, List.take_succ_cons, macRow, mac, List.headD_cons, Nat.add_zero]
    have h1 : (t0 * mu % 2 ^ w * n0 + t0) % 2 ^ w = (t0 * (limbAt (n0 :: n') 0 * mu + 1)) % 2 ^ w := by
      conv_lhs => rw [Nat.add_mod, Nat.mod_mul_mod, ← Nat.add_mod]
      congr 1
      show t0 * mu * n0 + t0 = t0 * (n0 * mu + 1)
      ring
    rw [h1, Nat.mul_mod, hmu]; simp
  have hrne : r.1 ≠ [] := by intro h; rw [h] at hrl; simp at hrl
  have hlen : (r.1 ++ propagate w ((t0 :: t').drop (n0 :: n').length) r.2).length = (t0 :: t').length := by
    simp only [List.length_append, hrl, length_propagate, List.length_drop]; omega
  refine ⟨fun hfit => ?_, ?_, ?_⟩
  · have hv := val_headD_tail w (r.1 ++ propagate w ((t0 :: t').drop (n0 :: n').length) r.2)
    have hh : (r.1 ++ propagate w ((t0 :: t').drop (n0 :: n').length) r.2).headD 0 = 0 := by
      obtain ⟨a, l, ha⟩ : ∃ a l, r.1 = a :: l := by cases h : r.1 <;> simp_all
      rw [ha] at hhead ⊢; exact hhead
    rw [hh, Nat.zero_add] at hv
    rw [← hv, val_append, propagate_value, hrl, List.length_drop]
    rw [Nat.mod_eq_of_lt]
    · linear_combination hr - hsplit
    · refine Nat.lt_of_mul_lt_mul_left (a := 2 ^ (w * (n0 :: n').length)) ?_
      rw [← Nat.pow_add, ← Nat.mul_add, Nat.add_sub_of_le hl]
      refine Nat.lt_of_le_of_lt ?_ hfit
      have : 2 ^ (w * (n0 :: n').length) * (val w ((t0 :: t').drop (n0 :: n').length) + r.2) + val w r.1
          = val w (t0 :: t') + t0 * mu % 2 ^ w * val w (n0 :: n') := by linear_combination hr - hsplit
      omega
  · rw [List.length_tail, hlen]; simp
  · exact limbsFit_tail ((limbsFit_append _ _ _).2 ⟨hrf, limbsFit_propagate _ _ _⟩)

/-! ## The inverse of a limb (R118) -/

/-- Each turn of the iteration doubles the number of correct low bits. -/
theorem newtonStep_doubles {w n0 x k : Nat} (h : n0 * x % 2 ^ k = 1 % 2 ^ k) (hk : 2 * k ≤ w) :
    n0 * newtonStep w n0 x % 2 ^ (2 * k) = 1 % 2 ^ (2 * k) := by
  have hdvd : (2 : Int) ^ (2 * k) ∣ 2 ^ w := pow_dvd_pow 2 hk
  have h1 : (2 : Int) ^ k ∣ (n0 : Int) * x - 1 := by
    have : ((n0 * x : Nat) : Int) ≡ ((1 : Nat) : Int) [ZMOD ((2 ^ k : Nat) : Int)] := by
      rw [Int.natCast_modEq_iff]; exact h
    have := Int.ModEq.dvd this.symm
    simpa using this
  have hb : n0 * x % 2 ^ w ≤ 2 ^ w := (Nat.mod_lt _ (Nat.two_pow_pos w)).le
  have e1 : ((newtonStep w n0 x : Nat) : Int) ≡ x * (2 - n0 * x) [ZMOD (2 ^ w : Int)] := by
    unfold newtonStep
    have hs : ((2 + 2 ^ w - n0 * x % 2 ^ w : Nat) : Int) = 2 + 2 ^ w - (n0 * x : Int) % 2 ^ w := by
      rw [Nat.cast_sub (by omega)]; push_cast; ring
    push_cast
    rw [hs]
    have hm : (2 : Int) + 2 ^ w - (n0 * x : Int) % 2 ^ w ≡ 2 - n0 * x [ZMOD (2 ^ w : Int)] := by
      refine Int.ModEq.sub ?_ (Int.mod_modEq _ _)
      simp [Int.ModEq]
    exact (Int.mod_modEq _ _).trans ((Int.ModEq.refl _).mul ((Int.mod_modEq _ _).trans hm))
  have e2 : (n0 : Int) * newtonStep w n0 x ≡ n0 * (x * (2 - n0 * x)) [ZMOD (2 ^ (2 * k) : Int)] :=
    ((Int.ModEq.refl (n0 : Int)).mul e1).of_dvd hdvd
  have e3 : (n0 : Int) * (x * (2 - n0 * x)) ≡ 1 [ZMOD (2 ^ (2 * k) : Int)] := by
    refine (Int.modEq_iff_dvd.2 ?_)
    obtain ⟨d, hd⟩ := h1
    refine ⟨d ^ 2, ?_⟩
    have : (2 : Int) ^ (2 * k) = (2 ^ k) ^ 2 := by rw [Nat.mul_comm, pow_mul]
    rw [this, ← mul_pow, ← hd]; ring
  have := e2.trans e3
  have h4 : ((n0 * newtonStep w n0 x : Nat) : Int) ≡ ((1 : Nat) : Int) [ZMOD ((2 ^ (2 * k) : Nat) : Int)] := by
    push_cast; exact this
  exact (Int.natCast_modEq_iff.1 h4)

end Sys2Proof.Machine
end

