-- ==== Sys2Proof/Laws/PerInstr.lean ====
section
/-! SUPPORT. Statements made per instruction. Family `EncodedFields`: the encoding of a well-formed command carries the opcode
of R85 in its opcode field, its operands in the fields of R81, and 0 in every field its format does not use (R83). -/

namespace Sys2Proof.Laws.EncodedFields

/-- Opcode, used fields and must-be-zero fields of the encoding of a well-formed command. -/
def Statement (i : Instr) : Prop :=
  i.wellFormed = true →
    Field.opc.get (encode i) = i.opcode.code ∧
    (∀ f ∈ i.opcode.format.mustBeZero, f.get (encode i) = 0) ∧
    i.opcode.build (encode i) = i

/-- Concatenation of bit vectors as numbers. -/
theorem toNat_append {m n : Nat} (a : BitVec m) (b : BitVec n) : (a ++ b).toNat = a.toNat * 2 ^ n + b.toNat := by
  rw [BitVec.toNat_append, ← Nat.shiftLeft_add_eq_or_of_lt b.isLt, Nat.shiftLeft_eq]

/-- `C = CW3 || CW2 || CW1 || CW0` as a number (R80). -/
theorem toNat_ofWords (cw0 cw1 cw2 cw3 : Word32) : (Command.ofWords cw0 cw1 cw2 cw3).toNat =
    ((cw3.toNat * 2 ^ 32 + cw2.toNat) * 2 ^ 32 + cw1.toNat) * 2 ^ 32 + cw0.toNat := by
  unfold Command.ofWords; rw [toNat_append, toNat_append, toNat_append]

/-- The nine fields of a command built from its four words, for operands that fit (R81, R89). -/
theorem fields {op ctx len rd ra rb bbits : Nat} {C : Command} (h1 : op < 2 ^ 8) (h2 : ctx < 2 ^ 4) (h3 : len < 2 ^ 16)
    (h4 : rd < 2 ^ 16) (h5 : ra < 2 ^ 16) (h6 : rb < 2 ^ 16) (h7 : bbits < 2 ^ 32)
    (hC : C = Command.ofWords (BitVec.ofNat 32 (op * 2 ^ 24 + ctx * 2 ^ 16 + len)) (BitVec.ofNat 32 (rd * 2 ^ 16 + ra))
      (BitVec.ofNat 32 (rb * 2 ^ 16)) (BitVec.ofNat 32 bbits)) :
    Field.opc.get C = op ∧ Field.z1.get C = 0 ∧ Field.ctx.get C = ctx ∧ Field.len.get C = len ∧ Field.rd.get C = rd ∧
    Field.ra.get C = ra ∧ Field.rb.get C = rb ∧ Field.z2.get C = 0 ∧ Field.bbits.get C = bbits := by
  have hn : C.toNat = ((bbits * 2 ^ 32 + rb * 2 ^ 16) * 2 ^ 32 + (rd * 2 ^ 16 + ra)) * 2 ^ 32 +
      (op * 2 ^ 24 + ctx * 2 ^ 16 + len) := by
    rw [hC, toNat_ofWords]
    simp only [BitVec.toNat_ofNat]
    rw [Nat.mod_eq_of_lt (by omega : bbits < 2 ^ 32), Nat.mod_eq_of_lt (by omega : rb * 2 ^ 16 < 2 ^ 32),
      Nat.mod_eq_of_lt (by omega : rd * 2 ^ 16 + ra < 2 ^ 32),
      Nat.mod_eq_of_lt (by omega : op * 2 ^ 24 + ctx * 2 ^ 16 + len < 2 ^ 32)]
  simp only [Field.get, Field.lo, Field.width, BitVec.extractLsb'_toNat, Nat.shiftRight_eq_div_pow, hn]
  refine ⟨?_, ?_, ?_, ?_, ?_, ?_, ?_, ?_, ?_⟩ <;> omega

/-- Every opcode fits its field. -/
theorem code_lt (o : Opcode) : o.code < 2 ^ 8 := by cases o <;> decide

/-- The operands of a well-formed command fit their fields (R81). -/
theorem operands_fit {i : Instr} (h : i.wellFormed = true) :
    i.operands.ctx < 2 ^ 4 ∧ i.operands.len < 2 ^ 16 ∧ i.operands.rd < 2 ^ 16 ∧ i.operands.ra < 2 ^ 16 ∧
    i.operands.rb < 2 ^ 16 ∧ i.operands.bbits < 2 ^ 32 := by
  cases i <;> simp only [Instr.wellFormed, fitsCtx, fitsLen, fitsAddr, fitsBBits, Bool.and_eq_true, decide_eq_true_eq] at h <;>
    simp [Instr.operands] <;> omega

/-- The nine fields of the encoding of a well-formed command. -/
theorem fields_encode {i : Instr} (h : i.wellFormed = true) :
    Field.opc.get (encode i) = i.opcode.code ∧ Field.z1.get (encode i) = 0 ∧ Field.ctx.get (encode i) = i.operands.ctx ∧
    Field.len.get (encode i) = i.operands.len ∧ Field.rd.get (encode i) = i.operands.rd ∧
    Field.ra.get (encode i) = i.operands.ra ∧ Field.rb.get (encode i) = i.operands.rb ∧ Field.z2.get (encode i) = 0 ∧
    Field.bbits.get (encode i) = i.operands.bbits :=
  have f := operands_fit h
  fields (code_lt _) f.1 f.2.1 f.2.2.1 f.2.2.2.1 f.2.2.2.2.1 f.2.2.2.2.2 rfl

theorem chkmod (ra len : Nat) : Statement (.chkmod ra len) := by
  intro h
  obtain ⟨h1, h2, h3, h4, h5, h6, h7, h8, h9⟩ := fields_encode h
  refine ⟨h1, ?_, ?_⟩ <;> simp [Instr.opcode, Opcode.format, Format.mustBeZero, Opcode.build, *] <;> simp [Instr.operands]

theorem init (ctx ra len : Nat) : Statement (.init ctx ra len) := by
  intro h
  obtain ⟨h1, h2, h3, h4, h5, h6, h7, h8, h9⟩ := fields_encode h
  refine ⟨h1, ?_, ?_⟩ <;> simp [Instr.opcode, Opcode.format, Format.mustBeZero, Opcode.build, *] <;> simp [Instr.operands]

theorem free (ctx : Nat) : Statement (.free ctx) := by
  intro h
  obtain ⟨h1, h2, h3, h4, h5, h6, h7, h8, h9⟩ := fields_encode h
  refine ⟨h1, ?_, ?_⟩ <;> simp [Instr.opcode, Opcode.format, Format.mustBeZero, Opcode.build, *] <;> simp [Instr.operands]

theorem getlen (ctx : Nat) : Statement (.getlen ctx) := by
  intro h
  obtain ⟨h1, h2, h3, h4, h5, h6, h7, h8, h9⟩ := fields_encode h
  refine ⟨h1, ?_, ?_⟩ <;> simp [Instr.opcode, Opcode.format, Format.mustBeZero, Opcode.build, *] <;> simp [Instr.operands]

theorem tofield (ctx rd ra : Nat) : Statement (.tofield ctx rd ra) := by
  intro h
  obtain ⟨h1, h2, h3, h4, h5, h6, h7, h8, h9⟩ := fields_encode h
  refine ⟨h1, ?_, ?_⟩ <;> simp [Instr.opcode, Opcode.format, Format.mustBeZero, Opcode.build, *] <;> simp [Instr.operands]

theorem fromfield (ctx rd ra : Nat) : Statement (.fromfield ctx rd ra) := by
  intro h
  obtain ⟨h1, h2, h3, h4, h5, h6, h7, h8, h9⟩ := fields_encode h
  refine ⟨h1, ?_, ?_⟩ <;> simp [Instr.opcode, Opcode.format, Format.mustBeZero, Opcode.build, *] <;> simp [Instr.operands]

theorem one (ctx rd : Nat) : Statement (.one ctx rd) := by
  intro h
  obtain ⟨h1, h2, h3, h4, h5, h6, h7, h8, h9⟩ := fields_encode h
  refine ⟨h1, ?_, ?_⟩ <;> simp [Instr.opcode, Opcode.format, Format.mustBeZero, Opcode.build, *] <;> simp [Instr.operands]

theorem add (ctx rd ra rb : Nat) : Statement (.add ctx rd ra rb) := by
  intro h
  obtain ⟨h1, h2, h3, h4, h5, h6, h7, h8, h9⟩ := fields_encode h
  refine ⟨h1, ?_, ?_⟩ <;> simp [Instr.opcode, Opcode.format, Format.mustBeZero, Opcode.build, *] <;> simp [Instr.operands]

theorem sub (ctx rd ra rb : Nat) : Statement (.sub ctx rd ra rb) := by
  intro h
  obtain ⟨h1, h2, h3, h4, h5, h6, h7, h8, h9⟩ := fields_encode h
  refine ⟨h1, ?_, ?_⟩ <;> simp [Instr.opcode, Opcode.format, Format.mustBeZero, Opcode.build, *] <;> simp [Instr.operands]

theorem mul (ctx rd ra rb : Nat) : Statement (.mul ctx rd ra rb) := by
  intro h
  obtain ⟨h1, h2, h3, h4, h5, h6, h7, h8, h9⟩ := fields_encode h
  refine ⟨h1, ?_, ?_⟩ <;> simp [Instr.opcode, Opcode.format, Format.mustBeZero, Opcode.build, *] <;> simp [Instr.operands]

theorem sqr (ctx rd ra : Nat) : Statement (.sqr ctx rd ra) := by
  intro h
  obtain ⟨h1, h2, h3, h4, h5, h6, h7, h8, h9⟩ := fields_encode h
  refine ⟨h1, ?_, ?_⟩ <;> simp [Instr.opcode, Opcode.format, Format.mustBeZero, Opcode.build, *] <;> simp [Instr.operands]

theorem expct (ctx rd ra rb bbits : Nat) : Statement (.expct ctx rd ra rb bbits) := by
  intro h
  obtain ⟨h1, h2, h3, h4, h5, h6, h7, h8, h9⟩ := fields_encode h
  refine ⟨h1, ?_, ?_⟩ <;> simp [Instr.opcode, Opcode.format, Format.mustBeZero, Opcode.build, *] <;> simp [Instr.operands]

theorem expvt (ctx rd ra rb bbits : Nat) : Statement (.expvt ctx rd ra rb bbits) := by
  intro h
  obtain ⟨h1, h2, h3, h4, h5, h6, h7, h8, h9⟩ := fields_encode h
  refine ⟨h1, ?_, ?_⟩ <;> simp [Instr.opcode, Opcode.format, Format.mustBeZero, Opcode.build, *] <;> simp [Instr.operands]

theorem inv (ctx rd ra : Nat) : Statement (.inv ctx rd ra) := by
  intro h
  obtain ⟨h1, h2, h3, h4, h5, h6, h7, h8, h9⟩ := fields_encode h
  refine ⟨h1, ?_, ?_⟩ <;> simp [Instr.opcode, Opcode.format, Format.mustBeZero, Opcode.build, *] <;> simp [Instr.operands]

end Sys2Proof.Laws.EncodedFields
end

