-- ==== Sys2Proof/Laws/Decode.lean ====
section
/-! SUPPORT. What the decoder can answer, said once: it accepts exactly the commands whose opcode is one of the 14 and whose
must-be-zero fields are 0, and the nine fields determine a command (R81, R86, R92). -/

namespace Sys2Proof

theorem opcodeOf_code (o : Opcode) : opcodeOf o.code = some o := by cases o <;> rfl

theorem opcodeOf_eq_some {n : Nat} {o : Opcode} : opcodeOf n = some o ↔ n = o.code := by
  constructor
  · intro h
    unfold opcodeOf at h
    have : (o.code == n) = true := List.find?_some (p := fun o : Opcode => o.code == n) h
    exact (beq_iff_eq.1 this).symm
  · rintro rfl; exact opcodeOf_code o

/-- Everything the decoder can answer. -/
theorem decode_cases (c : Command) :
    (∃ r, decode c = .error r ∧ ((∀ o : Opcode, Field.opc.get c ≠ o.code) ∨
      ∃ o : Opcode, Field.opc.get c = o.code ∧ ∃ f ∈ o.format.mustBeZero, f.get c ≠ 0)) ∨
    ∃ o : Opcode, Field.opc.get c = o.code ∧ (∀ f ∈ o.format.mustBeZero, f.get c = 0) ∧ decode c = .ok (o.build c) := by
  cases ho : opcodeOf (Field.opc.get c) with
  | none =>
    refine .inl ⟨.reservedOpcode (Field.opc.get c), by simp only [decode, ho], .inl fun o h => ?_⟩
    rw [opcodeOf_eq_some.2 h] at ho; cases ho
  | some o =>
    have hc := opcodeOf_eq_some.1 ho
    cases hf : o.format.mustBeZero.find? (fun f => f.get c != 0) with
    | some f =>
      refine .inl ⟨.nonzeroField f, by simp only [decode, ho, hf], .inr ⟨o, hc, f, List.mem_of_find?_eq_some hf, ?_⟩⟩
      simpa using List.find?_some hf
    | none =>
      refine .inr ⟨o, hc, fun f hm => ?_, by simp only [decode, ho, hf]⟩
      rw [List.find?_eq_none] at hf; simpa using hf f hm

/-- Two opcodes with one code are one. -/
theorem Opcode.code_inj {o p : Opcode} (h : o.code = p.code) : o = p :=
  Option.some.inj ((opcodeOf_code o).symm.trans ((congrArg opcodeOf h).trans (opcodeOf_code p)))

/-- When a command is legal, and the instruction it is (R86, R92). -/
theorem decode_ok_iff {c : Command} {i : Instr} : decode c = .ok i ↔
    ∃ o : Opcode, Field.opc.get c = o.code ∧ (∀ f ∈ o.format.mustBeZero, f.get c = 0) ∧ o.build c = i := by
  constructor
  · intro h
    rcases decode_cases c with ⟨r, hr, -⟩ | ⟨o, h1, h2, h3⟩
    · rw [hr] at h; cases h
    · rw [h3] at h; exact ⟨o, h1, h2, Except.ok.inj h⟩
  · rintro ⟨o, h1, h2, rfl⟩
    rcases decode_cases c with ⟨r, hr, h | ⟨p, hp, f, hf, hz⟩⟩ | ⟨p, hp, -, h⟩
    · exact absurd h1 (h o)
    · obtain rfl := Opcode.code_inj (h1.symm.trans hp); exact absurd (h2 f hf) hz
    · obtain rfl := Opcode.code_inj (h1.symm.trans hp); exact h

theorem Field.get_lt (f : Field) (c : Command) : f.get c < 2 ^ f.width := (c.extractLsb' f.lo f.width).isLt

/-- One bit of a command lies in the field whose range holds it. -/
theorem Field.get_bit (f : Field) (c : Command) {i : Nat} (h : i < f.width) :
    (f.get c).testBit i = c.getLsbD (f.lo + i) := by
  have : (f.get c).testBit i = (c.extractLsb' f.lo f.width).getLsbD i := rfl
  rw [this, BitVec.getLsbD_extractLsb']; simp [h]

/-- The nine fields determine a command: they cover all 128 bits (R81). -/
theorem Field.get_ext {c d : Command} (h : ∀ f : Field, f.get c = f.get d) : c = d := by
  have bit : ∀ (f : Field) (i : Nat), f.lo ≤ i → i < f.lo + f.width → c.getLsbD i = d.getLsbD i := by
    intro f i h1 h2
    have := f.get_bit c (i := i - f.lo) (by omega)
    rw [h f, f.get_bit d (by omega), Nat.add_sub_cancel' h1] at this
    exact this.symm
  apply BitVec.eq_of_getLsbD_eq
  intro i hi
  have : i < 16 ∨ (16 ≤ i ∧ i < 20) ∨ (20 ≤ i ∧ i < 24) ∨ (24 ≤ i ∧ i < 32) ∨ (32 ≤ i ∧ i < 48) ∨ (48 ≤ i ∧ i < 64) ∨
      (64 ≤ i ∧ i < 80) ∨ (80 ≤ i ∧ i < 96) ∨ 96 ≤ i := by omega
  rcases this with h | h | h | h | h | h | h | h | h
  · exact bit .len i (Nat.zero_le _) (by simpa [Field.lo, Field.width] using h)
  · exact bit .ctx i h.1 h.2
  · exact bit .z1 i h.1 h.2
  · exact bit .opc i h.1 h.2
  · exact bit .ra i h.1 h.2
  · exact bit .rd i h.1 h.2
  · exact bit .z2 i h.1 h.2
  · exact bit .rb i h.1 h.2
  · exact bit .bbits i h hi

/-! ## The opcode table (R91) -/

/-- A bit position lies in a field. -/
abbrev Field.covers (f : Field) (i : Nat) : Bool := decide (f.lo ≤ i ∧ i < f.lo + f.width)

/-- The mask of every row covers the opcode and the must-be-zero fields of its format, and nothing else. -/
theorem mask_bit : ∀ r ∈ opcodeTable, ∀ i < 128,
    r.mask.getLsbD i = (Field.opc :: r.opcode.format.mustBeZero).any fun f => f.covers i := by decide +kernel

/-- The pattern of every row is its opcode in the opcode field. -/
theorem pattern_bit : ∀ r ∈ opcodeTable, ∀ i < 128,
    r.pattern.getLsbD i = (Field.opc.covers i && r.opcode.code.testBit (i - 24)) := by decide +kernel

/-- The opcode field is no must-be-zero field, nor does it meet one. -/
theorem opc_apart : ∀ o ∈ Opcode.all, ∀ f ∈ o.format.mustBeZero, f.lo + f.width ≤ 24 ∨ 32 ≤ f.lo := by decide

theorem Opcode.mem_all (o : Opcode) : o ∈ Opcode.all := by cases o <;> decide

theorem Field.top_le (f : Field) : f.lo + f.width ≤ 128 := by cases f <;> decide

/-- A row of the table selects exactly the legal commands of its opcode (R91). -/
theorem selects_iff {r : OpcodeRow} (hr : r ∈ opcodeTable) (c : Command) :
    r.selects c = true ↔ Field.opc.get c = r.opcode.code ∧ ∀ f ∈ r.opcode.format.mustBeZero, f.get c = 0 := by
  have bits : r.selects c = true ↔ ∀ i < 128, (c.getLsbD i && r.mask.getLsbD i) = r.pattern.getLsbD i := by
    rw [OpcodeRow.selects, beq_iff_eq]
    constructor
    · intro h i _; rw [← h, BitVec.getLsbD_and]
    · intro h; apply BitVec.eq_of_getLsbD_eq; intro i hi; rw [BitVec.getLsbD_and, h i hi]
  rw [bits]
  constructor
  · intro h
    refine ⟨Nat.eq_of_testBit_eq fun j => ?_, fun f hf => Nat.eq_of_testBit_eq fun j => ?_⟩
    · by_cases hj : j < 8
      · have := h (24 + j) (by omega)
        rw [mask_bit r hr _ (by omega), pattern_bit r hr _ (by omega)] at this
        have hc : Field.opc.covers (24 + j) = true := by simp [Field.covers, Field.lo, Field.width]; omega
        rw [List.any_cons, hc, Bool.true_or, Bool.and_true, Bool.true_and, Nat.add_sub_cancel_left] at this
        rw [Field.get_bit _ _ hj]; exact this
      · rw [Nat.testBit_lt_two_pow (Nat.lt_of_lt_of_le (Field.get_lt .opc c) (Nat.pow_le_pow_right (by omega) (by simp [Field.width]; omega))),
          Nat.testBit_lt_two_pow (Nat.lt_of_lt_of_le (Laws.EncodedFields.code_lt _) (Nat.pow_le_pow_right (by omega) (by omega)))]
    · rw [Nat.zero_testBit]
      by_cases hj : j < f.width
      · have ht := f.top_le
        have ha := opc_apart _ r.opcode.mem_all f hf
        have := h (f.lo + j) (by omega)
        rw [mask_bit r hr _ (by omega), pattern_bit r hr _ (by omega)] at this
        have h1 : (Field.opc :: r.opcode.format.mustBeZero).any (fun f' => f'.covers (f.lo + j)) = true :=
          List.any_eq_true.2 ⟨f, List.mem_cons_of_mem _ hf, by simp [Field.covers, hj]⟩
        have h2 : Field.opc.covers (f.lo + j) = false := by simp only [Field.covers, decide_eq_false_iff_not, Field.lo.eq_1, Field.width.eq_1]; omega
        rw [h1, h2] at this
        rw [Field.get_bit _ _ hj]; simpa using this
      · exact Nat.testBit_lt_two_pow (Nat.lt_of_lt_of_le (Field.get_lt f c) (Nat.pow_le_pow_right (by omega) (by omega)))
  · rintro ⟨h1, h2⟩ i hi
    rw [mask_bit r hr i hi, pattern_bit r hr i hi]
    cases ho : Field.opc.covers i with
    | true =>
      have hb : 24 ≤ i ∧ i < 32 := of_decide_eq_true ho
      have := Field.get_bit .opc c (i := i - 24) (by simp [Field.width]; omega)
      rw [h1, show Field.opc.lo + (i - 24) = i from Nat.add_sub_cancel' hb.1] at this
      rw [List.any_cons, ho, Bool.true_or, Bool.and_true, Bool.true_and, this]
    | false =>
      cases hm : c.getLsbD i with
      | false => simp
      | true =>
        simp only [List.any_cons, ho, Bool.false_or, Bool.true_and, Bool.false_and, List.any_eq_false]
        intro f hf hc
        have hc : f.lo ≤ i ∧ i < f.lo + f.width := by simpa [Field.covers] using hc
        have := f.get_bit c (i := i - f.lo) (by omega)
        rw [h2 f hf, Nat.add_sub_cancel' hc.1, hm, Nat.zero_testBit] at this
        cases this

end Sys2Proof
end

