-- ==== Sys2Proof/Laws/Memory.lean ====
section
/-! SUPPORT. Limb memory: every write keeps the canonical form and the bound, a byte or limb read back is the last one written,
and a write leaves every other byte alone. -/

namespace Sys2Proof.Machine

/-! ## Bytes -/

theorem Memory.getByte_below {lo a : Nat} {m : Memory} (h : Memory.wfFrom lo m = true) (ha : a < lo) :
    m.getByte a = 0 := by
  induction m generalizing lo with
  | nil => rfl
  | cons c m ih =>
    obtain ⟨b, u⟩ := c
    simp only [Memory.wfFrom, Bool.and_eq_true, decide_eq_true_eq] at h
    rw [Memory.getByte, if_neg (by omega), ih h.2 (by omega)]

theorem Memory.wfFrom_mono {lo lo' : Nat} {m : Memory} (h : Memory.wfFrom lo m = true) (hl : lo' ≤ lo) :
    Memory.wfFrom lo' m = true := by
  cases m with
  | nil => rfl
  | cons c m =>
    obtain ⟨b, u⟩ := c
    simp only [Memory.wfFrom, Bool.and_eq_true, decide_eq_true_eq] at h ⊢
    exact ⟨⟨by omega, h.1.2⟩, h.2⟩

theorem Memory.getByte_setByte_ne {m : Memory} {a b : Nat} (v : Byte) (h : b ≠ a) :
    (m.setByte a v).getByte b = m.getByte b := by
  induction m with
  | nil => unfold Memory.setByte; split <;> simp [Memory.getByte, h]
  | cons c m ih =>
    obtain ⟨d, u⟩ := c
    unfold Memory.setByte
    split
    · split <;> simp [Memory.getByte, h]
    · split
      · subst a; split <;> simp [Memory.getByte, h]
      · simp [Memory.getByte, ih]

theorem Memory.getByte_setByte_same {lo a : Nat} {m : Memory} (v : Byte) (h : Memory.wfFrom lo m = true) :
    (m.setByte a v).getByte a = v := by
  induction m generalizing lo with
  | nil => unfold Memory.setByte; split <;> simp_all [Memory.getByte]
  | cons c m ih =>
    obtain ⟨d, u⟩ := c
    have h' := h
    simp only [Memory.wfFrom, Bool.and_eq_true, decide_eq_true_eq] at h'
    unfold Memory.setByte
    split
    · split
      · rw [Memory.getByte, if_neg (by omega), Memory.getByte_below h'.2 (by omega)]; simp_all
      · simp [Memory.getByte]
    · split
      · subst a
        split
        · rw [Memory.getByte_below h'.2 (by omega)]; simp_all
        · simp [Memory.getByte]
      · rename_i hn; simp [Memory.getByte, hn, ih h'.2]

theorem Memory.wfFrom_setByte {lo a : Nat} {m : Memory} (v : Byte) (h : Memory.wfFrom lo m = true) (ha : lo ≤ a) :
    Memory.wfFrom lo (m.setByte a v) = true := by
  induction m generalizing lo with
  | nil => unfold Memory.setByte; split <;> simp_all [Memory.wfFrom]
  | cons c m ih =>
    obtain ⟨d, u⟩ := c
    have h' := h
    simp only [Memory.wfFrom, Bool.and_eq_true, decide_eq_true_eq] at h'
    unfold Memory.setByte
    split
    · split
      · exact h
      · simp only [Memory.wfFrom, Bool.and_eq_true, decide_eq_true_eq]
        exact ⟨⟨ha, by simpa using ‹¬v = 0›⟩, ⟨by omega, h'.1.2⟩, h'.2⟩
    · split
      · subst a
        split
        · exact Memory.wfFrom_mono h'.2 (by omega)
        · simp only [Memory.wfFrom, Bool.and_eq_true, decide_eq_true_eq]
          exact ⟨⟨ha, by simpa using ‹¬v = 0›⟩, h'.2⟩
      · simp only [Memory.wfFrom, Bool.and_eq_true, decide_eq_true_eq]
        exact ⟨h'.1, ih h'.2 (by omega)⟩

theorem Memory.wf_setByte {m : Memory} (a : Nat) (v : Byte) (h : m.wf = true) : (m.setByte a v).wf = true :=
  Memory.wfFrom_setByte v h (Nat.zero_le a)

theorem Memory.within_setByte {m : Memory} {a top : Nat} (v : Byte) (h : m.within top = true) (ha : a < top) :
    (m.setByte a v).within top = true := by
  induction m with
  | nil => unfold Memory.setByte; split <;> simp_all [Memory.within]
  | cons c m ih =>
    obtain ⟨d, u⟩ := c
    simp only [Memory.within, List.all_cons, Bool.and_eq_true, decide_eq_true_eq] at h ih ⊢
    unfold Memory.setByte
    split
    · split <;> simp_all <;> exact h.2
    · split
      · split <;> simp_all <;> exact h.2
      · simp only [List.all_cons, Bool.and_eq_true, decide_eq_true_eq]; exact ⟨h.1, ih h.2⟩

/-- Equal bytes are equal memories: the form is canonical. -/
theorem Memory.wfFrom_ext {lo : Nat} {m m' : Memory} (h : Memory.wfFrom lo m = true) (h' : Memory.wfFrom lo m' = true)
    (e : ∀ a, m.getByte a = m'.getByte a) : m = m' := by
  induction m generalizing lo m' with
  | nil =>
    cases m' with
    | nil => rfl
    | cons c m' =>
      obtain ⟨d, u⟩ := c
      simp only [Memory.wfFrom, Bool.and_eq_true, decide_eq_true_eq] at h'
      have := e d
      simp [Memory.getByte] at this
      simp [← this] at h'
  | cons c m ih =>
    obtain ⟨d, u⟩ := c
    have hh := h
    simp only [Memory.wfFrom, Bool.and_eq_true, decide_eq_true_eq] at h
    cases m' with
    | nil =>
      have := e d
      simp [Memory.getByte] at this
      simp [this] at h
    | cons c' m' =>
      obtain ⟨d', u'⟩ := c'
      have hh' := h'
      simp only [Memory.wfFrom, Bool.and_eq_true, decide_eq_true_eq] at h'
      have hd : d = d' := by
        rcases Nat.lt_trichotomy d d' with hlt | heq | hgt
        · have := e d
          rw [Memory.getByte, if_pos rfl, Memory.getByte, if_neg (by omega),
            Memory.getByte_below h'.2 (by omega)] at this
          simp [this] at h
        · exact heq
        · have := e d'
          rw [Memory.getByte, if_neg (by omega), Memory.getByte_below h.2 (by omega), Memory.getByte, if_pos rfl] at this
          simp [← this] at h'
      subst hd
      have hu : u = u' := by simpa [Memory.getByte] using e d
      subst hu
      rw [ih (m' := m') (Memory.wfFrom_mono h.2 (Nat.le_refl _)) h'.2 (fun a => ?_)]
      by_cases ha : a = d
      · subst ha; rw [Memory.getByte_below h.2 (by omega), Memory.getByte_below h'.2 (by omega)]
      · simpa [Memory.getByte, ha] using e a

/-! ## Little-endian numbers -/

theorem Memory.wf_writeLE {m : Memory} (a k v : Nat) (h : m.wf = true) : (m.writeLE a k v).wf = true := by
  induction k generalizing m a v with
  | zero => exact h
  | succ k ih => exact ih _ _ (Memory.wf_setByte a _ h)

theorem Memory.within_writeLE {m : Memory} {a k top : Nat} (v : Nat) (h : m.within top = true) (ha : a + k ≤ top) :
    (m.writeLE a k v).within top = true := by
  induction k generalizing m a v with
  | zero => exact h
  | succ k ih => exact ih _ (Memory.within_setByte _ h (by omega)) (by omega)

theorem Memory.getByte_writeLE_outside {m : Memory} {a k b : Nat} (v : Nat) (h : b < a ∨ a + k ≤ b) :
    (m.writeLE a k v).getByte b = m.getByte b := by
  induction k generalizing m a v with
  | zero => rfl
  | succ k ih => rw [Memory.writeLE, ih _ (by omega), Memory.getByte_setByte_ne _ (by omega)]

theorem Memory.getByte_writeLE_inside {m : Memory} {a k j : Nat} (v : Nat) (h : m.wf = true) (hj : j < k) :
    (m.writeLE a k v).getByte (a + j) = BitVec.ofNat 8 (v / 256 ^ j) := by
  induction k generalizing m a v j with
  | zero => omega
  | succ k ih =>
    rw [Memory.writeLE]
    cases j with
    | zero =>
      rw [Memory.getByte_writeLE_outside _ (by omega), Nat.add_zero, Memory.getByte_setByte_same _ h]; simp
    | succ j =>
      have := ih (a := a + 1) (j := j) (v / 256) (Memory.wf_setByte a (BitVec.ofNat 8 v) h) (by omega)
      rw [show a + (j + 1) = a + 1 + j by omega, this, Nat.div_div_eq_div_mul, Nat.pow_succ, Nat.mul_comm 256]

theorem Memory.readLE_lt (m : Memory) (a k : Nat) : m.readLE a k < 256 ^ k := by
  induction k generalizing a with
  | zero => simp [Memory.readLE]
  | succ k ih =>
    have h1 := ih (a + 1)
    have h2 := (m.getByte a).isLt
    rw [Memory.readLE, Nat.pow_succ]
    omega

theorem Memory.readLE_congr {m m' : Memory} {a k : Nat} (h : ∀ j, j < k → m.getByte (a + j) = m'.getByte (a + j)) :
    m.readLE a k = m'.readLE a k := by
  induction k generalizing a with
  | zero => rfl
  | succ k ih =>
    have h0 := h 0 (by omega)
    rw [Nat.add_zero] at h0
    rw [Memory.readLE, Memory.readLE, h0, ih (fun j hj => ?_)]
    have := h (j + 1) (by omega)
    rwa [show a + 1 + j = a + (j + 1) by omega]

/-- Byte `j` of the number holds its bits `8j+7 : 8j` (R52). -/
theorem Memory.readLE_byte (m : Memory) {a k j : Nat} (hj : j < k) :
    m.readLE a k / 256 ^ j % 256 = (m.getByte (a + j)).toNat := by
  induction k generalizing a j with
  | zero => omega
  | succ k ih =>
    have hb := (m.getByte a).isLt
    cases j with
    | zero => rw [Memory.readLE]; simp; omega
    | succ j =>
      have := ih (a := a + 1) (j := j) (by omega)
      rw [Memory.readLE, show a + (j + 1) = a + 1 + j by omega, ← this, Nat.pow_succ, Nat.mul_comm _ 256,
        ← Nat.div_div_eq_div_mul]
      congr 2; omega

theorem Memory.readLE_eq_of_bytes {m : Memory} {a k v : Nat}
    (h : ∀ j, j < k → m.getByte (a + j) = BitVec.ofNat 8 (v / 256 ^ j)) : m.readLE a k = v % 256 ^ k := by
  induction k generalizing a v with
  | zero => simp [Memory.readLE, Nat.mod_one]
  | succ k ih =>
    have h0 := h 0 (by omega)
    rw [Nat.add_zero] at h0
    rw [Memory.readLE, h0, ih (v := v / 256) (fun j hj => ?_)]
    · rw [Nat.pow_succ, Nat.mul_comm (256 ^ k), Nat.mod_mul]; simp
    · have := h (j + 1) (by omega)
      rw [show a + 1 + j = a + (j + 1) by omega, this, Nat.div_div_eq_div_mul, Nat.pow_succ, Nat.mul_comm 256]

theorem Memory.readLE_writeLE {m : Memory} (a k v : Nat) (h : m.wf = true) :
    (m.writeLE a k v).readLE a k = v % 256 ^ k :=
  Memory.readLE_eq_of_bytes fun _ hj => Memory.getByte_writeLE_inside v h hj

theorem Memory.readLE_split (m : Memory) (a k l : Nat) :
    m.readLE a (k + l) = m.readLE a k + 256 ^ k * m.readLE (a + k) l := by
  induction k generalizing a with
  | zero => simp [Memory.readLE]
  | succ k ih =>
    rw [show k + 1 + l = (k + l) + 1 by omega, Memory.readLE, Memory.readLE, ih, Nat.pow_succ,
      show a + 1 + k = a + (k + 1) by omega]
    ring

/-! ## Limbs -/

theorem pow_bytes (wd : LimbWidth) : 256 ^ wd.bytes = 2 ^ wd.bits := by cases wd <;> rfl

theorem bytes_pos (wd : LimbWidth) : 0 < wd.bytes := by cases wd <;> decide

theorem Memory.limb_lt (m : Memory) (wd : LimbWidth) (a : Nat) : m.limb wd a < 2 ^ wd.bits := by
  rw [← pow_bytes wd]; exact m.readLE_lt _ _

theorem Memory.wf_setLimb {m : Memory} (wd : LimbWidth) (a v : Nat) (h : m.wf = true) : (m.setLimb wd a v).wf = true :=
  Memory.wf_writeLE _ _ _ h

theorem Memory.limb_setLimb_same {m : Memory} (wd : LimbWidth) (a v : Nat) (h : m.wf = true) :
    (m.setLimb wd a v).limb wd a = v % 2 ^ wd.bits := by
  rw [← pow_bytes wd]; exact Memory.readLE_writeLE _ _ _ h

/-- A limb reads the same in two memories that agree on its bytes. -/
theorem Memory.limb_congr {m m' : Memory} {wd : LimbWidth} {a : Nat}
    (h : ∀ b, a * wd.bytes ≤ b → b < (a + 1) * wd.bytes → m.getByte b = m'.getByte b) : m.limb wd a = m'.limb wd a :=
  Memory.readLE_congr fun j hj => h _ (by omega) (by rw [Nat.add_mul]; omega)

@[simp] theorem Memory.length_readLimbs (m : Memory) (wd : LimbWidth) (a k : Nat) : (m.readLimbs wd a k).length = k := by
  induction k generalizing a with
  | zero => rfl
  | succ k ih => simp [Memory.readLimbs, ih]

theorem Memory.limbsFit_readLimbs (m : Memory) (wd : LimbWidth) (a k : Nat) :
    limbsFit wd.bits (m.readLimbs wd a k) = true := by
  induction k generalizing a with
  | zero => rfl
  | succ k ih =>
    have := ih (a + 1)
    simp only [limbsFit, Memory.readLimbs, List.all_cons, Bool.and_eq_true, decide_eq_true_eq] at this ⊢
    exact ⟨m.limb_lt wd a, this⟩

theorem Memory.readLimbs_congr {m m' : Memory} {wd : LimbWidth} {a k : Nat}
    (h : ∀ b, a * wd.bytes ≤ b → b < (a + k) * wd.bytes → m.getByte b = m'.getByte b) :
    m.readLimbs wd a k = m'.readLimbs wd a k := by
  induction k generalizing a with
  | zero => rfl
  | succ k ih =>
    have hp := bytes_pos wd
    rw [Memory.readLimbs, Memory.readLimbs, Memory.limb_congr (m' := m') (fun b h1 h2 => h b h1 ?_),
      ih (fun b h1 h2 => h b ?_ ?_)]
    · rw [Nat.add_mul] at h1; omega
    · rwa [show a + 1 + k = a + (k + 1) by omega] at h2
    · refine Nat.lt_of_lt_of_le h2 (Nat.mul_le_mul_right _ (by omega))

theorem Memory.wf_writeLimbs {m : Memory} (wd : LimbWidth) (a k : Nat) (v : List Nat) (h : m.wf = true) :
    (m.writeLimbs wd a k v).wf = true := by
  induction k generalizing m a v with
  | zero => exact h
  | succ k ih => exact ih _ _ (Memory.wf_setLimb _ _ _ h)

theorem Memory.within_writeLimbs {m : Memory} {wd : LimbWidth} {a k limbs : Nat} (v : List Nat)
    (h : m.within (limbs * wd.bytes) = true) (ha : a + k ≤ limbs) :
    (m.writeLimbs wd a k v).within (limbs * wd.bytes) = true := by
  induction k generalizing m a v with
  | zero => exact h
  | succ k ih =>
    refine ih _ (Memory.within_writeLE _ h ?_) (by omega)
    calc a * wd.bytes + wd.bytes = (a + 1) * wd.bytes := by ring
      _ ≤ limbs * wd.bytes := Nat.mul_le_mul_right _ (by omega)

theorem Memory.getByte_writeLimbs_outside {m : Memory} {wd : LimbWidth} {a k b : Nat} (v : List Nat)
    (h : b < a * wd.bytes ∨ (a + k) * wd.bytes ≤ b) : (m.writeLimbs wd a k v).getByte b = m.getByte b := by
  induction k generalizing m a v with
  | zero => rfl
  | succ k ih =>
    have e : (a + (k + 1)) * wd.bytes = a * wd.bytes + wd.bytes + k * wd.bytes := by ring
    have e' : (a + 1 + k) * wd.bytes = a * wd.bytes + wd.bytes + k * wd.bytes := by ring
    rw [e] at h
    rw [Memory.writeLimbs, ih _ (by rw [e', Nat.add_mul, Nat.one_mul]; omega), Memory.setLimb,
      Memory.getByte_writeLE_outside _ (by omega)]

/-- What was written to a range of limbs is what is read there (R51, R55). -/
theorem Memory.readLimbs_writeLimbs {m : Memory} (wd : LimbWidth) (a k : Nat) {v : List Nat} (h : m.wf = true)
    (hv : v.length = k) (hf : limbsFit wd.bits v = true) : (m.writeLimbs wd a k v).readLimbs wd a k = v := by
  induction k generalizing m a v with
  | zero => simp_all [Memory.readLimbs]
  | succ k ih =>
    obtain _ | ⟨x, v⟩ := v
    · simp at hv
    · simp only [limbsFit, List.all_cons, Bool.and_eq_true, decide_eq_true_eq] at hf
      rw [Memory.readLimbs, Memory.writeLimbs]
      have h1 : ((m.setLimb wd a x).writeLimbs wd (a + 1) k v).limb wd a = x := by
        rw [Memory.limb_congr (m' := m.setLimb wd a x) (fun b _ h2 => Memory.getByte_writeLimbs_outside _ (.inl h2)),
          Memory.limb_setLimb_same _ _ _ h, Nat.mod_eq_of_lt hf.1]
      simp only [List.headD_cons, List.tail_cons, h1]
      rw [ih (a + 1) (Memory.wf_setLimb _ _ _ h) (by simpa using hv) hf.2]

/-! ## On the state -/

@[simp] theorem State.length_memRead (s : State) (a k : Nat) : (s.memRead a k).length = k := Memory.length_readLimbs _ _ _ _

theorem State.limbsFit_memRead (s : State) (a k : Nat) : limbsFit s.cfg.w (s.memRead a k) = true :=
  Memory.limbsFit_readLimbs _ _ _ _

/-- A range of limbs reads the same in two states that agree on its bytes. -/
theorem State.memRead_congr {s t : State} {a k : Nat} (hc : t.cfg = s.cfg)
    (h : ∀ b, a * s.cfg.width.bytes ≤ b → b < (a + k) * s.cfg.width.bytes → t.mem.getByte b = s.mem.getByte b) :
    t.memRead a k = s.memRead a k := by
  unfold State.memRead; rw [hc]; exact Memory.readLimbs_congr h

/-- A range disjoint from the bytes a command wrote reads as before. -/
theorem State.memRead_kept {s t : State} {a k rd len : Nat} (hc : t.cfg = s.cfg) (h : bytesKeptOutside s t rd len)
    (hd : disjoint rd len a k) : t.memRead a k = s.memRead a k := by
  refine State.memRead_congr hc fun b h1 h2 => h b ?_
  rcases hd with hd | hd
  · exact .inr (Nat.le_trans (Nat.mul_le_mul_right _ hd) h1)
  · exact .inl (Nat.lt_of_lt_of_le h2 (Nat.mul_le_mul_right _ hd))

theorem State.bytesKeptOutside_memWrite (s : State) (rd len : Nat) (v : List Nat) :
    bytesKeptOutside s (s.memWrite rd len v) rd len := fun _ h => Memory.getByte_writeLimbs_outside v h

/-- `MemRead` after `MemWrite` of the same range (R14, R55). -/
theorem State.memRead_memWrite {s : State} {rd len : Nat} {v : List Nat} (h : s.mem.wf = true) (hv : v.length = len)
    (hf : limbsFit s.cfg.w v = true) : (s.memWrite rd len v).memRead rd len = v :=
  Memory.readLimbs_writeLimbs _ _ _ h hv hf

theorem State.reset_mem_wf (c : Config) : (State.resetOf c).mem.wf = true := rfl

end Sys2Proof.Machine
end

