-- ==== Sys2Proof/Laws/State.lean ====
section
/-! SUPPORT. One lemma for each field of the state under each named update, true by `rfl` and used by `simp`, so that no later
proof unfolds a record update. -/

namespace Sys2Proof.Machine

/-! ## memWrite -/

@[simp] theorem State.memWrite_cfg (s : State) (a : Nat) (k : Nat) (v : List Nat) : (s.memWrite a k v).cfg = s.cfg := rfl
@[simp] theorem State.memWrite_mem (s : State) (a : Nat) (k : Nat) (v : List Nat) : (s.memWrite a k v).mem = s.mem.writeLimbs s.cfg.width a k v := rfl
@[simp] theorem State.memWrite_slots (s : State) (a : Nat) (k : Nat) (v : List Nat) : (s.memWrite a k v).slots = s.slots := rfl
@[simp] theorem State.memWrite_cmd0 (s : State) (a : Nat) (k : Nat) (v : List Nat) : (s.memWrite a k v).cmd0 = s.cmd0 := rfl
@[simp] theorem State.memWrite_cmd1 (s : State) (a : Nat) (k : Nat) (v : List Nat) : (s.memWrite a k v).cmd1 = s.cmd1 := rfl
@[simp] theorem State.memWrite_cmd2 (s : State) (a : Nat) (k : Nat) (v : List Nat) : (s.memWrite a k v).cmd2 = s.cmd2 := rfl
@[simp] theorem State.memWrite_cmd3 (s : State) (a : Nat) (k : Nat) (v : List Nat) : (s.memWrite a k v).cmd3 = s.cmd3 := rfl
@[simp] theorem State.memWrite_busy (s : State) (a : Nat) (k : Nat) (v : List Nat) : (s.memWrite a k v).busy = s.busy := rfl
@[simp] theorem State.memWrite_done (s : State) (a : Nat) (k : Nat) (v : List Nat) : (s.memWrite a k v).done = s.done := rfl
@[simp] theorem State.memWrite_fault (s : State) (a : Nat) (k : Nat) (v : List Nat) : (s.memWrite a k v).fault = s.fault := rfl
@[simp] theorem State.memWrite_chk (s : State) (a : Nat) (k : Nat) (v : List Nat) : (s.memWrite a k v).chk = s.chk := rfl
@[simp] theorem State.memWrite_result (s : State) (a : Nat) (k : Nat) (v : List Nat) : (s.memWrite a k v).result = s.result := rfl
@[simp] theorem State.memWrite_faultCode (s : State) (a : Nat) (k : Nat) (v : List Nat) : (s.memWrite a k v).faultCode = s.faultCode := rfl
@[simp] theorem State.memWrite_faultInfo (s : State) (a : Nat) (k : Nat) (v : List Nat) : (s.memWrite a k v).faultInfo = s.faultInfo := rfl
@[simp] theorem State.memWrite_lc (s : State) (a : Nat) (k : Nat) (v : List Nat) : (s.memWrite a k v).lc = s.lc := rfl
@[simp] theorem State.memWrite_inputs (s : State) (a : Nat) (k : Nat) (v : List Nat) : (s.memWrite a k v).inputs = s.inputs := rfl
@[simp] theorem State.memWrite_replies (s : State) (a : Nat) (k : Nat) (v : List Nat) : (s.memWrite a k v).replies = s.replies := rfl
@[simp] theorem State.memWrite_freeCount (s : State) (a : Nat) (k : Nat) (v : List Nat) : (s.memWrite a k v).freeCount = s.freeCount := rfl

/-! ## setSlot -/

@[simp] theorem State.setSlot_cfg (s : State) (c : Nat) (t : Slot) : (s.setSlot c t).cfg = s.cfg := rfl
@[simp] theorem State.setSlot_mem (s : State) (c : Nat) (t : Slot) : (s.setSlot c t).mem = s.mem := rfl
@[simp] theorem State.setSlot_slots (s : State) (c : Nat) (t : Slot) : (s.setSlot c t).slots = s.slots.set c t := rfl
@[simp] theorem State.setSlot_cmd0 (s : State) (c : Nat) (t : Slot) : (s.setSlot c t).cmd0 = s.cmd0 := rfl
@[simp] theorem State.setSlot_cmd1 (s : State) (c : Nat) (t : Slot) : (s.setSlot c t).cmd1 = s.cmd1 := rfl
@[simp] theorem State.setSlot_cmd2 (s : State) (c : Nat) (t : Slot) : (s.setSlot c t).cmd2 = s.cmd2 := rfl
@[simp] theorem State.setSlot_cmd3 (s : State) (c : Nat) (t : Slot) : (s.setSlot c t).cmd3 = s.cmd3 := rfl
@[simp] theorem State.setSlot_busy (s : State) (c : Nat) (t : Slot) : (s.setSlot c t).busy = s.busy := rfl
@[simp] theorem State.setSlot_done (s : State) (c : Nat) (t : Slot) : (s.setSlot c t).done = s.done := rfl
@[simp] theorem State.setSlot_fault (s : State) (c : Nat) (t : Slot) : (s.setSlot c t).fault = s.fault := rfl
@[simp] theorem State.setSlot_chk (s : State) (c : Nat) (t : Slot) : (s.setSlot c t).chk = s.chk := rfl
@[simp] theorem State.setSlot_result (s : State) (c : Nat) (t : Slot) : (s.setSlot c t).result = s.result := rfl
@[simp] theorem State.setSlot_faultCode (s : State) (c : Nat) (t : Slot) : (s.setSlot c t).faultCode = s.faultCode := rfl
@[simp] theorem State.setSlot_faultInfo (s : State) (c : Nat) (t : Slot) : (s.setSlot c t).faultInfo = s.faultInfo := rfl
@[simp] theorem State.setSlot_lc (s : State) (c : Nat) (t : Slot) : (s.setSlot c t).lc = s.lc := rfl
@[simp] theorem State.setSlot_inputs (s : State) (c : Nat) (t : Slot) : (s.setSlot c t).inputs = s.inputs := rfl
@[simp] theorem State.setSlot_replies (s : State) (c : Nat) (t : Slot) : (s.setSlot c t).replies = s.replies := rfl
@[simp] theorem State.setSlot_freeCount (s : State) (c : Nat) (t : Slot) : (s.setSlot c t).freeCount = s.freeCount := rfl

/-! ## setResult -/

@[simp] theorem State.setResult_cfg (s : State) (v : Word32) : (s.setResult v).cfg = s.cfg := rfl
@[simp] theorem State.setResult_mem (s : State) (v : Word32) : (s.setResult v).mem = s.mem := rfl
@[simp] theorem State.setResult_slots (s : State) (v : Word32) : (s.setResult v).slots = s.slots := rfl
@[simp] theorem State.setResult_cmd0 (s : State) (v : Word32) : (s.setResult v).cmd0 = s.cmd0 := rfl
@[simp] theorem State.setResult_cmd1 (s : State) (v : Word32) : (s.setResult v).cmd1 = s.cmd1 := rfl
@[simp] theorem State.setResult_cmd2 (s : State) (v : Word32) : (s.setResult v).cmd2 = s.cmd2 := rfl
@[simp] theorem State.setResult_cmd3 (s : State) (v : Word32) : (s.setResult v).cmd3 = s.cmd3 := rfl
@[simp] theorem State.setResult_busy (s : State) (v : Word32) : (s.setResult v).busy = s.busy := rfl
@[simp] theorem State.setResult_done (s : State) (v : Word32) : (s.setResult v).done = s.done := rfl
@[simp] theorem State.setResult_fault (s : State) (v : Word32) : (s.setResult v).fault = s.fault := rfl
@[simp] theorem State.setResult_chk (s : State) (v : Word32) : (s.setResult v).chk = s.chk := rfl
@[simp] theorem State.setResult_result (s : State) (v : Word32) : (s.setResult v).result = v := rfl
@[simp] theorem State.setResult_faultCode (s : State) (v : Word32) : (s.setResult v).faultCode = s.faultCode := rfl
@[simp] theorem State.setResult_faultInfo (s : State) (v : Word32) : (s.setResult v).faultInfo = s.faultInfo := rfl
@[simp] theorem State.setResult_lc (s : State) (v : Word32) : (s.setResult v).lc = s.lc := rfl
@[simp] theorem State.setResult_inputs (s : State) (v : Word32) : (s.setResult v).inputs = s.inputs := rfl
@[simp] theorem State.setResult_replies (s : State) (v : Word32) : (s.setResult v).replies = s.replies := rfl
@[simp] theorem State.setResult_freeCount (s : State) (v : Word32) : (s.setResult v).freeCount = s.freeCount := rfl

/-! ## setChk -/

@[simp] theorem State.setChk_cfg (s : State) (f : Bool) : (s.setChk f).cfg = s.cfg := rfl
@[simp] theorem State.setChk_mem (s : State) (f : Bool) : (s.setChk f).mem = s.mem := rfl
@[simp] theorem State.setChk_slots (s : State) (f : Bool) : (s.setChk f).slots = s.slots := rfl
@[simp] theorem State.setChk_cmd0 (s : State) (f : Bool) : (s.setChk f).cmd0 = s.cmd0 := rfl
@[simp] theorem State.setChk_cmd1 (s : State) (f : Bool) : (s.setChk f).cmd1 = s.cmd1 := rfl
@[simp] theorem State.setChk_cmd2 (s : State) (f : Bool) : (s.setChk f).cmd2 = s.cmd2 := rfl
@[simp] theorem State.setChk_cmd3 (s : State) (f : Bool) : (s.setChk f).cmd3 = s.cmd3 := rfl
@[simp] theorem State.setChk_busy (s : State) (f : Bool) : (s.setChk f).busy = s.busy := rfl
@[simp] theorem State.setChk_done (s : State) (f : Bool) : (s.setChk f).done = s.done := rfl
@[simp] theorem State.setChk_fault (s : State) (f : Bool) : (s.setChk f).fault = s.fault := rfl
@[simp] theorem State.setChk_chk (s : State) (f : Bool) : (s.setChk f).chk = f := rfl
@[simp] theorem State.setChk_result (s : State) (f : Bool) : (s.setChk f).result = s.result := rfl
@[simp] theorem State.setChk_faultCode (s : State) (f : Bool) : (s.setChk f).faultCode = s.faultCode := rfl
@[simp] theorem State.setChk_faultInfo (s : State) (f : Bool) : (s.setChk f).faultInfo = s.faultInfo := rfl
@[simp] theorem State.setChk_lc (s : State) (f : Bool) : (s.setChk f).lc = s.lc := rfl
@[simp] theorem State.setChk_inputs (s : State) (f : Bool) : (s.setChk f).inputs = s.inputs := rfl
@[simp] theorem State.setChk_replies (s : State) (f : Bool) : (s.setChk f).replies = s.replies := rfl
@[simp] theorem State.setChk_freeCount (s : State) (f : Bool) : (s.setChk f).freeCount = s.freeCount := rfl

/-! ## issue -/

@[simp] theorem State.issue_cfg (s : State) : s.issue.cfg = s.cfg := rfl
@[simp] theorem State.issue_mem (s : State) : s.issue.mem = s.mem := rfl
@[simp] theorem State.issue_slots (s : State) : s.issue.slots = s.slots := rfl
@[simp] theorem State.issue_cmd0 (s : State) : s.issue.cmd0 = s.cmd0 := rfl
@[simp] theorem State.issue_cmd1 (s : State) : s.issue.cmd1 = s.cmd1 := rfl
@[simp] theorem State.issue_cmd2 (s : State) : s.issue.cmd2 = s.cmd2 := rfl
@[simp] theorem State.issue_cmd3 (s : State) : s.issue.cmd3 = s.cmd3 := rfl
@[simp] theorem State.issue_busy (s : State) : s.issue.busy = true := rfl
@[simp] theorem State.issue_done (s : State) : s.issue.done = false := rfl
@[simp] theorem State.issue_fault (s : State) : s.issue.fault = s.fault := rfl
@[simp] theorem State.issue_chk (s : State) : s.issue.chk = s.chk := rfl
@[simp] theorem State.issue_result (s : State) : s.issue.result = s.result := rfl
@[simp] theorem State.issue_faultCode (s : State) : s.issue.faultCode = s.faultCode := rfl
@[simp] theorem State.issue_faultInfo (s : State) : s.issue.faultInfo = s.faultInfo := rfl
@[simp] theorem State.issue_lc (s : State) : s.issue.lc = s.command := rfl
@[simp] theorem State.issue_inputs (s : State) : s.issue.inputs = s.inputs := rfl
@[simp] theorem State.issue_replies (s : State) : s.issue.replies = s.replies := rfl
@[simp] theorem State.issue_freeCount (s : State) : s.issue.freeCount = s.freeCount := rfl

/-! ## retire -/

@[simp] theorem State.retire_cfg (s : State) : s.retire.cfg = s.cfg := rfl
@[simp] theorem State.retire_mem (s : State) : s.retire.mem = s.mem := rfl
@[simp] theorem State.retire_slots (s : State) : s.retire.slots = s.slots := rfl
@[simp] theorem State.retire_cmd0 (s : State) : s.retire.cmd0 = s.cmd0 := rfl
@[simp] theorem State.retire_cmd1 (s : State) : s.retire.cmd1 = s.cmd1 := rfl
@[simp] theorem State.retire_cmd2 (s : State) : s.retire.cmd2 = s.cmd2 := rfl
@[simp] theorem State.retire_cmd3 (s : State) : s.retire.cmd3 = s.cmd3 := rfl
@[simp] theorem State.retire_busy (s : State) : s.retire.busy = false := rfl
@[simp] theorem State.retire_done (s : State) : s.retire.done = true := rfl
@[simp] theorem State.retire_fault (s : State) : s.retire.fault = s.fault := rfl
@[simp] theorem State.retire_chk (s : State) : s.retire.chk = s.chk := rfl
@[simp] theorem State.retire_result (s : State) : s.retire.result = s.result := rfl
@[simp] theorem State.retire_faultCode (s : State) : s.retire.faultCode = s.faultCode := rfl
@[simp] theorem State.retire_faultInfo (s : State) : s.retire.faultInfo = s.faultInfo := rfl
@[simp] theorem State.retire_lc (s : State) : s.retire.lc = s.lc := rfl
@[simp] theorem State.retire_inputs (s : State) : s.retire.inputs = s.inputs := rfl
@[simp] theorem State.retire_replies (s : State) : s.retire.replies = s.replies := rfl
@[simp] theorem State.retire_freeCount (s : State) : s.retire.freeCount = s.freeCount := rfl

/-! ## trap -/

@[simp] theorem State.trap_cfg (s : State) (f : FaultCode) : (s.trap f).cfg = s.cfg := rfl
@[simp] theorem State.trap_mem (s : State) (f : FaultCode) : (s.trap f).mem = s.mem := rfl
@[simp] theorem State.trap_slots (s : State) (f : FaultCode) : (s.trap f).slots = s.slots := rfl
@[simp] theorem State.trap_cmd0 (s : State) (f : FaultCode) : (s.trap f).cmd0 = s.cmd0 := rfl
@[simp] theorem State.trap_cmd1 (s : State) (f : FaultCode) : (s.trap f).cmd1 = s.cmd1 := rfl
@[simp] theorem State.trap_cmd2 (s : State) (f : FaultCode) : (s.trap f).cmd2 = s.cmd2 := rfl
@[simp] theorem State.trap_cmd3 (s : State) (f : FaultCode) : (s.trap f).cmd3 = s.cmd3 := rfl
@[simp] theorem State.trap_busy (s : State) (f : FaultCode) : (s.trap f).busy = false := rfl
@[simp] theorem State.trap_done (s : State) (f : FaultCode) : (s.trap f).done = s.done := rfl
@[simp] theorem State.trap_fault (s : State) (f : FaultCode) : (s.trap f).fault = true := rfl
@[simp] theorem State.trap_chk (s : State) (f : FaultCode) : (s.trap f).chk = s.chk := rfl
@[simp] theorem State.trap_result (s : State) (f : FaultCode) : (s.trap f).result = s.result := rfl
@[simp] theorem State.trap_faultCode (s : State) (f : FaultCode) : (s.trap f).faultCode = f.code := rfl
@[simp] theorem State.trap_faultInfo (s : State) (f : FaultCode) : (s.trap f).faultInfo = s.lc.extractLsb' 0 32 := rfl
@[simp] theorem State.trap_lc (s : State) (f : FaultCode) : (s.trap f).lc = s.lc := rfl
@[simp] theorem State.trap_inputs (s : State) (f : FaultCode) : (s.trap f).inputs = s.inputs := rfl
@[simp] theorem State.trap_replies (s : State) (f : FaultCode) : (s.trap f).replies = s.replies := rfl
@[simp] theorem State.trap_freeCount (s : State) (f : FaultCode) : (s.trap f).freeCount = s.freeCount := rfl

/-! ## toReset -/

@[simp] theorem State.toReset_cfg (s : State) : s.toReset.cfg = s.cfg := rfl
@[simp] theorem State.toReset_mem (s : State) : s.toReset.mem = [] := rfl
@[simp] theorem State.toReset_slots (s : State) : s.toReset.slots = List.replicate s.cfg.nctx (Slot.zero s.cfg.lenMax) := rfl
@[simp] theorem State.toReset_cmd0 (s : State) : s.toReset.cmd0 = 0 := rfl
@[simp] theorem State.toReset_cmd1 (s : State) : s.toReset.cmd1 = 0 := rfl
@[simp] theorem State.toReset_cmd2 (s : State) : s.toReset.cmd2 = 0 := rfl
@[simp] theorem State.toReset_cmd3 (s : State) : s.toReset.cmd3 = 0 := rfl
@[simp] theorem State.toReset_busy (s : State) : s.toReset.busy = false := rfl
@[simp] theorem State.toReset_done (s : State) : s.toReset.done = false := rfl
@[simp] theorem State.toReset_fault (s : State) : s.toReset.fault = false := rfl
@[simp] theorem State.toReset_chk (s : State) : s.toReset.chk = false := rfl
@[simp] theorem State.toReset_result (s : State) : s.toReset.result = 0 := rfl
@[simp] theorem State.toReset_faultCode (s : State) : s.toReset.faultCode = 0 := rfl
@[simp] theorem State.toReset_faultInfo (s : State) : s.toReset.faultInfo = 0 := rfl
@[simp] theorem State.toReset_lc (s : State) : s.toReset.lc = 0 := rfl
@[simp] theorem State.toReset_inputs (s : State) : s.toReset.inputs = s.inputs := rfl
@[simp] theorem State.toReset_replies (s : State) : s.toReset.replies = s.replies := rfl
@[simp] theorem State.toReset_freeCount (s : State) : s.toReset.freeCount = s.freeCount := rfl

/-! ## reply -/

@[simp] theorem State.reply_cfg (s : State) (v : Word32) : (s.reply v).cfg = s.cfg := rfl
@[simp] theorem State.reply_mem (s : State) (v : Word32) : (s.reply v).mem = s.mem := rfl
@[simp] theorem State.reply_slots (s : State) (v : Word32) : (s.reply v).slots = s.slots := rfl
@[simp] theorem State.reply_cmd0 (s : State) (v : Word32) : (s.reply v).cmd0 = s.cmd0 := rfl
@[simp] theorem State.reply_cmd1 (s : State) (v : Word32) : (s.reply v).cmd1 = s.cmd1 := rfl
@[simp] theorem State.reply_cmd2 (s : State) (v : Word32) : (s.reply v).cmd2 = s.cmd2 := rfl
@[simp] theorem State.reply_cmd3 (s : State) (v : Word32) : (s.reply v).cmd3 = s.cmd3 := rfl
@[simp] theorem State.reply_busy (s : State) (v : Word32) : (s.reply v).busy = s.busy := rfl
@[simp] theorem State.reply_done (s : State) (v : Word32) : (s.reply v).done = s.done := rfl
@[simp] theorem State.reply_fault (s : State) (v : Word32) : (s.reply v).fault = s.fault := rfl
@[simp] theorem State.reply_chk (s : State) (v : Word32) : (s.reply v).chk = s.chk := rfl
@[simp] theorem State.reply_result (s : State) (v : Word32) : (s.reply v).result = s.result := rfl
@[simp] theorem State.reply_faultCode (s : State) (v : Word32) : (s.reply v).faultCode = s.faultCode := rfl
@[simp] theorem State.reply_faultInfo (s : State) (v : Word32) : (s.reply v).faultInfo = s.faultInfo := rfl
@[simp] theorem State.reply_lc (s : State) (v : Word32) : (s.reply v).lc = s.lc := rfl
@[simp] theorem State.reply_inputs (s : State) (v : Word32) : (s.reply v).inputs = s.inputs := rfl
@[simp] theorem State.reply_replies (s : State) (v : Word32) : (s.reply v).replies = v :: s.replies := rfl
@[simp] theorem State.reply_freeCount (s : State) (v : Word32) : (s.reply v).freeCount = s.freeCount := rfl

/-! ## drawn -/

@[simp] theorem State.drawn_cfg (s : State) : s.drawn.cfg = s.cfg := rfl
@[simp] theorem State.drawn_mem (s : State) : s.drawn.mem = s.mem := rfl
@[simp] theorem State.drawn_slots (s : State) : s.drawn.slots = s.slots := rfl
@[simp] theorem State.drawn_cmd0 (s : State) : s.drawn.cmd0 = s.cmd0 := rfl
@[simp] theorem State.drawn_cmd1 (s : State) : s.drawn.cmd1 = s.cmd1 := rfl
@[simp] theorem State.drawn_cmd2 (s : State) : s.drawn.cmd2 = s.cmd2 := rfl
@[simp] theorem State.drawn_cmd3 (s : State) : s.drawn.cmd3 = s.cmd3 := rfl
@[simp] theorem State.drawn_busy (s : State) : s.drawn.busy = s.busy := rfl
@[simp] theorem State.drawn_done (s : State) : s.drawn.done = s.done := rfl
@[simp] theorem State.drawn_fault (s : State) : s.drawn.fault = s.fault := rfl
@[simp] theorem State.drawn_chk (s : State) : s.drawn.chk = s.chk := rfl
@[simp] theorem State.drawn_result (s : State) : s.drawn.result = s.result := rfl
@[simp] theorem State.drawn_faultCode (s : State) : s.drawn.faultCode = s.faultCode := rfl
@[simp] theorem State.drawn_faultInfo (s : State) : s.drawn.faultInfo = s.faultInfo := rfl
@[simp] theorem State.drawn_lc (s : State) : s.drawn.lc = s.lc := rfl
@[simp] theorem State.drawn_inputs (s : State) : s.drawn.inputs = s.inputs := rfl
@[simp] theorem State.drawn_replies (s : State) : s.drawn.replies = s.replies := rfl
@[simp] theorem State.drawn_freeCount (s : State) : s.drawn.freeCount = s.freeCount + 1 := rfl

/-! ## withInputs -/

@[simp] theorem State.withInputs_cfg (s : State) (ms : List Move) : (s.withInputs ms).cfg = s.cfg := rfl
@[simp] theorem State.withInputs_mem (s : State) (ms : List Move) : (s.withInputs ms).mem = s.mem := rfl
@[simp] theorem State.withInputs_slots (s : State) (ms : List Move) : (s.withInputs ms).slots = s.slots := rfl
@[simp] theorem State.withInputs_cmd0 (s : State) (ms : List Move) : (s.withInputs ms).cmd0 = s.cmd0 := rfl
@[simp] theorem State.withInputs_cmd1 (s : State) (ms : List Move) : (s.withInputs ms).cmd1 = s.cmd1 := rfl
@[simp] theorem State.withInputs_cmd2 (s : State) (ms : List Move) : (s.withInputs ms).cmd2 = s.cmd2 := rfl
@[simp] theorem State.withInputs_cmd3 (s : State) (ms : List Move) : (s.withInputs ms).cmd3 = s.cmd3 := rfl
@[simp] theorem State.withInputs_busy (s : State) (ms : List Move) : (s.withInputs ms).busy = s.busy := rfl
@[simp] theorem State.withInputs_done (s : State) (ms : List Move) : (s.withInputs ms).done = s.done := rfl
@[simp] theorem State.withInputs_fault (s : State) (ms : List Move) : (s.withInputs ms).fault = s.fault := rfl
@[simp] theorem State.withInputs_chk (s : State) (ms : List Move) : (s.withInputs ms).chk = s.chk := rfl
@[simp] theorem State.withInputs_result (s : State) (ms : List Move) : (s.withInputs ms).result = s.result := rfl
@[simp] theorem State.withInputs_faultCode (s : State) (ms : List Move) : (s.withInputs ms).faultCode = s.faultCode := rfl
@[simp] theorem State.withInputs_faultInfo (s : State) (ms : List Move) : (s.withInputs ms).faultInfo = s.faultInfo := rfl
@[simp] theorem State.withInputs_lc (s : State) (ms : List Move) : (s.withInputs ms).lc = s.lc := rfl
@[simp] theorem State.withInputs_inputs (s : State) (ms : List Move) : (s.withInputs ms).inputs = ms := rfl
@[simp] theorem State.withInputs_replies (s : State) (ms : List Move) : (s.withInputs ms).replies = s.replies := rfl
@[simp] theorem State.withInputs_freeCount (s : State) (ms : List Move) : (s.withInputs ms).freeCount = s.freeCount := rfl

/-! ## writeWindow -/

@[simp] theorem State.writeWindow_cfg (s : State) (p : Nat) (v : Word32) : (s.writeWindow p v).cfg = s.cfg := rfl
@[simp] theorem State.writeWindow_mem (s : State) (p : Nat) (v : Word32) : (s.writeWindow p v).mem = s.mem.writeLE p 4 v.toNat := rfl
@[simp] theorem State.writeWindow_slots (s : State) (p : Nat) (v : Word32) : (s.writeWindow p v).slots = s.slots := rfl
@[simp] theorem State.writeWindow_cmd0 (s : State) (p : Nat) (v : Word32) : (s.writeWindow p v).cmd0 = s.cmd0 := rfl
@[simp] theorem State.writeWindow_cmd1 (s : State) (p : Nat) (v : Word32) : (s.writeWindow p v).cmd1 = s.cmd1 := rfl
@[simp] theorem State.writeWindow_cmd2 (s : State) (p : Nat) (v : Word32) : (s.writeWindow p v).cmd2 = s.cmd2 := rfl
@[simp] theorem State.writeWindow_cmd3 (s : State) (p : Nat) (v : Word32) : (s.writeWindow p v).cmd3 = s.cmd3 := rfl
@[simp] theorem State.writeWindow_busy (s : State) (p : Nat) (v : Word32) : (s.writeWindow p v).busy = s.busy := rfl
@[simp] theorem State.writeWindow_done (s : State) (p : Nat) (v : Word32) : (s.writeWindow p v).done = s.done := rfl
@[simp] theorem State.writeWindow_fault (s : State) (p : Nat) (v : Word32) : (s.writeWindow p v).fault = s.fault := rfl
@[simp] theorem State.writeWindow_chk (s : State) (p : Nat) (v : Word32) : (s.writeWindow p v).chk = s.chk := rfl
@[simp] theorem State.writeWindow_result (s : State) (p : Nat) (v : Word32) : (s.writeWindow p v).result = s.result := rfl
@[simp] theorem State.writeWindow_faultCode (s : State) (p : Nat) (v : Word32) : (s.writeWindow p v).faultCode = s.faultCode := rfl
@[simp] theorem State.writeWindow_faultInfo (s : State) (p : Nat) (v : Word32) : (s.writeWindow p v).faultInfo = s.faultInfo := rfl
@[simp] theorem State.writeWindow_lc (s : State) (p : Nat) (v : Word32) : (s.writeWindow p v).lc = s.lc := rfl
@[simp] theorem State.writeWindow_inputs (s : State) (p : Nat) (v : Word32) : (s.writeWindow p v).inputs = s.inputs := rfl
@[simp] theorem State.writeWindow_replies (s : State) (p : Nat) (v : Word32) : (s.writeWindow p v).replies = s.replies := rfl
@[simp] theorem State.writeWindow_freeCount (s : State) (p : Nat) (v : Word32) : (s.writeWindow p v).freeCount = s.freeCount := rfl

/-! ## inFlight -/

@[simp] theorem State.inFlight_cfg (s : State) (c : Command) : (s.inFlight c).cfg = s.cfg := rfl
@[simp] theorem State.inFlight_mem (s : State) (c : Command) : (s.inFlight c).mem = s.mem := rfl
@[simp] theorem State.inFlight_slots (s : State) (c : Command) : (s.inFlight c).slots = s.slots := rfl
@[simp] theorem State.inFlight_cmd0 (s : State) (c : Command) : (s.inFlight c).cmd0 = c.extractLsb' 0 32 := rfl
@[simp] theorem State.inFlight_cmd1 (s : State) (c : Command) : (s.inFlight c).cmd1 = c.extractLsb' 32 32 := rfl
@[simp] theorem State.inFlight_cmd2 (s : State) (c : Command) : (s.inFlight c).cmd2 = c.extractLsb' 64 32 := rfl
@[simp] theorem State.inFlight_cmd3 (s : State) (c : Command) : (s.inFlight c).cmd3 = c.extractLsb' 96 32 := rfl
@[simp] theorem State.inFlight_busy (s : State) (c : Command) : (s.inFlight c).busy = true := rfl
@[simp] theorem State.inFlight_done (s : State) (c : Command) : (s.inFlight c).done = false := rfl
@[simp] theorem State.inFlight_fault (s : State) (c : Command) : (s.inFlight c).fault = false := rfl
@[simp] theorem State.inFlight_chk (s : State) (c : Command) : (s.inFlight c).chk = s.chk := rfl
@[simp] theorem State.inFlight_result (s : State) (c : Command) : (s.inFlight c).result = s.result := rfl
@[simp] theorem State.inFlight_faultCode (s : State) (c : Command) : (s.inFlight c).faultCode = 0 := rfl
@[simp] theorem State.inFlight_faultInfo (s : State) (c : Command) : (s.inFlight c).faultInfo = 0 := rfl
@[simp] theorem State.inFlight_lc (s : State) (c : Command) : (s.inFlight c).lc = c := rfl
@[simp] theorem State.inFlight_inputs (s : State) (c : Command) : (s.inFlight c).inputs = .engine :: s.inputs := rfl
@[simp] theorem State.inFlight_replies (s : State) (c : Command) : (s.inFlight c).replies = s.replies := rfl
@[simp] theorem State.inFlight_freeCount (s : State) (c : Command) : (s.inFlight c).freeCount = s.freeCount := rfl

/-! ## Views -/

@[simp] theorem State.memWrite_slot (s : State) (a : Nat) (k : Nat) (v : List Nat) (d : Nat) : (s.memWrite a k v).slot d = s.slot d := rfl
@[simp] theorem State.setResult_slot (s : State) (v : Word32) (d : Nat) : (s.setResult v).slot d = s.slot d := rfl
@[simp] theorem State.setResult_memRead (s : State) (v : Word32) (d k : Nat) : (s.setResult v).memRead d k = s.memRead d k := rfl
@[simp] theorem State.setChk_slot (s : State) (f : Bool) (d : Nat) : (s.setChk f).slot d = s.slot d := rfl
@[simp] theorem State.setChk_memRead (s : State) (f : Bool) (d k : Nat) : (s.setChk f).memRead d k = s.memRead d k := rfl
@[simp] theorem State.issue_slot (s : State) (d : Nat) : s.issue.slot d = s.slot d := rfl
@[simp] theorem State.issue_memRead (s : State) (d k : Nat) : s.issue.memRead d k = s.memRead d k := rfl
@[simp] theorem State.retire_slot (s : State) (d : Nat) : s.retire.slot d = s.slot d := rfl
@[simp] theorem State.retire_memRead (s : State) (d k : Nat) : s.retire.memRead d k = s.memRead d k := rfl
@[simp] theorem State.trap_slot (s : State) (f : FaultCode) (d : Nat) : (s.trap f).slot d = s.slot d := rfl
@[simp] theorem State.trap_memRead (s : State) (f : FaultCode) (d k : Nat) : (s.trap f).memRead d k = s.memRead d k := rfl
@[simp] theorem State.reply_slot (s : State) (v : Word32) (d : Nat) : (s.reply v).slot d = s.slot d := rfl
@[simp] theorem State.reply_memRead (s : State) (v : Word32) (d k : Nat) : (s.reply v).memRead d k = s.memRead d k := rfl
@[simp] theorem State.drawn_slot (s : State) (d : Nat) : s.drawn.slot d = s.slot d := rfl
@[simp] theorem State.drawn_memRead (s : State) (d k : Nat) : s.drawn.memRead d k = s.memRead d k := rfl
@[simp] theorem State.withInputs_slot (s : State) (ms : List Move) (d : Nat) : (s.withInputs ms).slot d = s.slot d := rfl
@[simp] theorem State.withInputs_memRead (s : State) (ms : List Move) (d k : Nat) : (s.withInputs ms).memRead d k = s.memRead d k := rfl
@[simp] theorem State.writeWindow_slot (s : State) (p : Nat) (v : Word32) (d : Nat) : (s.writeWindow p v).slot d = s.slot d := rfl
@[simp] theorem State.inFlight_slot (s : State) (c : Command) (d : Nat) : (s.inFlight c).slot d = s.slot d := rfl
@[simp] theorem State.inFlight_memRead (s : State) (c : Command) (d k : Nat) : (s.inFlight c).memRead d k = s.memRead d k := rfl

end Sys2Proof.Machine
end

