-- ==== Sys2Proof/Laws/Exec.lean ====
section
/-! SUPPORT. What a command can do, said once: `exec` is trap entry or the command's effect and completion (`exec_cases`), its
admission checks are the conditions of `Safety.lean`, and a field command writes its destination and nothing else. -/

namespace Sys2Proof.Machine

/-! ## Admitted or trapped -/

/-- The effect of each command, as `exec` performs it. -/
def effectOf (i : Instr) (s : State) : State :=
  match i with
  | .chkmod ra len => effectChkmod ra len s
  | .init c ra len => effectInit c ra len s
  | .free c => effectFree c s
  | .getlen c => effectGetlen c s
  | .tofield c rd ra => effectTofield c rd ra s
  | .fromfield c rd ra => effectFromfield c rd ra s
  | .one c rd => effectOne c rd s
  | .add c rd ra rb => effectAdd c rd ra rb s
  | .sub c rd ra rb => effectSub c rd ra rb s
  | .mul c rd ra rb => effectMul c rd ra rb s
  | .sqr c rd ra => effectSqr c rd ra s
  | .expct c rd ra rb bbits => effectExpct c rd ra rb bbits s
  | .expvt c rd ra rb bbits => effectExpvt c rd ra rb bbits s
  | .inv c rd ra => effectInv c rd ra s

theorem exec_eq_perform (i : Instr) (s : State) : exec i s = perform (admission i s) (effectOf i) s := by
  cases i <;> rfl

theorem exec_of_admitted {i : Instr} {s : State} (h : admission i s = none) : exec i s = .next (effectOf i s).retire := by
  rw [exec_eq_perform, h]; rfl

theorem exec_of_fault {i : Instr} {s : State} {f : FaultCode} (h : admission i s = some f) : exec i s = .next (s.trap f) := by
  rw [exec_eq_perform, h]; rfl

/-- Everything a command can do: trap entry for the first failing check, or its effect and completion. -/
theorem exec_cases {i : Instr} {s t : State} (h : exec i s = .next t) :
    (∃ f, admission i s = some f ∧ t = s.trap f) ∨ (admission i s = none ∧ t = (effectOf i s).retire) := by
  cases ha : admission i s with
  | none => rw [exec_of_admitted ha] at h; exact .inr ⟨rfl, by simpa using h.symm⟩
  | some f => rw [exec_of_fault ha] at h; exact .inl ⟨f, rfl, by simpa using h.symm⟩

theorem exec_total (i : Instr) (s : State) : ∃ t, exec i s = .next t := by
  cases ha : admission i s with
  | none => exact ⟨_, exec_of_admitted ha⟩
  | some f => exact ⟨_, exec_of_fault ha⟩

theorem State.trap_eq_trapped (s : State) (f : FaultCode) : s.trap f = s.trapped f.code := rfl

theorem FaultCode.code_legal (f : FaultCode) : 1 ≤ f.code.toNat ∧ f.code.toNat ≤ 7 := by cases f <;> decide

/-! ## Admission (R239) -/

theorem firstFault_cons_false (f : FaultCode) (rest : List (Bool × FaultCode)) :
    firstFault ((false, f) :: rest) = firstFault rest := rfl

theorem firstFault_cons_true (f : FaultCode) (rest : List (Bool × FaultCode)) :
    firstFault ((true, f) :: rest) = some f := rfl

theorem Buffer.outside_iff (c : Config) (b : Buffer) : b.outside c = true ↔ c.memLimbs < b.base + b.len := by
  simp [Buffer.outside]

theorem Buffer.conflicts_iff (d b : Buffer) : d.conflicts b = true ↔ ¬apart d.base d.len b.base b.len := by
  simp only [Buffer.conflicts, apart, decide_eq_true_eq]; omega

theorem Footprint.outside_false_iff (c : Config) (p : Footprint) :
    p.outside c = false ↔ ∀ b ∈ p.buffers, b.base + b.len ≤ c.memLimbs := by
  simp [Footprint.outside, Buffer.outside]

theorem Footprint.overlaps_false_iff (p : Footprint) :
    p.overlaps = false ↔ ∀ d, p.dest = some d → ∀ b ∈ p.sources, apart d.base d.len b.base b.len := by
  unfold Footprint.overlaps
  cases p.dest with
  | none => simp
  | some d =>
    simp only [List.any_eq_false, Option.some.injEq, forall_eq', Buffer.conflicts_iff, not_not]

theorem admitField_none_iff (s : State) (c : Nat) (p : Footprint) :
    admitField s c p = none ↔ s.accepts c ∧ p.outside s.cfg = false ∧ p.overlaps = false := by
  unfold admitField State.ctxRange State.accepts
  by_cases h1 : s.cfg.nctx ≤ c
  · simp [firstFault, h1]
  · cases h2 : (s.slot c).valid <;> cases h3 : p.outside s.cfg <;> cases h4 : p.overlaps <;> simp [firstFault, h1, Nat.lt_of_not_le h1]

theorem footprintD_admitted_iff (s : State) (c rd : Nat) :
    admitField s c (s.footprintD c rd) = none ↔ s.accepts c ∧ s.inside rd (s.ctxLen c) := by
  rw [admitField_none_iff, Footprint.outside_false_iff, Footprint.overlaps_false_iff]
  simp [State.footprintD, Footprint.buffers]

theorem footprintU_admitted_iff (s : State) (c rd ra : Nat) :
    admitField s c (s.footprintU c rd ra) = none ↔ s.takesU c rd ra := by
  rw [admitField_none_iff, Footprint.outside_false_iff, Footprint.overlaps_false_iff]
  simp [State.footprintU, Footprint.buffers, State.takesU, and_assoc]

theorem footprintB_admitted_iff (s : State) (c rd ra rb : Nat) :
    admitField s c (s.footprintB c rd ra rb) = none ↔ s.takesB c rd ra rb := by
  rw [admitField_none_iff, Footprint.outside_false_iff, Footprint.overlaps_false_iff]
  simp only [State.footprintB, Footprint.buffers, Option.toList_some, List.cons_append, List.nil_append, List.forall_mem_cons,
    List.not_mem_nil, false_imp_iff, implies_true, and_true, Option.some.injEq, forall_eq', State.takesB, State.takesU]
  tauto

theorem footprintE_admitted_iff (s : State) (c rd ra rb bbits : Nat) :
    admitField s c (s.footprintE c rd ra rb bbits) = none ↔ s.takesE c rd ra rb bbits := by
  rw [admitField_none_iff, Footprint.outside_false_iff, Footprint.overlaps_false_iff]
  simp only [State.footprintE, Footprint.buffers, Option.toList_some, List.cons_append, List.nil_append, List.forall_mem_cons,
    List.not_mem_nil, false_imp_iff, implies_true, and_true, Option.some.injEq, forall_eq', State.takesE, State.takesU]
  tauto

theorem admitChkmod_none_iff (s : State) (ra len : Nat) :
    admitChkmod s ra len = none ↔ 1 ≤ len ∧ len ≤ s.cfg.lenMax ∧ s.inside ra len := by
  simp only [admitChkmod, firstFault, State.lenRange, footprintLoad, Footprint.outside, Footprint.buffers, Buffer.outside]
  by_cases h1 : len = 0 ∨ s.cfg.lenMax < len <;> by_cases h2 : s.cfg.memLimbs < ra + len <;> simp [h1, h2] <;> omega

theorem admitInit_none_iff (s : State) (c ra len : Nat) :
    admitInit s c ra len = none ↔
      c < s.cfg.nctx ∧ (s.slot c).valid = false ∧ 1 ≤ len ∧ len ≤ s.cfg.lenMax ∧ s.inside ra len := by
  simp only [admitInit, firstFault, State.ctxRange, State.lenRange, footprintLoad, Footprint.outside, Footprint.buffers,
    Buffer.outside]
  by_cases h0 : s.cfg.nctx ≤ c <;> cases hv : (s.slot c).valid <;>
    by_cases h1 : len = 0 ∨ s.cfg.lenMax < len <;> by_cases h2 : s.cfg.memLimbs < ra + len <;>
      simp [h0, h1, h2] <;> omega

theorem admitSlot_none_iff (s : State) (c : Nat) : admitSlot s c = none ↔ s.accepts c := by
  simp only [admitSlot, firstFault, State.ctxRange]
  by_cases h0 : s.cfg.nctx ≤ c
  · simp [h0, State.accepts]
  · cases hv : (s.slot c).valid <;> simp [h0, State.accepts, hv]; omega

/-! ## The destination of a field command -/

theorem length_freeLimbsFrom (w draw : Nat) (r : List (List Nat)) (i k : Nat) : (freeLimbsFrom w draw r i k).length = k := by
  induction k generalizing i with
  | zero => rfl
  | succ k ih => simp [freeLimbsFrom, ih]

theorem limbsFit_freeLimbsFrom (w draw : Nat) (r : List (List Nat)) (i k : Nat) :
    limbsFit w (freeLimbsFrom w draw r i k) = true := by
  induction k generalizing i with
  | zero => rfl
  | succ k ih => exact (limbsFit_cons _ _ _).2 ⟨Nat.mod_lt _ (Nat.two_pow_pos w), ih _⟩

/-- Everything `writeResult` can do: it writes the given limbs, or `len` limbs that fit and that nothing else is known of. -/
theorem State.writeResult_cases (s : State) (rd len : Nat) (ok : Bool) (v : List Nat) (r : List (List Nat)) :
    (ok = true ∧ s.writeResult rd len ok v r = s.memWrite rd len v) ∨
    (ok = false ∧ ∃ u, u.length = len ∧ limbsFit s.cfg.w u = true ∧ s.writeResult rd len ok v r = (s.memWrite rd len u).drawn) := by
  cases ok
  · exact .inr ⟨rfl, _, length_freeLimbsFrom _ _ _ _ _, limbsFit_freeLimbsFrom _ _ _ _ _, rfl⟩
  · exact .inl ⟨rfl, rfl⟩

/-- A written and retired destination is the frame of a field command. -/
theorem wroteOnly_retire_writeResult (s : State) (rd len : Nat) (ok : Bool) (v : List Nat) (r : List (List Nat)) :
    wroteOnly s (s.writeResult rd len ok v r).retire rd len := by
  rcases s.writeResult_cases rd len ok v r with ⟨_, h⟩ | ⟨_, u, _, _, h⟩ <;> rw [h] <;>
    exact ⟨rfl, fun a ha => Memory.getByte_writeLimbs_outside _ ha⟩

/-- The buffer a command writes, if it has one, is its footprint's, and the command changes nothing else but the count of free
values (R68, R248). -/
theorem effectOf_frame (i : Instr) (s : State) {b : Buffer} (h : (footprint i s).dest = some b) :
    wroteOnly s (effectOf i s).retire b.base b.len := by
  cases i <;> simp only [footprint, footprintLoad, footprintNone, State.footprintU, State.footprintB, State.footprintE,
    State.footprintD, reduceCtorEq, Option.some.injEq] at h
  all_goals subst h
  all_goals exact wroteOnly_retire_writeResult _ _ _ _ _ _

/-- The effect of a command without a destination leaves limb memory alone. -/
theorem effectOf_mem_of_no_dest (i : Instr) (s : State) (h : (footprint i s).dest = none) : (effectOf i s).mem = s.mem := by
  cases i <;> simp only [footprint, State.footprintU, State.footprintB, State.footprintE, State.footprintD, reduceCtorEq] at h
  · rfl
  · simp only [effectOf, effectInit]; split <;> rfl
  · rfl
  · rfl

/-- A field command whose value preconditions hold: it completes, its destination reads back as the limbs its rule gives, and
nothing else changed. -/
theorem exec_field_value {i : Instr} {s : State} {rd len : Nat} {v : List Nat} {r : List (List Nat)}
    (ha : admission i s = none) (he : effectOf i s = s.writeResult rd len true v r) (hm : s.mem.wf = true)
    (hl : v.length = len) (hf : limbsFit s.cfg.w v = true) :
    ∃ t, exec i s = .next t ∧ wroteOnly s t rd len ∧ t.freeCount = s.freeCount ∧ t.memRead rd len = v := by
  refine ⟨_, exec_of_admitted ha, ?_, ?_, ?_⟩
  · rw [he]; exact wroteOnly_retire_writeResult _ _ _ _ _ _
  · rw [he]; rfl
  · rw [he, State.retire_memRead]; exact State.memRead_memWrite hm hl hf

/-- What a state after a field command still has. -/
theorem wroteOnly.cfg {s t : State} {rd len : Nat} (h : wroteOnly s t rd len) : t.cfg = s.cfg := by rw [h.1]

theorem wroteOnly.slots {s t : State} {rd len : Nat} (h : wroteOnly s t rd len) : t.slots = s.slots := by rw [h.1]

theorem wroteOnly.slot {s t : State} {rd len : Nat} (h : wroteOnly s t rd len) (c : Nat) : t.slot c = s.slot c := by
  unfold State.slot; rw [h.cfg, h.slots]

theorem wroteOnly.ctxLen {s t : State} {rd len : Nat} (h : wroteOnly s t rd len) (c : Nat) : t.ctxLen c = s.ctxLen c := by
  unfold State.ctxLen; rw [h.slot]

/-- A range disjoint from the destination reads as before. -/
theorem wroteOnly.memRead {s t : State} {rd len a k : Nat} (h : wroteOnly s t rd len) (hd : disjoint rd len a k) :
    t.memRead a k = s.memRead a k := State.memRead_kept h.cfg h.2 hd

/-- A command that wrote `len` limbs keeps the canonical form and the bound of limb memory. -/
theorem effectOf_mem_form (i : Instr) (s : State) (ha : admission i s = none) (hm : s.mem.wf = true)
    (hw : s.mem.within s.windowBytes = true) :
    (effectOf i s).mem.wf = true ∧ (effectOf i s).mem.within s.windowBytes = true := by
  have key : ∀ (rd len : Nat) (ok : Bool) (v : List Nat) (r : List (List Nat)), s.inside rd len →
      (s.writeResult rd len ok v r).mem.wf = true ∧ (s.writeResult rd len ok v r).mem.within s.windowBytes = true := by
    intro rd len ok v r hi
    rcases s.writeResult_cases rd len ok v r with ⟨_, h⟩ | ⟨_, u, _, _, h⟩ <;> rw [h] <;>
      exact ⟨Memory.wf_writeLimbs _ _ _ _ hm, Memory.within_writeLimbs _ hw hi⟩
  cases i with
  | chkmod ra len => exact ⟨hm, hw⟩
  | init c ra len => rw [effectOf_mem_of_no_dest _ _ rfl]; exact ⟨hm, hw⟩
  | free c => exact ⟨hm, hw⟩
  | getlen c => exact ⟨hm, hw⟩
  | tofield c rd ra => exact key _ _ _ _ _ ((footprintU_admitted_iff ..).1 ha).2.1
  | fromfield c rd ra => exact key _ _ _ _ _ ((footprintU_admitted_iff ..).1 ha).2.1
  | one c rd => exact key _ _ _ _ _ ((footprintD_admitted_iff ..).1 ha).2
  | add c rd ra rb => exact key _ _ _ _ _ ((footprintB_admitted_iff ..).1 ha).1.2.1
  | sub c rd ra rb => exact key _ _ _ _ _ ((footprintB_admitted_iff ..).1 ha).1.2.1
  | mul c rd ra rb => exact key _ _ _ _ _ ((footprintB_admitted_iff ..).1 ha).1.2.1
  | sqr c rd ra => exact key _ _ _ _ _ ((footprintU_admitted_iff ..).1 ha).2.1
  | expct c rd ra rb bbits => exact key _ _ _ _ _ ((footprintE_admitted_iff ..).1 ha).1.2.1
  | expvt c rd ra rb bbits => exact key _ _ _ _ _ ((footprintE_admitted_iff ..).1 ha).1.2.1
  | inv c rd ra => exact key _ _ _ _ _ ((footprintU_admitted_iff ..).1 ha).2.1

/-! ## The context of an accepted command -/

/-- Slot `c` of an invariant state is as R41 says. -/
theorem slot_ok {s : State} {c : Nat} (hi : s.Inv) (hc : c < s.cfg.nctx) : (s.slot c).ok s.cfg = true := by
  have hl : c < s.slots.length := by rw [hi.2.2.2.1]; exact hc
  have := List.all_eq_true.1 hi.2.2.2.2.1 _ (List.getElem_mem hl)
  simpa [State.slot, List.getD, hl] using this

/-- What a valid slot holds in an invariant state (R26). -/
theorem valid_slot {s : State} {c : Nat} (hi : s.Inv) (ha : s.accepts c) :
    1 ≤ s.ctxLen c ∧ s.ctxLen c ≤ s.cfg.lenMax ∧ (s.slot c).modulus.length = s.ctxLen c ∧
    (s.slot c).radixSquared.length = s.ctxLen c ∧ limbsFit s.cfg.w (s.slot c).modulus = true ∧
    limbsFit s.cfg.w (s.slot c).radixSquared = true ∧ (s.slot c).mu < 2 ^ s.cfg.w := by
  have h := slot_ok hi ha.1
  simp only [Slot.ok, ha.2, Bool.and_eq_true, decide_eq_true_eq, if_true] at h
  obtain ⟨⟨⟨⟨⟨⟨h1, h2, h3⟩, h4⟩, h5⟩, -⟩, -⟩, ⟨h6, h7⟩, -⟩ := h
  refine ⟨h6, h7, ?_, ?_, limbsFit_take _ h4, limbsFit_take _ h5, h3⟩
  · simp only [Slot.modulus, State.ctxLen, List.length_take]; omega
  · simp only [Slot.radixSquared, State.ctxLen, List.length_take]; omega

/-- The constants of a context whose modulus is odd and above 1 (R41, R142). -/
theorem odd_slot {s : State} {c : Nat} (hi : s.Inv) (ha : s.accepts c) (ho : s.oddModulus c) :
    (s.slot c).conforming s.cfg.w = true ∧ (limbAt (s.slot c).modulus 0 * (s.slot c).mu + 1) % 2 ^ s.cfg.w = 0 ∧
    val s.cfg.w (s.slot c).radixSquared = 2 ^ (2 * s.cfg.w * s.ctxLen c) % s.modulusValue c := by
  have hc : (s.slot c).conforming s.cfg.w = true := (modulusOk_iff (Config.w_pos _) _).2 ho
  have h := slot_ok hi ha.1
  simp only [Slot.ok, ha.2, Bool.and_eq_true, decide_eq_true_eq, if_true, hc, Bool.not_true, Bool.false_or,
    Slot.constantsRight] at h
  exact ⟨hc, h.2.2.1, h.2.2.2⟩

/-! ## Steps -/

/-- The engine's step on a command in flight. -/
theorem step_completes {s : State} (h : s.completesNext) : step s = complete (s.withInputs s.inputs.tail) := by
  obtain ⟨hb, h | ⟨ms, h⟩⟩ := h
  · have : s.withInputs s.inputs.tail = s := by cases s; cases h; rfl
    rw [this]; simp [step, nextMove, h, engineTurn, hb]
  · simp [step, nextMove, h, performMove, engineTurn, hb, State.withInputs]

/-- Everything a step can do: the engine's turn on the state itself when no move is listed, or the first move listed, taken from
the list. -/
theorem step_cases (s : State) :
    (s.inputs = [] ∧ step s = engineTurn s) ∨ ∃ m ms, s.inputs = m :: ms ∧ step s = performMove m (s.withInputs ms) := by
  cases h : s.inputs with
  | nil => exact .inl ⟨rfl, by simp [step, nextMove, h]⟩
  | cons m ms => exact .inr ⟨m, ms, rfl, by simp [step, nextMove, h]⟩

theorem step_of_head {s : State} {m : Move} {ms : List Move} (h : s.inputs = m :: ms) :
    step s = performMove m (s.withInputs ms) := by simp [step, nextMove, h]

/-- Everything a checked access can do. -/
theorem checkedAccess_cases (s : State) (o : Nat) (wd : AccessWidth) (k : Host.Outcome State Fault Refusal) :
    (checkedAccess s o wd k = k ∧ wd = .word ∧ o % 4 = 0 ∧ s.mapped o = true) ∨
    ((wd ≠ .word ∨ o % 4 ≠ 0 ∨ s.mapped o = false) ∧ ∀ t, checkedAccess s o wd k ≠ .next t) := by
  unfold checkedAccess
  by_cases h1 : wd = .word
  · by_cases h2 : o % 4 = 0
    · cases h3 : s.mapped o
      · right; refine ⟨.inr (.inr rfl), fun t => ?_⟩; simp [h1, h2]
      · left; simp [h1, h2]
    · right; refine ⟨.inr (.inl h2), fun t => ?_⟩; simp [h1, h2]
  · right; exact ⟨.inl h1, fun t => by simp [h1]⟩

/-- Everything a completion can do. -/
theorem complete_cases {s t : State} (h : complete s = .next t) :
    (∃ e, decode s.lc = .error e ∧ t = s.trap .illegalCmd) ∨ ∃ i, decode s.lc = .ok i ∧ exec i s = .next t := by
  unfold complete at h
  cases hd : decode s.lc with
  | error e => rw [hd] at h; exact .inl ⟨e, rfl, by simpa using h.symm⟩
  | ok i => rw [hd] at h; exact .inr ⟨i, rfl, h⟩

theorem complete_total (s : State) : ∃ t, complete s = .next t := by
  unfold complete
  cases hd : decode s.lc with
  | error e => exact ⟨_, rfl⟩
  | ok i => exact exec_total i s

end Sys2Proof.Machine
end

