-- ==== Sys2Proof/Laws/Exponentiation.lean ====
section
/-! SUPPORT. The four exponentiation procedures (R192 to R197) raise to the power, given that a Montgomery multiplication
multiplies represented numbers, that bit and window extraction read the exponent, and that the selection returns the table
entry. -/

namespace Sys2Proof.Machine

/-- `x` has the limb count of `n` and is the Montgomery form of `A`: its value is `A * R mod N` (R15, R140). -/
def represents (w : Nat) (n : List Nat) (A : Nat) (x : List Nat) : Prop :=
  limbsFit w x = true ∧ x.length = n.length ∧ val w x = A * 2 ^ (w * n.length) % val w n

/-- `mont_mul` multiplies represented numbers (what R127 says of products). -/
def multiplies (w : Nat) (n : List Nat) (mu : Nat) : Prop :=
  ∀ (A B : Nat) (x y : List Nat), represents w n A x → represents w n B y → represents w n (A * B) (montMul w n mu x y)

theorem multiplies.sqr {w : Nat} {n : List Nat} {mu A : Nat} {x : List Nat} (h : multiplies w n mu) (hx : represents w n A x) :
    represents w n (A * A) (montSqr w n mu x) := h A A x x hx hx

/-- A represented number is known modulo `N` only. -/
theorem represents.congr {w A B : Nat} {n x : List Nat} (h : represents w n A x) (e : A % val w n = B % val w n) :
    represents w n B x := ⟨h.1, h.2.1, by rw [h.2.2, Nat.mul_mod, e, ← Nat.mul_mod]⟩

/-- Two vectors that represent the same number are equal limb for limb. -/
theorem represents.unique {w A : Nat} {n x y : List Nat} (hx : represents w n A x) (hy : represents w n A y) : x = y :=
  val_inj hx.1 hy.1 (by rw [hx.2.1, hy.2.1]) (by rw [hx.2.2, hy.2.2])

theorem half_step (E i : Nat) : E / 2 ^ i = 2 * (E / 2 ^ (i + 1)) + E / 2 ^ i % 2 := by
  rw [Nat.pow_succ, ← Nat.div_div_eq_div_mul]; omega

/-- The ladder (R192): with `i` bits to go the accumulators, swapped when `prev` says so, stand for `A^k` and `A^(k+1)`, where
`k` is the exponent's value above bit `i`. -/
theorem ladderLoop_represents {w mu A E : Nat} {n b : List Nat} (h : multiplies w n mu) (i : Nat) {r0 r1 : List Nat} {prev : Nat}
    (hb : ∀ j, j < i → getBit w b j = E / 2 ^ j % 2) (hp : prev ≤ 1)
    (h0 : represents w n (A ^ (E / 2 ^ i)) (if prev = 1 then r1 else r0))
    (h1 : represents w n (A ^ (E / 2 ^ i + 1)) (if prev = 1 then r0 else r1)) :
    represents w n (A ^ E) (ladderLoop w n mu b i r0 r1 prev) := by
  induction i generalizing r0 r1 prev with
  | zero =>
    rw [Nat.pow_zero, Nat.div_one] at h0 h1
    unfold ladderLoop
    obtain rfl | rfl : prev = 0 ∨ prev = 1 := by omega
    · rw [cswap_bit (by omega) (by simpa using h0.1) (by simpa using h1.1) (by simpa using h0.2.1.trans h1.2.1.symm)]
      simpa using h0
    · rw [cswap_bit (by omega) (by simpa using h1.1) (by simpa using h0.1) (by simpa using h1.2.1.trans h0.2.1.symm)]
      simpa using h0
  | succ i ih =>
    have hk := half_step E i
    have hbit := hb i (by omega)
    have hlt : E / 2 ^ i % 2 < 2 := Nat.mod_lt _ (by omega)
    unfold ladderLoop
    generalize getBit w b i = bit at hbit
    generalize E / 2 ^ (i + 1) = k at *
    obtain rfl | rfl : prev = 0 ∨ prev = 1 := by omega
    · simp only [zero_ne_one, if_false] at h0 h1
      obtain rfl | rfl : bit = 0 ∨ bit = 1 := by omega
      · simp only [Nat.xor_zero, cswap_bit (Nat.zero_le 1) h0.1 h1.1 (h0.2.1.trans h1.2.1.symm), zero_ne_one, if_false]
        refine ih (fun j hj => hb j (by omega)) (by omega) ?_ ?_
        · rw [hk, ← hbit, show 2 * k + 0 = k + k by omega, Nat.pow_add]; exact h.sqr h0
        · rw [hk, ← hbit, show 2 * k + 0 + 1 = k + (k + 1) by omega, Nat.pow_add]; exact h _ _ _ _ h0 h1
      · simp only [Nat.xor_zero, cswap_bit (Nat.le_refl 1) h0.1 h1.1 (h0.2.1.trans h1.2.1.symm), if_true]
        refine ih (fun j hj => hb j (by omega)) (by omega) ?_ ?_
        · rw [hk, ← hbit, show 2 * k + 1 = (k + 1) + k by omega, Nat.pow_add]; exact h _ _ _ _ h1 h0
        · rw [hk, ← hbit, show 2 * k + 1 + 1 = (k + 1) + (k + 1) by omega, Nat.pow_add]; exact h.sqr h1
    · simp only [if_true] at h0 h1
      obtain rfl | rfl : bit = 0 ∨ bit = 1 := by omega
      · simp only [Nat.zero_xor, cswap_bit (Nat.le_refl 1) h1.1 h0.1 (h1.2.1.trans h0.2.1.symm), if_true]
        refine ih (fun j hj => hb j (by omega)) (by omega) ?_ ?_
        · rw [hk, ← hbit, show 2 * k + 0 = k + k by omega, Nat.pow_add]; exact h.sqr h0
        · rw [hk, ← hbit, show 2 * k + 0 + 1 = k + (k + 1) by omega, Nat.pow_add]; exact h _ _ _ _ h0 h1
      · simp only [Nat.xor_self, cswap_bit (Nat.zero_le 1) h1.1 h0.1 (h1.2.1.trans h0.2.1.symm), zero_ne_one, if_false]
        refine ih (fun j hj => hb j (by omega)) (by omega) ?_ ?_
        · rw [hk, ← hbit, show 2 * k + 1 = (k + 1) + k by omega, Nat.pow_add]; exact h _ _ _ _ h1 h0
        · rw [hk, ← hbit, show 2 * k + 1 + 1 = (k + 1) + (k + 1) by omega, Nat.pow_add]; exact h.sqr h1

/-- The constant-time bit-serial path (R192, R200). -/
theorem expLadder_represents {w mu A E bbits : Nat} {n b oneM a : List Nat} (h : multiplies w n mu)
    (h1 : represents w n 1 oneM) (ha : represents w n A a) (hE : E < 2 ^ bbits)
    (hb : ∀ j, j < bbits → getBit w b j = E / 2 ^ j % 2) : represents w n (A ^ E) (expLadder w n mu oneM a b bbits) := by
  refine ladderLoop_represents h bbits hb (by omega) ?_ ?_ <;> simp [Nat.div_eq_of_lt hE, h1, ha]

/-- The variable-time loop (R193): `acc` stands for the power by the bits below `i`, the base for `A^(2^i)`. -/
theorem bitSerialLoop_represents {w mu A E : Nat} {n b : List Nat} (h : multiplies w n mu) (k i : Nat) {acc base : List Nat}
    (hb : ∀ j, j < i + k → getBit w b j = E / 2 ^ j % 2) (h0 : represents w n (A ^ (E % 2 ^ i)) acc)
    (h1 : represents w n (A ^ 2 ^ i) base) : represents w n (A ^ (E % 2 ^ (i + k))) (bitSerialLoop w n mu b k i acc base) := by
  induction k generalizing i acc base with
  | zero => exact h0
  | succ k ih =>
    have hm : E % 2 ^ (i + 1) = E % 2 ^ i + 2 ^ i * (E / 2 ^ i % 2) := by rw [Nat.pow_succ, Nat.mod_mul]
    have hbit := hb i (by omega)
    rw [show i + (k + 1) = (i + 1) + k by omega]
    unfold bitSerialLoop
    refine ih (i + 1) (fun j hj => hb j (by omega)) ?_ ?_
    · split
      · rw [hm, ← hbit, ‹getBit w b i = 1›, Nat.mul_one, Nat.pow_add]; exact h _ _ _ _ h0 h1
      · have hlt : E / 2 ^ i % 2 < 2 := Nat.mod_lt _ (by omega)
        rw [hm, show E / 2 ^ i % 2 = 0 by omega, Nat.mul_zero, Nat.add_zero]; exact h0
    · rw [Nat.pow_succ, Nat.mul_two, Nat.pow_add]; exact h.sqr h1

/-- The variable-time bit-serial path (R193, R200). -/
theorem expBitSerial_represents {w mu A E bbits : Nat} {n b oneM a : List Nat} (h : multiplies w n mu)
    (h1 : represents w n 1 oneM) (ha : represents w n A a) (hE : E < 2 ^ bbits)
    (hb : ∀ j, j < bbits → getBit w b j = E / 2 ^ j % 2) : represents w n (A ^ E) (expBitSerial w n mu oneM a b bbits) := by
  have := bitSerialLoop_represents (A := A) (E := E) (b := b) h bbits 0 (acc := oneM) (base := a)
    (by simpa using hb) (by simpa [Nat.mod_one] using h1) (by simpa using ha)
  rwa [Nat.zero_add, Nat.mod_eq_of_lt hE] at this

/-- The table after `prev`: entry `v` stands for `A` times more powers (R194). -/
theorem tableFrom_represents {w mu A : Nat} {n a : List Nat} (h : multiplies w n mu) (ha : represents w n A a) (k m : Nat)
    {prev : List Nat} (hp : represents w n (A ^ m) prev) :
    ∀ v, v < k → represents w n (A ^ (m + 1 + v)) ((tableFrom w n mu a k prev).getD v []) := by
  induction k generalizing m prev with
  | zero => intro v hv; omega
  | succ k ih =>
    intro v hv
    have he : represents w n (A ^ (m + 1)) (montMul w n mu prev a) := by rw [Nat.pow_succ]; exact h _ _ _ _ hp ha
    cases v with
    | zero => simpa [tableFrom] using he
    | succ v =>
      have := ih (m + 1) he v (by omega)
      rw [show m + 1 + (v + 1) = m + 1 + 1 + v by omega]
      simpa [tableFrom] using this

@[simp] theorem length_tableFrom (w : Nat) (n : List Nat) (mu : Nat) (a : List Nat) (k : Nat) (prev : List Nat) :
    (tableFrom w n mu a k prev).length = k := by
  induction k generalizing prev with
  | zero => rfl
  | succ k ih => simp [tableFrom, ih]

theorem length_powerTable (w : Nat) (n : List Nat) (mu : Nat) (oneM a : List Nat) :
    (powerTable w n mu oneM a).length = 16 := by simp [powerTable, tableSize]

/-- Entry `v` of the table is the form of `A^v` (R194). -/
theorem powerTable_represents {w mu A : Nat} {n oneM a : List Nat} (h : multiplies w n mu) (h1 : represents w n 1 oneM)
    (ha : represents w n A a) (v : Nat) (hv : v < 16) : represents w n (A ^ v) ((powerTable w n mu oneM a).getD v []) := by
  match v with
  | 0 => simpa [powerTable] using h1
  | 1 => simpa [powerTable] using ha
  | v + 2 =>
    have := tableFrom_represents h ha (tableSize - 2) 1 (prev := a) (by simpa using ha) v (by unfold tableSize; omega)
    rw [show v + 2 = 1 + 1 + v by omega]
    simpa [powerTable, show 1 + 1 + v = v + 2 by omega] using this

theorem montSqrTimes_represents {w mu A : Nat} {n : List Nat} (h : multiplies w n mu) (l : Nat) {acc : List Nat}
    (ha : represents w n A acc) : represents w n (A ^ 2 ^ l) (montSqrTimes w n mu l acc) := by
  induction l generalizing A acc with
  | zero => simpa [montSqrTimes] using ha
  | succ l ih =>
    have := ih (h.sqr ha)
    rw [Nat.pow_succ, Nat.mul_comm (2 ^ l), Nat.pow_mul, pow_two]; exact this

/-- One window (R195): the exponent's value above `p + l` becomes that above `p`. -/
theorem windowTurn_represents {w mu A E p l : Nat} {n b acc : List Nat} {table : List (List Nat)}
    {select : Nat → List (List Nat) → Nat → List Nat} (h : multiplies w n mu)
    (hs : represents w n (A ^ (E / 2 ^ p % 2 ^ l)) (select w table (getWindow w b p l)))
    (ha : represents w n (A ^ (E / 2 ^ (p + l))) acc) :
    represents w n (A ^ (E / 2 ^ p)) (windowTurn w n mu select table b p l acc) := by
  have hk : E / 2 ^ p = E / 2 ^ (p + l) * 2 ^ l + E / 2 ^ p % 2 ^ l := by
    rw [Nat.pow_add, ← Nat.div_div_eq_div_mul]; exact (Nat.div_add_mod' _ _).symm
  rw [hk, Nat.pow_add, Nat.pow_mul]
  exact h _ _ _ _ (montSqrTimes_represents h l ha) hs

theorem windowLoop_represents {w mu A E r : Nat} {n b : List Nat} {table : List (List Nat)}
    {select : Nat → List (List Nat) → Nat → List Nat} (h : multiplies w n mu) (k : Nat) {acc : List Nat}
    (hs : ∀ j, j < k → represents w n (A ^ (E / 2 ^ (r + 4 * j) % 2 ^ 4)) (select w table (getWindow w b (r + 4 * j) 4)))
    (ha : represents w n (A ^ (E / 2 ^ (r + 4 * k))) acc) :
    represents w n (A ^ (E / 2 ^ r)) (windowLoop w n mu select table b r k acc) := by
  induction k generalizing acc with
  | zero => exact ha
  | succ k ih =>
    unfold windowLoop
    exact ih (fun j hj => hs j (by omega)) (windowTurn_represents h (hs k (by omega)) ha)

/-- The large-exponent path (R195, R200), for any selection that returns the table entry. -/
theorem expWindow_represents {w mu A E bbits : Nat} {n b oneM a : List Nat}
    {select : Nat → List (List Nat) → Nat → List Nat} (h : multiplies w n mu) (h1 : represents w n 1 oneM)
    (ha : represents w n A a) (hE : E < 2 ^ bbits)
    (hw : ∀ p l, 1 ≤ l → l ≤ 4 → p + l ≤ bbits → getWindow w b p l = E / 2 ^ p % 2 ^ l)
    (hs : ∀ v, v < 16 → select w (powerTable w n mu oneM a) v = (powerTable w n mu oneM a).getD v []) :
    represents w n (A ^ E) (expWindow w n mu select oneM a b bbits) := by
  have key : ∀ p l, 1 ≤ l → l ≤ 4 → p + l ≤ bbits →
      represents w n (A ^ (E / 2 ^ p % 2 ^ l)) (select w (powerTable w n mu oneM a) (getWindow w b p l)) := by
    intro p l h1' h4 hpl
    have hlt : E / 2 ^ p % 2 ^ l < 16 :=
      Nat.lt_of_lt_of_le (Nat.mod_lt _ (Nat.two_pow_pos l)) (Nat.pow_le_pow_right (n := 2) (by omega) h4)
    rw [hw p l h1' h4 hpl, hs _ hlt]; exact powerTable_represents h h1 ha _ hlt
  have hdm := Nat.div_add_mod bbits 4
  have loop : represents w n (A ^ (E / 2 ^ (bbits % 4)))
      (windowLoop w n mu select (powerTable w n mu oneM a) b (bbits % 4) (bbits / 4) oneM) := by
    refine windowLoop_represents h (bbits / 4) (fun j hj => key _ 4 (by omega) (by omega) (by omega)) ?_
    rw [show bbits % 4 + 4 * (bbits / 4) = bbits by omega, Nat.div_eq_of_lt hE]; simpa using h1
  rcases Nat.eq_zero_or_pos (bbits % 4) with hr | hr
  · have e : expWindow w n mu select oneM a b bbits =
        windowLoop w n mu select (powerTable w n mu oneM a) b (bbits % 4) (bbits / 4) oneM :=
      if_neg (show ¬bbits % 4 > 0 by omega)
    rw [e]
    simpa [hr] using loop
  · have e : expWindow w n mu select oneM a b bbits = windowTurn w n mu select (powerTable w n mu oneM a) b 0 (bbits % 4)
        (windowLoop w n mu select (powerTable w n mu oneM a) b (bbits % 4) (bbits / 4) oneM) := if_pos hr
    rw [e]
    have := windowTurn_represents (p := 0) (l := bbits % 4) (A := A) (E := E) (select := select) h
      (key 0 _ (by omega) (by omega) (by omega)) (by simpa using loop)
    simpa using this

end Sys2Proof.Machine
end

