-- ==== Sys2Proof/Laws/Leakage.lean ====
section
/-! SUPPORT. The traced procedures of `Machine/Leakage.lean` compute the values of the meanings: a trace is the trace of the
same computation. The traces of the constant-time procedures do not depend on the values, and the operation counts of each loop. -/

namespace Sys2Proof.Machine

theorem ladderLoopT_value (w : Nat) (n : List Nat) (mu : Nat) (b : List Nat) (i : Nat) (r0 r1 : List Nat) (prev : Nat) :
    (ladderLoopT w n mu b i r0 r1 prev).1 = ladderLoop w n mu b i r0 r1 prev := by
  induction i generalizing r0 r1 prev with
  | zero => rfl
  | succ i ih => exact ih _ _ _

theorem bitSerialLoopT_value (w : Nat) (n : List Nat) (mu : Nat) (b : List Nat) (k i : Nat) (acc base : List Nat) :
    (bitSerialLoopT w n mu b k i acc base).1 = bitSerialLoop w n mu b k i acc base := by
  induction k generalizing i acc base with
  | zero => rfl
  | succ k ih =>
    simp only [bitSerialLoopT, bitSerialLoop, ih]
    split <;> rfl

theorem scanTableT_value (w v k i : Nat) (table : List (List Nat)) (s : List Nat) :
    (scanTableT w v k i table s).1 = scanTable w v i table s := by
  induction table generalizing i s with
  | nil => rfl
  | cons e es ih => exact ih _ _

theorem selectCtT_value (w k : Nat) (table : List (List Nat)) (v : Nat) :
    (selectCtT w k table v).1 = selectCt w table v := scanTableT_value _ _ _ _ _ _

theorem selectVtT_value (w k : Nat) (table : List (List Nat)) (v : Nat) :
    (selectVtT w k table v).1 = selectVt w table v := rfl

theorem montSqrTimesT_value (w : Nat) (n : List Nat) (mu l : Nat) (acc : List Nat) :
    (montSqrTimesT w n mu l acc).1 = montSqrTimes w n mu l acc := by
  induction l generalizing acc with
  | zero => rfl
  | succ l ih => exact ih _

theorem windowTurnT_value {w : Nat} {selectT : Nat → Nat → List (List Nat) → Nat → Traced}
    {select : Nat → List (List Nat) → Nat → List Nat}
    (h : ∀ k table v, (selectT w k table v).1 = select w table v) (n : List Nat) (mu : Nat) (table : List (List Nat))
    (b : List Nat) (p l : Nat) (acc : List Nat) :
    (windowTurnT w n mu selectT table b p l acc).1 = windowTurn w n mu select table b p l acc := by
  simp [windowTurnT, windowTurn, montMulT, montSqrTimesT_value, h]

theorem windowLoopT_value {w : Nat} {selectT : Nat → Nat → List (List Nat) → Nat → Traced}
    {select : Nat → List (List Nat) → Nat → List Nat}
    (h : ∀ k table v, (selectT w k table v).1 = select w table v) (n : List Nat) (mu : Nat) (table : List (List Nat))
    (b : List Nat) (r k : Nat) (acc : List Nat) :
    (windowLoopT w n mu selectT table b r k acc).1 = windowLoop w n mu select table b r k acc := by
  induction k generalizing acc with
  | zero => rfl
  | succ k ih => simp only [windowLoopT, windowLoop, ih, windowTurnT_value h]

theorem expWindowT_value {w : Nat} {selectT : Nat → Nat → List (List Nat) → Nat → Traced}
    {select : Nat → List (List Nat) → Nat → List Nat}
    (h : ∀ k table v, (selectT w k table v).1 = select w table v) (n : List Nat) (mu : Nat) (oneM a b : List Nat)
    (bbits : Nat) :
    (expWindowT w n mu selectT oneM a b bbits).1 = expWindow w n mu select oneM a b bbits := by
  unfold expWindowT expWindow
  simp only [← windowLoopT_value h, ← windowTurnT_value h]
  split <;> rfl

/-- The traced `EXPCT` computes `EXPCT`. -/
theorem expCtT_value (w : Nat) (n : List Nat) (mu : Nat) (oneM a b : List Nat) (bbits : Nat) :
    (expCtT w n mu oneM a b bbits).1 = expCt w n mu oneM a b bbits := by
  unfold expCtT expCt expLadder
  split
  · exact ladderLoopT_value _ _ _ _ _ _ _ _
  · exact expWindowT_value (fun k table v => selectCtT_value w k table v) _ _ _ _ _ _

/-- The traced `EXPVT` computes `EXPVT`. -/
theorem expVtT_value (w : Nat) (n : List Nat) (mu : Nat) (oneM a b : List Nat) (bbits : Nat) :
    (expVtT w n mu oneM a b bbits).1 = expVt w n mu oneM a b bbits := by
  unfold expVtT expVt expBitSerial
  split
  · exact bitSerialLoopT_value _ _ _ _ _ _ _ _
  · exact expWindowT_value (fun k table v => selectVtT_value w k table v) _ _ _ _ _ _

/-! ## Traces that do not depend on values (R192, R195, R196) -/

theorem ladderLoopT_trace {w mu mu' : Nat} {n n' : List Nat} (h : n.length = n'.length) (b b' : List Nat) (i : Nat)
    (r0 r1 r0' r1' : List Nat) (prev prev' : Nat) :
    (ladderLoopT w n mu b i r0 r1 prev).2 = (ladderLoopT w n' mu' b' i r0' r1' prev').2 := by
  induction i generalizing r0 r1 prev r0' r1' prev' with
  | zero => simp [ladderLoopT, h]
  | succ i ih => simp only [ladderLoopT, montMulT, montSqrT, h]; rw [ih]

theorem scanTableT_trace (w v v' k i : Nat) {t t' : List (List Nat)} (s s' : List Nat) (h : t.length = t'.length) :
    (scanTableT w v k i t s).2 = (scanTableT w v' k i t' s').2 := by
  induction t generalizing i s s' t' with
  | nil => cases t' <;> simp_all [scanTableT]
  | cons a t ih =>
    cases t' with
    | nil => simp at h
    | cons a' t' => simp only [scanTableT]; rw [ih]; simpa using h

theorem montSqrTimesT_trace {w mu mu' l : Nat} {n n' : List Nat} (h : n.length = n'.length) (acc acc' : List Nat) :
    (montSqrTimesT w n mu l acc).2 = (montSqrTimesT w n' mu' l acc').2 := by
  induction l generalizing acc acc' with
  | zero => rfl
  | succ l ih => simp only [montSqrTimesT, montSqrT, h]; rw [ih]

/-- A constant-time window's trace depends on the lengths of the table, of the modulus and of the exponent alone. -/
theorem windowTurnT_trace {w mu mu' : Nat} {n n' : List Nat} (h : n.length = n'.length) {t t' : List (List Nat)}
    (ht : t.length = t'.length) {b b' : List Nat} (hb : b.length = b'.length) (p l : Nat) (acc acc' : List Nat) :
    (windowTurnT w n mu selectCtT t b p l acc).2 = (windowTurnT w n' mu' selectCtT t' b' p l acc').2 := by
  simp only [windowTurnT, montMulT, selectCtT, h, hb]
  rw [montSqrTimesT_trace h acc acc', scanTableT_trace w _ _ _ _ _ _ (by simp [ht] : t.tail.length = t'.tail.length)]

theorem windowLoopT_trace {w mu mu' : Nat} {n n' : List Nat} (h : n.length = n'.length) {t t' : List (List Nat)}
    (ht : t.length = t'.length) {b b' : List Nat} (hb : b.length = b'.length) (r k : Nat) (acc acc' : List Nat) :
    (windowLoopT w n mu selectCtT t b r k acc).2 = (windowLoopT w n' mu' selectCtT t' b' r k acc').2 := by
  induction k generalizing acc acc' with
  | zero => rfl
  | succ k ih => simp only [windowLoopT]; rw [windowTurnT_trace h ht hb, ih]

theorem tableTrace_congr {n n' : List Nat} (h : n.length = n'.length) (i k : Nat) : tableTrace n i k = tableTrace n' i k := by
  induction k generalizing i with
  | zero => rfl
  | succ k ih => simp only [tableTrace, h, ih]

/-! ## Operation counts -/

@[simp] theorem montCount_nil : montCount [] = 0 := rfl

@[simp] theorem montCount_append (s t : List TraceEvent) : montCount (s ++ t) = montCount s + montCount t := List.countP_append

@[simp] theorem montCount_cons (e : TraceEvent) (t : List TraceEvent) :
    montCount (e :: t) = montCount t + (match e with | .montMul _ => 1 | .montSqr _ => 1 | _ => 0) := by
  cases e <;> simp [montCount]

@[simp] theorem montCount_getBitTrace (w i : Nat) : montCount (getBitTrace w i) = 0 := rfl

@[simp] theorem montCount_getWindowTrace (w bLen p l : Nat) : montCount (getWindowTrace w bLen p l) = 0 := by
  unfold getWindowTrace; split <;> rfl

theorem montCount_montSqrTimesT (w : Nat) (n : List Nat) (mu l : Nat) (acc : List Nat) :
    montCount (montSqrTimesT w n mu l acc).2 = l := by
  induction l generalizing acc with
  | zero => rfl
  | succ l ih => simp [montSqrTimesT, montSqrT, ih]

theorem montCount_scanTableT (w v k i : Nat) (t : List (List Nat)) (s : List Nat) : montCount (scanTableT w v k i t s).2 = 0 := by
  induction t generalizing i s with
  | nil => rfl
  | cons a t ih => simp [scanTableT, ih]

theorem montCount_tableTrace (n : List Nat) (i k : Nat) : montCount (tableTrace n i k) = k := by
  induction k generalizing i with
  | zero => rfl
  | succ k ih => simp [tableTrace, ih]

/-- A window of `l` bits costs `l` squarings and one multiplication, whichever selection reads the table. -/
theorem montCount_windowTurnT {select : Nat → Nat → List (List Nat) → Nat → Traced}
    (h : ∀ w k t v, montCount (select w k t v).2 = 0) (w : Nat) (n : List Nat) (mu : Nat) (t : List (List Nat)) (b : List Nat)
    (p l : Nat) (acc : List Nat) : montCount (windowTurnT w n mu select t b p l acc).2 = l + 1 := by
  simp [windowTurnT, montMulT, montCount_montSqrTimesT, h]

/-! ## The trace of a whole command -/

/-- `FREE` leaks nothing but its slot number once it is admitted (R145). -/
theorem leak_free {c : Nat} {s : State} (h : admission (.free c) s = none) : leak (.free c) s = [.slotWrite c] := by
  simp [leak, h, valuesOk, around, footprint, footprintNone, contextAccess, ContextAccess.readEvents, ContextAccess.writeEvents,
    operations]

/-- `CHKMOD` touches no slot (R68): its trace is its source's limbs and whatever its operations may depend on. -/
theorem leak_chkmod {ra len : Nat} {s : State} (h : admission (.chkmod ra len) s = none) :
    leak (.chkmod ra len) s = readEvents ⟨ra, len⟩ ++ [.anyOf [s.memRead ra len]] := by
  simp [leak, h, valuesOk, around, footprint, footprintLoad, contextAccess, ContextAccess.readEvents, ContextAccess.writeEvents,
    operations, readableBy, slotNamed]

end Sys2Proof.Machine
end

