-- ==== Sys2Proof/Laws/Montgomery.lean ====
section
/-! SUPPORT. The loop of Montgomery reduction and its final conditional subtraction (R124, R127), and what it means that limbs
are the Montgomery form of a number (R15). -/

namespace Sys2Proof.Machine

/-- `i` steps add a multiple `m < B^i` of `n` and shift down by `i` limbs; the last premise keeps every intermediate sum inside
the buffer. -/
theorem montSteps_value {w : Nat} {n : List Nat} {mu : Nat} (hn : n ≠ []) (hmu : (limbAt n 0 * mu + 1) % 2 ^ w = 0)
    (i : Nat) {t : List Nat} (ht : limbsFit w t = true) (hl : n.length + i ≤ t.length)
    (hb : val w t + (2 ^ (w * i) - 1) * val w n < 2 ^ (w * t.length)) :
    ∃ m, m < 2 ^ (w * i) ∧ 2 ^ (w * i) * val w (montSteps w n mu i t) = val w t + m * val w n ∧
      (montSteps w n mu i t).length + i = t.length ∧ limbsFit w (montSteps w n mu i t) = true := by
  induction i generalizing t with
  | zero => exact ⟨0, by simp, by simp [montSteps], rfl, ht⟩
  | succ i ih =>
    obtain ⟨q, hq, hv, hlen, hfit⟩ := montStep_value (t := t) hn (by omega) hmu
    have hpow : 2 ^ (w * (i + 1)) = 2 ^ w * 2 ^ (w * i) := by rw [Nat.mul_add, Nat.mul_one, Nat.add_comm, Nat.pow_add]
    have hP : 2 ^ w * 1 ≤ 2 ^ w * 2 ^ (w * i) := Nat.mul_le_mul_left _ (Nat.two_pow_pos _)
    have hsub : q + 2 ^ w * (2 ^ (w * i) - 1) ≤ 2 ^ (w * (i + 1)) - 1 := by rw [hpow, Nat.mul_sub]; omega
    have hmul := Nat.mul_le_mul_right (val w n) hsub
    rw [Nat.add_mul] at hmul
    have hv := hv (by omega)
    have hlenpow : 2 ^ (w * t.length) = 2 ^ w * 2 ^ (w * (montStep w n mu t).length) := by
      rw [← hlen, Nat.mul_add, Nat.mul_one, Nat.add_comm, Nat.pow_add]
    obtain ⟨m, hm, hmv, hml, hmf⟩ := ih (t := montStep w n mu t) hfit (by omega) (by
      refine Nat.lt_of_mul_lt_mul_left (a := 2 ^ w) ?_
      rw [Nat.mul_add, hv, ← hlenpow, ← Nat.mul_assoc]; omega)
    refine ⟨q + 2 ^ w * m, ?_, ?_, ?_, hmf⟩
    · have : 2 ^ w * (m + 1) ≤ 2 ^ w * 2 ^ (w * i) := Nat.mul_le_mul_left _ hm
      rw [Nat.mul_add] at this; omega
    · rw [hpow, montSteps]; linear_combination 2 ^ w * hmv + hv
    · rw [montSteps]; omega

/-- The conditional subtraction of R124 (and of R122): of a number `top * R + val(x) < 2N` it leaves the number less `N` when
that is not below `N`, and it never needs the borrow out. -/
theorem condSub_value {w top : Nat} {x n : List Nat} (hx : limbsFit w x = true) (hn : limbsFit w n = true)
    (hl : x.length = n.length) (htop : top ≤ 1) (hlt : val w x + 2 ^ (w * n.length) * top < 2 * val w n) :
    val w (maskSelect w (maskOfBit w (top ||| (1 - (bnSub w x n).2))) (bnSub w x n).1 x) =
      (if val w n ≤ val w x + 2 ^ (w * n.length) * top then val w x + 2 ^ (w * n.length) * top - val w n
        else val w x + 2 ^ (w * n.length) * top) ∧
    limbsFit w (maskSelect w (maskOfBit w (top ||| (1 - (bnSub w x n).2))) (bnSub w x n).1 x) = true ∧
    (maskSelect w (maskOfBit w (top ||| (1 - (bnSub w x n).2))) (bnSub w x n).1 x).length = n.length := by
  have hv : val w (bnSub w x n).1 + val w n = val w x + 2 ^ (w * n.length) * (bnSub w x n).2 := by
    have := bnSubFrom_value (w := w) (bw := 0) (by omega) hl hx hn
    rw [hl] at this; exact this
  have hd : (bnSub w x n).1.length = x.length := length_bnSubFrom _ _ hl
  have hf : limbsFit w (bnSub w x n).1 = true := limbsFit_bnSubFrom _ _ _ _
  have hb : (bnSub w x n).2 ≤ 1 := bnSubFrom_borrow_le _ _ (by omega)
  have hdlt : val w (bnSub w x n).1 < 2 ^ (w * n.length) := by have := val_lt hf; rwa [hd, hl] at this
  have hxlt : val w x < 2 ^ (w * n.length) := by have := val_lt hx; rwa [hl] at this
  have hnlt : val w n < 2 ^ (w * n.length) := val_lt hn
  obtain ⟨h1, h2⟩ := or_not_bit htop hb
  rw [maskSelect_bit h1 hf hx hd]
  generalize (bnSub w x n).2 = bw at *
  generalize hs : top ||| (1 - bw) = s at *
  obtain rfl | rfl : top = 0 ∨ top = 1 := by omega
  · obtain rfl | rfl : bw = 0 ∨ bw = 1 := by omega
    · rw [if_pos (h2.2 (.inr rfl))]; exact ⟨by split <;> omega, hf, by omega⟩
    · rw [if_neg (by rw [h2]; omega)]; exact ⟨by split <;> omega, hx, hl⟩
  · rw [if_pos (h2.2 (.inl rfl))]
    obtain rfl | rfl : bw = 0 ∨ bw = 1 := by omega
    · exact ⟨by split <;> omega, hf, by omega⟩
    · exact ⟨by split <;> omega, hf, by omega⟩

/-- An odd modulus is prime to the radix. -/
theorem coprime_radix {N : Nat} (h : N % 2 = 1) (k : Nat) : Nat.Coprime N (2 ^ k) :=
  Nat.Coprime.pow_right k (by rw [Nat.coprime_two_right, Nat.odd_iff]; exact h)

/-- Multiplication by the radix can be cancelled modulo an odd number. -/
theorem radix_cancel {N x y k : Nat} (h : N % 2 = 1) (e : x * 2 ^ k % N = y * 2 ^ k % N) : x % N = y % N :=
  Nat.ModEq.cancel_right_of_coprime (coprime_radix h k) e

/-- A number whose lowest limb has a negated inverse modulo `2^W` is odd. -/
theorem odd_of_mu {w mu : Nat} {n : List Nat} (hw : 0 < w) (hmu : (limbAt n 0 * mu + 1) % 2 ^ w = 0) : val w n % 2 = 1 := by
  rw [← limbAt_zero_and_one hw, Nat.and_one_is_mod]
  by_contra h
  have h0 : limbAt n 0 % 2 = 0 := by omega
  have : (limbAt n 0 * mu + 1) % 2 = 1 := by rw [Nat.add_mod, Nat.mul_mod, h0]; simp
  obtain ⟨d, hd⟩ := Nat.dvd_of_mod_eq_zero hmu
  obtain ⟨v, rfl⟩ : ∃ v, w = v + 1 := ⟨w - 1, by omega⟩
  rw [hd, Nat.pow_succ, Nat.mul_comm (2 ^ v) 2, Nat.mul_assoc] at this
  omega

end Sys2Proof.Machine
end

