-- ==== Sys2Proof/Laws/Port.lean ====
section
/-! SUPPORT. What a host access can do, said once: when the register port allows it and the state it then leaves. -/

namespace Sys2Proof.Machine

theorem step_read {s : State} {o : BitVec 20} {wd : AccessWidth} {ms : List Move} (h : s.inputs = .read o wd :: ms) :
    step s = portRead o.toNat wd (s.withInputs ms) := step_of_head h

theorem step_write {s : State} {o : BitVec 20} {wd : AccessWidth} {v : Word32} {ms : List Move}
    (h : s.inputs = .write o wd v :: ms) : step s = portWrite o.toNat wd v (s.withInputs ms) := step_of_head h

/-- When a host read has a next state, and which (R53, R56, R58, R60, R62). -/
theorem portRead_next_iff (s t : State) (o : Nat) (wd : AccessWidth) :
    portRead o wd s = .next t ↔ wd = .word ∧ o % 4 = 0 ∧ s.mapped o = true ∧
      (s.busy = true → alwaysReadable o = true) ∧ t = s.reply (s.readPort o) := by
  unfold portRead
  rcases checkedAccess_cases s o wd (if s.busy && !alwaysReadable o then .refused .portBusy else .next (s.reply (s.readPort o)))
    with ⟨h, h1, h2, h3⟩ | ⟨h, h'⟩
  · rw [h]
    cases hb : s.busy <;> cases ha : alwaysReadable o <;> simp [h1, h2, h3, eq_comm]
  · constructor
    · intro he; exact absurd he (h' t)
    · rintro ⟨h1, h2, h3, -⟩
      rcases h with h | h | h
      · exact absurd h1 h
      · exact absurd h2 h
      · rw [h] at h3; cases h3

/-- When a host write has a next state, and which (R53, R56, R59, R61, R62). -/
theorem portWrite_next_iff (s t : State) (o : Nat) (wd : AccessWidth) (v : Word32) :
    portWrite o wd v s = .next t ↔ wd = .word ∧ o % 4 = 0 ∧ s.mapped o = true ∧
      (s.busy = true → o = 0x10 ∧ v.getLsbD 1 = true) ∧ t = s.writePort o v := by
  unfold portWrite
  rcases checkedAccess_cases s o wd
      (if s.busy && !(o == 0x10 && v.getLsbD 1) then .refused .portBusy else .next (s.writePort o v))
    with ⟨h, h1, h2, h3⟩ | ⟨h, h'⟩
  · rw [h]
    have hc : (s.busy && !(o == 0x10 && v.getLsbD 1)) = true ↔ ¬(s.busy = true → o = 0x10 ∧ v.getLsbD 1 = true) := by
      cases s.busy <;> cases v.getLsbD 1 <;> simp
    by_cases hp : s.busy = true → o = 0x10 ∧ v.getLsbD 1 = true
    · rw [if_neg (by rw [hc]; exact not_not_intro hp)]
      exact ⟨fun e => ⟨h1, h2, h3, hp, (Host.Outcome.next.inj e).symm⟩, fun e => by rw [e.2.2.2.2]⟩
    · rw [if_pos (hc.2 hp)]
      exact ⟨fun e => (by cases e), fun e => absurd e.2.2.2.1 hp⟩
  · constructor
    · intro he; exact absurd he (h' t)
    · rintro ⟨h1, h2, h3, -⟩
      rcases h with h | h | h
      · exact absurd h1 h
      · exact absurd h2 h
      · rw [h] at h3; cases h3

/-- Everything a permitted write can do: it stores in a command register, acts as `CTRL`, is ignored, or replaces one word of
the window. -/
theorem writePort_cases (s : State) (o : Nat) (v : Word32) :
    (o = 0x00 ∧ s.writePort o v = { s with cmd0 := v }) ∨ (o = 0x04 ∧ s.writePort o v = { s with cmd1 := v }) ∨
    (o = 0x08 ∧ s.writePort o v = { s with cmd2 := v }) ∨ (o = 0x0C ∧ s.writePort o v = { s with cmd3 := v }) ∨
    (o = 0x10 ∧ s.writePort o v = s.writeCtrl v) ∨ (0x10 < o ∧ o < 0x30 ∧ s.writePort o v = s) ∨
    (0x30 ≤ o ∧ s.writePort o v = s.writeWindow (o - windowBase) v) ∨ (o < 0x10 ∧ o % 4 ≠ 0 ∧ s.writePort o v = s) := by
  by_cases h : o < 0x30
  · have : s.writePort o v = s.writeRegister o v := by simp [State.writePort, isRegister, h]
    rw [this]; unfold State.writeRegister
    split
    · exact .inl ⟨‹_›, rfl⟩
    split
    · exact .inr (.inl ⟨‹_›, rfl⟩)
    split
    · exact .inr (.inr (.inl ⟨‹_›, rfl⟩))
    split
    · exact .inr (.inr (.inr (.inl ⟨‹_›, rfl⟩)))
    split
    · exact .inr (.inr (.inr (.inr (.inl ⟨‹_›, rfl⟩))))
    · by_cases h2 : 0x10 < o
      · exact .inr (.inr (.inr (.inr (.inr (.inl ⟨h2, h, rfl⟩)))))
      · exact .inr (.inr (.inr (.inr (.inr (.inr (.inr ⟨by omega, by omega, rfl⟩))))))
  · have : s.writePort o v = s.writeWindow (o - windowBase) v := by simp [State.writePort, isRegister, h]
    rw [this]
    exact .inr (.inr (.inr (.inr (.inr (.inr (.inl ⟨by omega, rfl⟩))))))

/-- Everything a write of `CTRL` can do (R27). -/
theorem writeCtrl_cases (s : State) (v : Word32) :
    (v.getLsbD 1 = true ∧ s.writeCtrl v = s.toReset) ∨
    (v.getLsbD 1 = false ∧ v.getLsbD 0 = true ∧ s.fault = false ∧ s.writeCtrl v = s.issue) ∨
    (v.getLsbD 1 = false ∧ (v.getLsbD 0 = true → s.fault = true) ∧ s.writeCtrl v = s) := by
  unfold State.writeCtrl
  cases v.getLsbD 1 <;> cases v.getLsbD 0 <;> cases hf : s.fault <;> simp

/-- An offset of the window is past the registers and inside the window. -/
theorem mapped_iff (s : State) (o : Nat) :
    s.mapped o = true ↔ o < 0x30 ∨ (windowBase ≤ o ∧ o < windowBase + s.windowBytes) := by
  simp [State.mapped, isRegister, State.inWindow]

end Sys2Proof.Machine
end

