-- ==== Sys2Proof/Tests/Slice0.lean ====
section
/-! SUPPORT. The model's own tests: ill-formed terms are refused, the words of `95_test_vectors.md` part 2.7 decode as listed,
each command's step gives the limbs the spec lists (parts 2.1 to 2.8), and, for every statement of `Certificates/Slice0` with
hypotheses, a concrete state and operands that meet them. Expected values are the spec's, cited by row. -/

namespace Sys2Proof.Tests.Slice0
open Sys2Proof Sys2Proof.Machine
set_option Elab.async false

/-! ## Well-formedness (R81) -/

theorem test_ctx_of_16_is_refused : (Instr.free 16).wellFormed = false := by decide
theorem test_ctx_of_15_is_accepted : (Instr.free 15).wellFormed = true := by decide
theorem test_len_of_65536_is_refused : (Instr.chkmod 0 65536).wellFormed = false := by decide
theorem test_len_of_65535_is_accepted : (Instr.init 0 0 65535).wellFormed = true := by decide
theorem test_ra_of_65536_is_refused : (Instr.tofield 0 0 65536).wellFormed = false := by decide
theorem test_rd_of_65536_is_refused : (Instr.one 0 65536).wellFormed = false := by decide
theorem test_rb_of_65536_is_refused : (Instr.mul 0 0 0 65536).wellFormed = false := by decide
theorem test_bbits_of_2_pow_32_is_refused : (Instr.expct 0 0 0 0 4294967296).wellFormed = false := by decide
theorem test_bbits_of_2_pow_32_less_1_is_accepted : (Instr.expvt 0 0 0 0 4294967295).wellFormed = true := by decide

/-! ## Decoding and encoding: the words of V7.1 to V7.16 and V7.20 to V7.31 -/

/-- The words decode to the command, and the command encodes to the words. -/
abbrev wordsOf (cw0 cw1 cw2 cw3 : Word32) (i : Instr) : Prop :=
  (decode (Command.ofWords cw0 cw1 cw2 cw3)).toOption = some i ∧ encode i = Command.ofWords cw0 cw1 cw2 cw3

theorem test_words_chkmod : wordsOf 0x01000004 0x00000010 0 0 (.chkmod 0x10 4) := by decide
theorem test_words_init : wordsOf 0x02010004 0x00000010 0 0 (.init 1 0x10 4) := by decide
theorem test_words_free : wordsOf 0x03030000 0 0 0 (.free 3) := by decide
theorem test_words_getlen : wordsOf 0x04010000 0 0 0 (.getlen 1) := by decide
theorem test_words_tofield : wordsOf 0x10010000 0x00200020 0 0 (.tofield 1 0x20 0x20) := by decide
theorem test_words_fromfield : wordsOf 0x11010000 0x00440040 0 0 (.fromfield 1 0x44 0x40) := by decide
theorem test_words_one : wordsOf 0x12020000 0x00140000 0 0 (.one 2 0x14) := by decide
theorem test_words_add : wordsOf 0x20010000 0x00400040 0x00200000 0 (.add 1 0x40 0x40 0x20) := by decide
theorem test_words_sub : wordsOf 0x21010000 0x00060005 0x00060000 0 (.sub 1 6 5 6) := by decide
theorem test_words_mul : wordsOf 0x22010000 0x00400010 0x00200000 0 (.mul 1 0x40 0x10 0x20) := by decide
theorem test_words_sqr : wordsOf 0x23000000 0x00030003 0 0 (.sqr 0 3 3) := by decide
theorem test_words_expct : wordsOf 0x30010000 0x00480020 0x00300000 0xff (.expct 1 0x48 0x20 0x30 255) := by decide
theorem test_words_expvt : wordsOf 0x31000000 0x00050002 0x00040000 7 (.expvt 0 5 2 4 7) := by decide
theorem test_words_inv : wordsOf 0x32020000 0x00120011 0 0 (.inv 2 0x12 0x11) := by decide
theorem test_words_of_the_largest_fields :
    wordsOf 0x220f0000 0xfffffffe 0xfffd0000 0 (.mul 15 0xffff 0xfffe 0xfffd) ∧
    wordsOf 0x31000000 0 0 0xffffffff (.expvt 0 0 0 0 0xffffffff) := by decide

/-- V7.12 as one 128-bit value (R91), through the numbering of the opcode table. -/
theorem test_table_word : decodeTableWord 128 0x000000ff003000000048002030010000 = some (.expct 1 0x48 0x20 0x30 255) := by
  decide

/-- Why the words are refused, if they are. -/
def refusal (cw0 cw1 cw2 cw3 : Word32) : Option Reject :=
  match decode (Command.ofWords cw0 cw1 cw2 cw3) with
  | .error r => some r
  | .ok _ => none

theorem test_reserved_opcodes : -- V7.20, V7.21
    refusal 0 0 0 0 = some (.reservedOpcode 0) ∧ refusal 0x05000000 0 0 0 = some (.reservedOpcode 5) ∧
    refusal 0xff000000 0 0 0 = some (.reservedOpcode 255) ∧ refusal 0x13000000 0 0 0 = some (.reservedOpcode 0x13) ∧
    refusal 0x24000000 0 0 0 = some (.reservedOpcode 0x24) ∧ refusal 0x33000000 0 0 0 = some (.reservedOpcode 0x33) := by
  decide
theorem test_nonzero_fields : -- V7.22 to V7.31
    refusal 0x03000000 1 0 0 = some (.nonzeroField .ra) ∧
    refusal 0x22000000 0x00400010 0x00200000 1 = some (.nonzeroField .bbits) ∧
    refusal 0x20190000 0x00400040 0x00200000 0 = some (.nonzeroField .z1) ∧
    refusal 0x22000000 0x00400010 0x00200001 0 = some (.nonzeroField .z2) ∧
    refusal 0x04000004 0 0 0 = some (.nonzeroField .len) ∧
    refusal 0x01010001 0 0 0 = some (.nonzeroField .ctx) ∧
    refusal 0x12000000 0x00400001 0 0 = some (.nonzeroField .ra) ∧
    refusal 0x23000000 0x00030003 0x00010000 0 = some (.nonzeroField .rb) ∧
    refusal 0x30000000 0x00050002 0x00040001 7 = some (.nonzeroField .z2) ∧
    refusal 0x02000001 0x00010000 0 0 = some (.nonzeroField .rd) := by decide

/-! ## A small machine -/

/-- The next state of an outcome, if it is one. -/
def nextOf (o : Host.Outcome State Fault Refusal) : Option State :=
  match o with
  | .next t => some t
  | .fault _ => none
  | .refused _ => none

/-- A small instance of width `wd`: two slots, two limbs, 16 limbs of memory. -/
def small (wd : LimbWidth) : Config := { width := wd, nctx := 2, lenMax := 2, memLimbs := 16 }

/-- The context of V2.10 (`W = 64`) or V2.11 (`W = 32`): modulus 97. -/
def slot97 (wd : LimbWidth) : Slot :=
  match wd with
  | .w32 => { valid := true, len := 1, n := [0x61, 0], mu := 0xa0fd5c5f, r2 := [0x3d, 0] }
  | .w64 => { valid := true, len := 1, n := [0x61, 0], mu := 0x5c5f02a3a0fd5c5f, r2 := [0x23, 0] }

/-- The small instance, the given limbs from address 0 up, slot 0 the context of modulus 97. -/
def field97 (wd : LimbWidth) (limbs : List Nat) : State :=
  ({ State.resetOf (small wd) with slots := [slot97 wd, Slot.zero 2] } : State).memWrite 0 limbs.length limbs

/-- One step of the engine on the issued command, and a view of the state it leaves. -/
def run {α : Type} (i : Instr) (s : State) (view : State → α) : Option α := (nextOf (step (s.inFlight (encode i)))).map view

/-- The limb at `a` after one step of the issued command on `field97`. -/
def limbAfter (wd : LimbWidth) (i : Instr) (limbs : List Nat) (a : Nat) : Option Nat :=
  run i (field97 wd limbs) fun t => t.mem.limb wd a

/-! ## One step of each command -/

theorem test_chkmod_of_97 : -- V2.5
    run (.chkmod 0 1) (field97 .w32 [0x61]) (fun t => (t.result, t.statusWord)) = some (1, 0xa) := by decide +kernel
theorem test_chkmod_of_96_0 : -- V2.7
    run (.chkmod 0 2) (field97 .w64 [0, 1]) (fun t => (t.result, t.statusWord)) = some (0, 0x2) := by decide +kernel
theorem test_init_of_97 : -- V2.11
    run (.init 1 0 1) (field97 .w32 [0x61]) (fun t => t.slot 1) = some (slot97 .w32) := by decide +kernel
theorem test_init_of_97_in_two_limbs : -- V2.12
    run (.init 1 0 2) (field97 .w64 [0x61]) (fun t => t.slot 1) =
      some { valid := true, len := 2, n := [0x61, 0], mu := 0x5c5f02a3a0fd5c5f, r2 := [0x3d, 0] } := by decide +kernel
theorem test_init_of_96 : -- V2.25
    run (.init 1 0 1) (field97 .w64 [0x60]) (fun t => ((t.slot 1).valid, (t.slot 1).n, t.statusWord)) =
      some (true, [0x60, 0], 0x2) := by decide +kernel
theorem test_free : -- V2.27
    run (.free 0) (field97 .w64 []) (fun t => (t.slots, t.ctxValidWord)) = some ([Slot.zero 2, Slot.zero 2], 0) := by
  decide +kernel
theorem test_getlen : -- V2.26
    run (.getlen 0) (field97 .w32 []) (fun t => (t.result, t.statusWord)) = some (1, 0x2) := by decide +kernel
theorem test_tofield_of_5 : -- V3.1, V3.2
    limbAfter .w64 (.tofield 0 2 1) [0, 5] 2 = some 0x0e ∧ limbAfter .w32 (.tofield 0 2 1) [0, 5] 2 = some 0x4e := by
  decide +kernel
theorem test_tofield_in_place : -- V3.10
    limbAfter .w64 (.tofield 0 1 1) [0, 5] 1 = some 0x0e := by decide +kernel
theorem test_fromfield : -- V3.8
    limbAfter .w64 (.fromfield 0 1 0) [0x3d] 1 = some 1 ∧ limbAfter .w64 (.fromfield 0 1 0) [0x23] 1 = some 0x3d := by
  decide +kernel
theorem test_one : -- V4.15
    limbAfter .w64 (.one 0 3) [] 3 = some 0x3d ∧ limbAfter .w32 (.one 0 3) [] 3 = some 0x23 := by decide +kernel
theorem test_add_to_zero_and_wrapping : -- V4.2, V4.3
    limbAfter .w64 (.add 0 2 0 1) [0x2b, 0x36] 2 = some 0 ∧ limbAfter .w32 (.add 0 2 0 1) [4, 4] 2 = some 8 := by
  decide +kernel
theorem test_sub_both_ways : -- V4.5, V4.6
    limbAfter .w64 (.sub 0 2 0 1) [0x36, 0x2b] 2 = some 0x0b ∧ limbAfter .w64 (.sub 0 2 0 1) [0x2b, 0x36] 2 = some 0x56 := by
  decide +kernel
theorem test_mul_3_by_5 : -- V4.9
    limbAfter .w64 (.mul 0 2 0 1) [0x56, 0x0e] 2 = some 0x2a ∧ limbAfter .w32 (.mul 0 2 0 1) [8, 0x4e] 2 = some 0x28 := by
  decide +kernel
theorem test_mul_in_place : -- V4.31
    limbAfter .w64 (.mul 0 2 2 2) [0, 0, 0x0e] 2 = some 0x46 := by decide +kernel
theorem test_sqr_of_96 : -- V4.13
    limbAfter .w64 (.sqr 0 2 0) [0x24] 2 = some 0x3d ∧ limbAfter .w32 (.sqr 0 2 0) [0x3e] 2 = some 0x23 := by
  decide +kernel
theorem test_expct_ladder : -- V5.2
    limbAfter .w64 (.expct 0 2 0 1 3) [0x0e, 5] 2 = some 0x14 := by decide +kernel
theorem test_window_with_scan : -- the value of V5.1 (R201 (e): the path does not matter), one full and a 3-bit window
    expWindow 64 [0x61] 0x5c5f02a3a0fd5c5f selectCt [0x3d] [0x0e] [0x60] 7 = [0x3d] := by decide +kernel
theorem test_expvt_bit_serial : -- V5.1
    limbAfter .w32 (.expvt 0 2 0 1 7) [0x4e, 0x60] 2 = some 0x23 := by decide +kernel
theorem test_window_with_index : -- the value of V5.2, two full windows
    expWindow 32 [0x61] 0xa0fd5c5f selectVt [0x23] [0x4e] [5] 8 = [0x38] := by decide +kernel
theorem test_inv_of_3 : -- V6.1, V6.2
    limbAfter .w64 (.inv 0 1 0) [0x56] 1 = some 0x55 ∧ limbAfter .w32 (.inv 0 1 0) [8] 1 = some 0x2c := by decide +kernel

/-! ## Primitives where a wrong carry or splice would show -/

theorem test_montgomery_reduction_with_top_limb : -- V1.63
    montReduce 64 [0xffffffffffffff61, 0xffffffffffffffff] 0xb5efe63d2eb11b5f
      [0x6400, 0, 0xfffffffffffffec0, 0xffffffffffffffff] = [0xb5efe63d2eb11af1, 0xb11b5efe63d2eb11] := by decide +kernel
theorem test_sum_with_carry : -- V1.44
    addModN 64 [0xffffffffffffff61, 0xffffffffffffffff] [0xffffffffffffff60, 0xffffffffffffffff]
      [0xffffffffffffff60, 0xffffffffffffffff] = [0xffffffffffffff5f, 0xffffffffffffffff] := by decide +kernel
theorem test_product_of_all_ones : -- V1.14
    bnMul 32 [0xffffffff, 0xffffffff] [0xffffffff, 0xffffffff] = [1, 0, 0xfffffffe, 0xffffffff] := by decide +kernel
theorem test_window_across_limbs : -- V1.33, V1.35
    getWindow 64 [0xf123456789abcdef, 0x0f0f0f0f0f0f0f0e] 63 4 = 13 ∧
    getWindow 32 [0x89abcdef, 0xf1234567, 0x0f0f0f0e, 0x0f0f0f0f] 63 4 = 13 ∧
    getWindow 32 [0x89abcdef, 0xf1234567, 0x0f0f0f0e, 0x0f0f0f0f] 31 4 = 15 := by decide +kernel
theorem test_mod_inv_limb : -- V1.18, V1.19, V1.20
    modInvLimb 64 0x61 = 0x5c5f02a3a0fd5c5f ∧ modInvLimb 32 1 = 0xffffffff ∧ modInvLimb 32 0xffffffff = 1 := by
  decide +kernel
theorem test_top_index : -- V1.16, V1.17
    topIndex [5, 0, 7, 0] = 2 ∧ topIndex [0, 0, 0, 0] = 0 := by decide +kernel
theorem test_operation_counts : -- V5.20, V5.21
    montCount (expCtT 64 [0x61] 0x5c5f02a3a0fd5c5f [0x3d] [0x0e] [0x60] 7).2 = 14 ∧
    montCount (expVtT 64 [0x61] 0x5c5f02a3a0fd5c5f [0x3d] [0x0e] [0x60] 7).2 = 9 := by decide +kernel

/-! ## Faults, the port, reset -/

/-- `STATUS`, `FAULTCODE` and `FAULTINFO` after one step of the issued command. -/
def faultAfter (i : Instr) (s : State) : Option (Word32 × Word32 × Word32) :=
  run i s fun t => (t.statusWord, t.faultCodeWord, t.faultInfo)

theorem test_slot_faults : -- V8.1, V8.3, V8.5, V8.6
    faultAfter (.mul 9 0x40 0x10 0x20) (field97 .w64 []) = some (4, 2, 0x22090000) ∧
    faultAfter (.mul 1 0x3fe 0x10 0x20) (field97 .w64 []) = some (4, 3, 0x22010000) ∧
    faultAfter (.init 0 0x10 4) (field97 .w64 []) = some (4, 4, 0x02000004) ∧
    faultAfter (.init 0 0 0) (field97 .w64 []) = some (4, 4, 0x02000000) := by decide +kernel
theorem test_length_and_address_faults : -- V8.7, V8.12, V8.13, V8.16, V8.28 at the small sizes
    faultAfter (.init 1 0 0) (field97 .w64 []) = some (4, 5, 0x02010000) ∧
    faultAfter (.chkmod 0 3) (field97 .w64 []) = some (4, 5, 0x01000003) ∧
    faultAfter (.chkmod 15 2) (field97 .w64 []) = some (4, 6, 0x01000002) ∧
    faultAfter (.mul 0 0 0 0xffff) (field97 .w64 []) = some (4, 6, 0x22000000) ∧
    faultAfter (.expct 0 0 1 16 0) (field97 .w64 []) = some (4, 6, 0x30000000) := by decide +kernel
theorem test_overlap_fault : -- V8.25 at the small sizes: a 2-limb exponent meets the 1-limb destination
    faultAfter (.expct 0 4 0 4 33) (field97 .w32 []) = some (4, 7, 0x30000000) ∧
    faultAfter (.expct 0 4 0 4 32) (field97 .w32 []) = some (2, 0, 0) := by decide +kernel

/-- The small instance with one move to come. -/
def withMove (m : Move) (s : State) : State := s.withInputs [m]

/-- The word the host's next read returns. -/
def readBack (o : BitVec 20) (s : State) : Option (List Word32) := (nextOf (step (withMove (.read o .word) s))).map State.replies

theorem test_config_reads : -- V9.1, V9.2, V9.3
    readBack 0x28 State.reset = some [0x00400440] ∧
    readBack 0x28 (State.resetOf { width := .w32, nctx := 16, lenMax := 128, memLimbs := 65536 }) = some [0x00801020] ∧
    readBack 0x2c (State.resetOf { width := .w32, nctx := 16, lenMax := 128, memLimbs := 65536 }) = some [0x00010000] := by
  decide +kernel
theorem test_window_write_low_half : -- V9.6
    ((nextOf (step (withMove (.write 0x80008 .word 0) (field97 .w64 [0, 0x0123456789abcdef])))).map
      fun t => t.mem.limb .w64 1) = some 0x0123456700000000 := by decide +kernel
theorem test_start_in_the_reset_state : -- V9.11
    (nextOf (step (withMove (.write 0x10 .word 1) State.reset))).bind
      (fun t => (nextOf (step t)).map fun u => (u.statusWord, u.faultCodeWord, u.faultInfo)) = some (4, 1, 0) := by
  decide +kernel
theorem test_reset_beats_start : -- V9.10
    (nextOf (step (withMove (.write 0x10 .word 3) { State.reset with cmd0 := 0xdeadbeef }))).map
      (fun t => (t.cmd0, t.statusWord)) = some (0, 0) := by decide +kernel
theorem test_refused_accesses : -- V9.12, V9.13
    nextOf (step (withMove (.read 0x82000 .word) State.reset)) = none ∧
    nextOf (step (withMove (.read 0x30 .word) State.reset)) = none ∧
    nextOf (step (withMove (.read 0x80002 .word) State.reset)) = none ∧
    nextOf (step (withMove (.read 0x80000 .byte) State.reset)) = none := by decide +kernel
theorem test_command_runs_after_reset : -- the first step after reset runs the placed command: CHKMOD [0], 1 of a zero limb
    (nextOf (step (State.reset.withFetchWord 128 0x01000001))).map (fun t => (t.statusWord, t.result)) = some (2, 0) := by
  decide +kernel

/-! ## Witnesses: a concrete state and operands that meet the hypotheses of each statement, clause by clause -/

/-- Modulus 97 in slot 0; the forms of 3 and 5 at `[0]` and `[1]`, the exponent 5 at `[2]`, `W = 64`. Idle. -/
def idle : State := field97 .w64 [0x56, 0x0e, 0x05]

/-- The same with the command `c` in flight and no move left but the engine's. -/
def flying (c : Command) : State := (idle.inFlight c).withInputs []

/-- The same after an illegal command trapped. -/
def dead : State := (flying 0).trapped 0x01

theorem idle_inv : idle.Inv := by decide +kernel
theorem flying_inv : (flying (encode (.mul 0 3 0 1))).Inv := by decide +kernel
theorem dead_inv : dead.Inv := by decide +kernel
theorem flying_completes (c : Command) : (flying c).completesNext := ⟨rfl, .inl rfl⟩
theorem inFlight_completes (c : Command) : (idle.inFlight c).completesNext := ⟨rfl, .inr ⟨_, rfl⟩⟩

theorem witness_DecodeInvertsEncode : (Instr.expct 15 0xffff 0xfffe 0xfffd 0xffffffff).wellFormed = true := by decide
theorem witness_EveryLegalWordIsTheEncodingOfItsCommand :
    decode 0x000000ff003000000048002030010000#128 = .ok (.expct 1 0x48 0x20 0x30 255) := rfl
theorem witness_LegalCommandsAreTheTableRows :
    ∃ r ∈ opcodeTable, r.selects (encode (.one 15 0xffff)) = true := by decide
theorem witness_FieldsStandAtTheirBits : (Instr.chkmod 0xffff 0xffff).wellFormed = true := by decide
theorem witness_IllegalCommandTraps_reserved : (flying (encode (.free 0) + 0x02000000)).completesNext ∧
    ((flying (encode (.free 0) + 0x02000000)).lc.extractLsb' 24 8).toNat ∉
      [0x01, 0x02, 0x03, 0x04, 0x10, 0x11, 0x12, 0x20, 0x21, 0x22, 0x23, 0x30, 0x31, 0x32] :=
  ⟨flying_completes _, by decide +kernel⟩
theorem witness_IllegalCommandTraps_nonzero : (flying (encode (.free 0) + 1)).completesNext ∧
    ((flying (encode (.free 0) + 1)).lc.extractLsb' 24 8).toNat = Opcode.free.code ∧
    Field.len ∈ Opcode.free.format.mustBeZero ∧ Field.len.get (flying (encode (.free 0) + 1)).lc ≠ 0 :=
  ⟨flying_completes _, by decide +kernel⟩
theorem witness_IllegalCommandTraps_zero : (flying 0).completesNext ∧ (flying 0).lc = 0 := ⟨flying_completes _, rfl⟩
theorem witness_StepRunsTheDecodedCommand : (idle.inFlight (encode (.free 0))).completesNext ∧
    decode (idle.inFlight (encode (.free 0))).lc = .ok (.free 0) := ⟨inFlight_completes _, rfl⟩

theorem witness_ControlRegisterActs :
    (withMove (.write 0x10 .word 3) idle).inputs = [.write 0x10 .word 3] ∧ (3 : Word32).getLsbD 1 = true ∧
    (1 : Word32).getLsbD 1 = false ∧ (1 : Word32).getLsbD 0 = true ∧ (idle.busy, idle.fault) = (false, false) ∧
    (dead.busy, dead.fault) = (false, true) ∧ (flying 0).busy = true ∧ (4 : Word32).getLsbD 1 = false ∧
    (4 : Word32).getLsbD 0 = false ∧ (withMove (.read 0x10 .word) idle).inputs = [.read 0x10 .word] := by decide +kernel
theorem witness_ResetLeavesTheResetTable :
    (withMove .hardReset (flying 0)).inputs = [.hardReset] ∧
    (withMove (.write 0x10 .word 2) dead).inputs = [.write 0x10 .word 2] ∧ (2 : Word32).getLsbD 1 = true := by
  decide +kernel
theorem witness_BusyPortAllowsOnlySixReadsAndReset :
    (flying 0).busy = true ∧ (withMove (.read 0x2C .word) (flying 0)).inputs = [.read 0x2C .word] ∧
    (withMove (.write 0x10 .word 2) (flying 0)).inputs = [.write 0x10 .word 2] ∧ (2 : Word32).getLsbD 1 = true ∧
    ¬((0x18 : BitVec 20) = 0x14 ∨ (0x18 : BitVec 20) = 0x1C ∨ (0x18 : BitVec 20) = 0x20 ∨ (0x18 : BitVec 20) = 0x24 ∨
      (0x18 : BitVec 20) = 0x28 ∨ (0x18 : BitVec 20) = 0x2C) ∧
    ¬((0x10 : BitVec 20) = 0x10 ∧ (1 : Word32).getLsbD 1 = true) := by decide +kernel
theorem witness_RefusedAccessHasNoMove :
    AccessWidth.burst64 ≠ .word ∧ (0x80002 : BitVec 20).toNat % 4 ≠ 0 ∧
    (0x30 ≤ (0x30 : BitVec 20).toNat ∧ (0x30 : BitVec 20).toNat < 0x80000) ∧
    (0x30 ≤ (0x7fffc : BitVec 20).toNat ∧ (0x7fffc : BitVec 20).toNat < 0x80000) ∧
    0x80000 + idle.cfg.memLimbs * idle.cfg.width.bytes ≤ (0x80080 : BitVec 20).toNat ∧
    (withMove (.read 0x80080 .word) idle).inputs = [.read 0x80080 .word] ∧ (flying 0).busy = true ∧
    (0x18 : BitVec 20) ∉ [(0x14 : BitVec 20), 0x1C, 0x20, 0x24, 0x28, 0x2C] ∧ (1 : Word32).getLsbD 1 = false := by
  decide +kernel
theorem witness_ConfigAndMemsizeReadTheInstance :
    ({ width := .w64, nctx := 16, lenMax := 65535, memLimbs := 65536 } : Config).legal = true ∧
    (withMove (.read 0x28 .word) idle).inputs = [.read 0x28 .word] ∧
    (withMove (.read 0x2C .word) idle).inputs = [.read 0x2C .word] ∧ idle.busy = false ∧
    (withMove (.write 0x2C .word 7) idle).inputs = [.write 0x2C .word 7] := by decide +kernel
theorem witness_register_reads : -- CTXVALID, STATUS, FAULTCODE, FAULTINFO in an invariant state
    (withMove (.read 0x24 .word) idle).Inv ∧ (withMove (.read 0x14 .word) idle).Inv ∧
    (withMove (.read 0x1C .word) dead).Inv ∧ dead.fault = true ∧ (withMove (.read 0x20 .word) idle).Inv ∧
    idle.fault = false ∧ (withMove (.write 0x24 .word 7) idle).Inv ∧ (withMove (.write 0x14 .word 7) idle).Inv ∧
    idle.busy = false := by decide +kernel
theorem witness_CommandRegistersHoldWhatTheHostWrote :
    idle.busy = false ∧ (withMove (.write 0x0C .word 7) idle).inputs = [.write 0x0C .word 7] ∧
    (0x2C : BitVec 20) ∈ [(0x14 : BitVec 20), 0x18, 0x1C, 0x20, 0x24, 0x28, 0x2C] ∧ (flying 0).busy = true ∧
    (0x0C : BitVec 20) ∈ [(0x00 : BitVec 20), 0x04, 0x08, 0x0C] ∧ (nextOf (step (flying 0))).isSome ∧
    idle.fault = false ∧ (nextOf (step (withMove (.write 0x10 .word 1) idle))).isSome := by decide +kernel
theorem witness_CommandRegistersHoldWhatTheHostWrote_busy : -- a read and a write of `CMD3` while busy
    (withMove (.read 0x0C .word) (flying 0)).busy = true ∧
    (withMove (.read 0x0C .word) (flying 0)).inputs.head? = some (.read 0x0C .word) ∧
    (withMove (.write 0x0C .word 7) (flying 0)).inputs.head? = some (.write 0x0C .word 7) := by decide +kernel
theorem witness_WindowWriteReplacesOneWord : -- the last word of the window, an odd one for `W = 64`
    (withMove (.write 0x8007c .word 7) idle).Inv ∧ idle.busy = false ∧
    (0x8007c : BitVec 20).toNat = 0x80000 + 4 * 31 ∧ 31 < idle.cfg.memLimbs * (idle.cfg.w / 32) ∧
    (field97 .w32 []).Inv ∧ 15 < (field97 .w32 []).cfg.memLimbs * ((field97 .w32 []).cfg.w / 32) := by decide +kernel
theorem witness_WindowReadReturnsTheWordOfTheLimb :
    idle.busy = false ∧ (withMove (.read 0x8007c .word) idle).inputs = [.read 0x8007c .word] ∧
    (0x8007c : BitVec 20).toNat = 0x80000 + 4 * 31 ∧ 31 < idle.cfg.memLimbs * (idle.cfg.w / 32) ∧
    7 < LimbWidth.w64.bytes := by decide +kernel

theorem witness_SlotNumberOutOfRangeTraps :
    slotNamed (.free 2) = some 2 ∧ idle.cfg.nctx ≤ 2 ∧ (Instr.free 15).wellFormed = true ∧
    (State.resetOf { width := .w64, nctx := 16, lenMax := 1, memLimbs := 1 }).cfg.nctx = 16 ∧
    (State.resetOf { width := .w64, nctx := 16, lenMax := 1, memLimbs := 1 }).fault = false := by decide +kernel
theorem witness_InvalidSlotTraps : slotNamed (.free 1) = some 1 ∧ 1 < idle.cfg.nctx ∧ (idle.slot 1).valid = false := by
  decide +kernel
theorem witness_InvalidSlotTraps_form (ra len : Nat) : Instr.free 1 ≠ .init 1 ra len := by simp
theorem witness_InitOfAValidSlotTraps : 0 < idle.cfg.nctx ∧ (idle.slot 0).valid = true := by decide +kernel
theorem witness_LengthOutOfRangeTraps : idle.cfg.lenMax < 3 ∧ 1 < idle.cfg.nctx ∧ (idle.slot 1).valid = false := by
  decide +kernel
theorem witness_BufferOutsideMemoryTraps :
    2 ≤ idle.cfg.lenMax ∧ ¬idle.inside 15 2 ∧ 1 < idle.cfg.nctx ∧ (idle.slot 1).valid = false ∧ idle.accepts 0 ∧
    ¬idle.inside 16 (idle.ctxLen 0) ∧ ¬idle.inside 16 (max 1 ((0 + idle.cfg.w - 1) / idle.cfg.w)) := by decide +kernel
theorem witness_PartialOverlapTraps : -- two-limb operands one limb apart; a two-limb exponent on a one-limb destination
    let two : State := { idle with slots := [{ slot97 .w64 with len := 2 }, Slot.zero 2] }
    two.accepts 0 ∧ two.inside 4 (two.ctxLen 0) ∧ two.inside 5 (two.ctxLen 0) ∧
    ¬apart 4 (two.ctxLen 0) 5 (two.ctxLen 0) ∧ ¬apart 5 (two.ctxLen 0) 4 (two.ctxLen 0) ∧
    idle.inside 4 (bLen idle.cfg.w 65) ∧ ¬apart 4 (idle.ctxLen 0) 4 (bLen idle.cfg.w 65) ∧ idle.fault = false := by
  decide +kernel
theorem witness_EveryCommandInFlightFinishes : (flying (encode (.mul 0 3 0 1))).completesNext := flying_completes _
theorem witness_FaultRecordLastsUntilReset :
    dead.Inv ∧ dead.fault = true ∧ (nextOf (step (withMove (.write 0x10 .word 1) dead))).isSome ∧
    (nextOf (step (withMove .hardReset dead))).isSome ∧ (nextOf (step (withMove (.write 0x10 .word 2) dead))).isSome := by
  decide +kernel
theorem witness_FaultRecordLastsUntilReset_moves : -- a START is no reset; the environment's reset and a soft reset are
    ¬(withMove (.write 0x10 .word 1) dead).resetNext ∧ (withMove .hardReset dead).resetNext ∧
    (withMove (.write 0x10 .word 3) dead).resetNext := by
  refine ⟨?_, .inl rfl, .inr ⟨3, rfl, by decide⟩⟩
  rintro (h | ⟨v, h, hv⟩)
  · cases h
  · cases h; exact absurd hv (by decide)
theorem witness_LifecycleOfTheEngine :
    (nextOf (step (withMove (.write 0x10 .word 1) idle))).isSome ∧ (nextOf (step (withMove (.write 0x10 .word 1) dead))).isSome ∧
    (nextOf (step (withMove .hardReset (flying 0)))).isSome ∧ (nextOf (step (withMove (.write 0x10 .word 2) dead))).isSome ∧
    (nextOf (step (withMove (.read 0x14 .word) idle))).isSome ∧
    (nextOf (step (withMove (.write 0x0C .word 1) idle))).isSome ∧
    (nextOf (step (withMove (.read 0x8007c .word) idle))).isSome ∧
    (nextOf (step (withMove (.read 0x8007c .word) (flying 0)))).isSome = false := by decide +kernel
theorem witness_CommandTouchesOnlyItsFootprint : -- a command with a destination and one without
    (∃ t, exec (.mul 0 3 0 1) idle = .next t) ∧ (∃ t, exec (.chkmod 0 1) idle = .next t) ∧
    (footprint (.mul 0 3 0 1) idle).dest = some ⟨3, 1⟩ ∧ (footprint (.chkmod 0 1) idle).dest = none :=
  ⟨exec_total _ _, exec_total _ _, by decide +kernel⟩
theorem witness_OnlyInitAndFreeWriteSlots :
    ((nextOf (exec (.free 0) idle)).map fun t => decide (t.slots = idle.slots)) = some false ∧
    ((nextOf (exec (.init 1 0 1) idle)).map fun t => decide (t.slots = idle.slots)) = some false ∧
    slotNamed (.mul 0 3 0 1) = some 0 ∧ [slot97 .w64, slot97 .w64][0]? = idle.slots[0]? := by decide +kernel
theorem witness_ResultIsWrittenByChkmodAndGetlenOnly :
    ((nextOf (exec (.chkmod 1 1) { idle with result := 5 })).map fun t => decide (t.result = 5)) = some false ∧
    ((nextOf (exec (.getlen 0) idle)).map fun t => decide (t.result = idle.result)) = some false ∧
    ((nextOf (exec (.chkmod 2 1) idle)).map fun t => decide (t.chk = idle.chk)) = some false ∧ idle.busy = false := by
  decide +kernel

theorem witness_ChkmodTestsOddAndAboveOne : 2 ≤ idle.cfg.lenMax ∧ idle.inside 14 2 := by decide +kernel
theorem witness_InitBuildsTheContext :
    idle.Inv ∧ 1 < idle.cfg.nctx ∧ (idle.slot 1).valid = false ∧ 1 ≤ idle.cfg.lenMax ∧ idle.inside 2 1 ∧
    val idle.cfg.w (idle.memRead 2 1) % 2 = 1 ∧ 1 < val idle.cfg.w (idle.memRead 2 1) := by decide +kernel
theorem witness_InitOnABadModulusStillCompletes :
    idle.Inv ∧ 1 < idle.cfg.nctx ∧ (idle.slot 1).valid = false ∧ 1 ≤ idle.cfg.lenMax ∧ idle.inside 0 1 ∧
    val idle.cfg.w (idle.memRead 0 1) % 2 = 0 ∧ val idle.cfg.w (idle.memRead 3 1) ≤ 1 := by decide +kernel
theorem witness_FreeZeroesTheSlot : idle.accepts 0 := by decide +kernel
theorem witness_GetlenReturnsTheLength : idle.accepts 0 := by decide +kernel
theorem witness_format_U : -- TOFIELD, FROMFIELD, SQR, INV, in place and apart
    idle.Inv ∧ idle.takesU 0 15 0 ∧ idle.takesU 0 0 0 ∧ idle.oddModulus 0 ∧ idle.operand 0 0 < idle.modulusValue 0 := by
  decide +kernel
theorem witness_OneWritesTheRadixModN :
    idle.Inv ∧ idle.accepts 0 ∧ idle.inside 15 (idle.ctxLen 0) ∧ idle.oddModulus 0 := by decide +kernel
theorem witness_format_B : -- ADD, SUB, MUL, all coinciding and apart
    idle.Inv ∧ idle.takesB 0 15 0 1 ∧ idle.takesB 0 1 1 1 ∧ idle.oddModulus 0 ∧
    idle.operand 0 0 < idle.modulusValue 0 ∧ idle.operand 0 1 < idle.modulusValue 0 := by decide +kernel
theorem witness_format_E : -- EXPCT, EXPVT, on both paths, and with no exponent bit
    idle.Inv ∧ idle.oddModulus 0 ∧ idle.operand 0 1 < idle.modulusValue 0 ∧
    (idle.takesE 0 15 1 2 199 ∧ idle.exponent 2 199 < 2 ^ 199) ∧ (idle.takesE 0 15 1 2 200 ∧ idle.exponent 2 200 < 2 ^ 200) ∧
    (idle.takesE 0 15 1 3 0 ∧ idle.exponent 3 0 < 2 ^ 0) := by decide +kernel
theorem witness_UncheckedValuesStillComplete : -- a source at the modulus and above it
    let s := field97 .w64 [0x61, 0xff]
    s.accepts 0 ∧ s.inside 15 (s.ctxLen 0) ∧ s.takesU 0 15 0 ∧ s.takesB 0 15 0 1 ∧ s.takesE 0 15 0 1 3 ∧
    ¬(s.operand 0 0 < s.modulusValue 0) ∧ ¬(s.exponent 1 3 < 2 ^ 3) := by decide +kernel

theorem witness_ConversionsAreInverse :
    idle.takesU 0 4 0 ∧ idle.takesU 0 15 4 ∧ idle.takesU 0 0 0 ∧ idle.oddModulus 0 ∧
    idle.operand 0 0 < idle.modulusValue 0 := by decide +kernel
theorem witness_FieldCommandsAreHomomorphic :
    idle.Inv ∧ idle.accepts 0 ∧ idle.oddModulus 0 ∧ (∀ a ∈ [0, 1, 4, 5, 15], idle.inside a (idle.ctxLen 0)) ∧
    (∀ a ∈ [0, 1], ∀ b ∈ [4, 5, 15], disjoint a (idle.ctxLen 0) b (idle.ctxLen 0)) ∧
    disjoint 4 (idle.ctxLen 0) 5 (idle.ctxLen 0) ∧ disjoint 4 (idle.ctxLen 0) 15 (idle.ctxLen 0) ∧
    disjoint 5 (idle.ctxLen 0) 15 (idle.ctxLen 0) ∧ idle.operand 0 0 < idle.modulusValue 0 ∧
    idle.operand 0 1 < idle.modulusValue 0 := by decide +kernel
/-- The forms of 3 and 5 at `[0]` and `[1]`, exponent 5 at `[2]`, 1 at `[6]`. -/
def bases : State := field97 .w64 [0x56, 0x0e, 0x05, 0, 0, 0, 0x01]

theorem witness_ExponentiationLaws : -- the exponent 5, converted back
    bases.Inv ∧ bases.oddModulus 0 ∧ bases.operand 0 1 < bases.modulusValue 0 ∧ bases.takesE 0 15 1 2 3 ∧
    bases.exponent 2 3 < 2 ^ 3 ∧ bases.takesU 0 1 0 ∧ disjoint 1 (bases.ctxLen 0) 2 (bLen bases.cfg.w 3) ∧
    bases.operand 0 0 < bases.modulusValue 0 := by decide +kernel
theorem witness_ExponentiationLaws_corners : -- the exponents 0 and 1, and bounds on both sides of 200
    bases.takesE 0 15 1 3 0 ∧ bases.exponent 3 0 = 0 ∧ bases.takesE 0 15 1 6 1 ∧ bases.exponent 6 1 = 1 ∧
    bases.takesE 0 15 1 6 256 ∧ bases.exponent 6 256 = bases.exponent 6 1 ∧ bases.exponent 6 1 < 2 ^ 256 := by
  decide +kernel
theorem witness_InverseTimesOperandIsOne :
    idle.Inv ∧ idle.takesU 0 4 0 ∧ idle.takesB 0 15 0 4 ∧ disjoint 4 (idle.ctxLen 0) 0 (idle.ctxLen 0) ∧ idle.oddModulus 0 ∧
    Nat.Prime (idle.modulusValue 0) ∧ idle.operand 0 0 < idle.modulusValue 0 ∧ 0 < idle.operand 0 0 := by
  have h : idle.modulusValue 0 = 97 := by decide +kernel
  rw [h]
  refine ⟨idle_inv, ?_, ?_, ?_, ?_, by norm_num, ?_, ?_⟩ <;> decide +kernel

theorem witness_MontgomeryReductionValue : -- V1.63
    let n := [0xffffffffffffff61, 0xffffffffffffffff]
    let t := [0x6400, 0, 0xfffffffffffffec0, 0xffffffffffffffff]
    limbsFit 64 n = true ∧ limbsFit 64 t = true ∧ t.length = 2 * n.length ∧
    (limbAt n 0 * 0xb5efe63d2eb11b5f + 1) % 2 ^ 64 = 0 ∧ val 64 t < val 64 n * 2 ^ (64 * n.length) := by decide +kernel
theorem witness_LimbVectorArithmeticValues :
    limbsFit 32 [0xffffffff, 0] = true ∧ limbsFit 32 [1, 0xffffffff] = true ∧ ([0xffffffff, 0] : List Nat).length = [1, 0xffffffff].length := by
  decide +kernel
theorem witness_ModularAddAndSubtractValues :
    limbsFit 64 [0x61] = true ∧ limbsFit 64 [0x60] = true ∧ limbsFit 64 [0] = true ∧ ([0x60] : List Nat).length = [0x61].length ∧
    val 64 [0x60] < val 64 [0x61] ∧ val 64 [0] < val 64 [0x61] := by decide +kernel
theorem witness_ContextConstantsAreRight :
    0xffffffff % 2 = 1 ∧ 0xffffffff < 2 ^ LimbWidth.w32.bits ∧ 1 < 2 ^ LimbWidth.w32.bits ∧
    (0xffffffff * 1 + 1) % 2 ^ LimbWidth.w32.bits = 0 ∧ limbsFit LimbWidth.w32.bits [0, 1] = true ∧
    1 < val LimbWidth.w32.bits [0, 1] := by decide +kernel
theorem witness_ExponentBitsAndTableEntriesAreRight : -- the last bit, a window across limbs, the last entry
    limbsFit LimbWidth.w32.bits [0xffffffff, 5] = true ∧ 63 < LimbWidth.w32.bits * 2 ∧ 30 + 4 ≤ LimbWidth.w32.bits * 2 ∧
    ((List.range 16).map fun i => [i]).length = 16 ∧
    (∀ x ∈ (List.range 16).map fun i => [i], x.length = 1 ∧ limbsFit LimbWidth.w32.bits x = true) := by decide +kernel
theorem witness_ConstantTimeCommandsLeakPublicInputsOnly : -- other operands, another exponent, another modulus of one limb
    let s := field97 .w64 [0x56, 0x0e, 0x05]
    let t : State := { field97 .w64 [1, 2, 7] with
      slots := [{ valid := true, len := 1, n := [3, 0], mu := 0x5555555555555555, r2 := [1, 0] }, Slot.zero 2] }
    s.Inv ∧ t.Inv ∧ constantTime (.expct 0 15 0 2 3) = true ∧ valuesOk (.expct 0 15 0 2 3) s = true ∧
    valuesOk (.expct 0 15 0 2 3) t = true ∧ s.memRead 0 3 ≠ t.memRead 0 3 ∧ s.cfg = t.cfg ∧
    (s.slot 0).valid = (t.slot 0).valid ∧ (s.slot 0).len = (t.slot 0).len := by decide +kernel
theorem witness_OperationCountsOfExponentiation : 199 < 200 ∧ 200 ≤ 200 := by decide
theorem witness_EveryStepKeepsTheInvariant :
    (flying (encode (.mul 0 3 0 1))).Inv ∧ (nextOf (step (flying (encode (.mul 0 3 0 1))))).isSome ∧
    (withMove (.write 0x8007c .word 7) idle).Inv ∧ (nextOf (step (withMove (.write 0x8007c .word 7) idle))).isSome := by
  decide +kernel
theorem witness_ResetMeetsTheInvariant :
    ({ width := .w32, nctx := 1, lenMax := 1, memLimbs := 1 } : Config).legal = true := by decide
theorem witness_RunsEndWithTheHost : -- an idle engine, a faulted one, and one with a command in flight
    ({ idle with inputs := [] } : State).Inv ∧ ({ idle with inputs := [] } : State).endedWell ∧
    ({ dead with inputs := [] } : State).Inv ∧ ({ dead with inputs := [] } : State).ended ∧
    ({ flying (encode (.mul 0 3 0 1)) with inputs := [] } : State).Inv ∧
    ¬({ flying (encode (.mul 0 3 0 1)) with inputs := [] } : State).ended := by decide +kernel

/-! ## Traces (R68, R130, R145, R195) -/

theorem test_free_leaks_its_slot_only : leak (.free 0) idle = [.slotWrite 0] := by decide +kernel
theorem test_window_at_63_reads_two_limbs : -- `44_exponentiation.md` R195: `bBits = 255`, `p = 63`
    getWindowTrace 64 4 63 4 = [.getWindow 63 4, .exponentRead 0, .branch true, .exponentRead 1] ∧
    getWindowTrace 64 4 67 4 = [.getWindow 67 4, .exponentRead 1, .branch false] := by decide

end Sys2Proof.Tests.Slice0
end

/-! SUPPORT. What a completion does to the state around the command (R82, R240): the effect of a command touches no control
register and no agent, so a completion either traps or retires with the flags of R28. Settles `RunsEndWithTheHost`. -/

namespace Sys2Proof.Machine

/-! ## The effect of a command and the control state -/

/-- `t` differs from `s` at most in limb memory, the slots, `CHK`, `RESULT` and the count of free values: what the effect of a
command may write (R68, R140). The parameters, the `CMD` registers, `LC`, the other flags, the fault record and the agents are kept. -/
abbrev controlKept (s t : State) : Prop :=
  t = { s with mem := t.mem, slots := t.slots, chk := t.chk, result := t.result, freeCount := t.freeCount }

theorem controlKept.inputs {s t : State} (h : controlKept s t) : t.inputs = s.inputs := by rw [h]

theorem controlKept.fault {s t : State} (h : controlKept s t) : t.fault = s.fault := by rw [h]

theorem controlKept_writeResult (s : State) (rd len : Nat) (ok : Bool) (v : List Nat) (r : List (List Nat)) :
    controlKept s (s.writeResult rd len ok v r) := by
  cases ok <;> rfl

/-- Everything `INIT`'s effect can do: it replaces its slot, and it draws free values when the modulus is not one it accepts (U1). -/
theorem effectInit_cases (c ra len : Nat) (s : State) :
    ∃ x, effectInit c ra len s = s.setSlot c x ∨ effectInit c ra len s = (s.setSlot c x).drawn := by
  simp only [effectInit]
  split
  · exact ⟨_, .inl rfl⟩
  · exact ⟨_, .inr rfl⟩

theorem controlKept_effectInit (c ra len : Nat) (s : State) : controlKept s (effectInit c ra len s) := by
  obtain ⟨x, h | h⟩ := effectInit_cases c ra len s <;> rw [h] <;> rfl

/-- No command's effect reaches the control state: the four context commands write slots, `RESULT` or `CHK`, and every other
command its destination. -/
theorem controlKept_effectOf (i : Instr) (s : State) : controlKept s (effectOf i s) := by
  cases i with
  | chkmod ra len => rfl
  | init c ra len => exact controlKept_effectInit c ra len s
  | free c => rfl
  | getlen c => rfl
  | _ => exact controlKept_writeResult ..

/-! ## Completion -/

/-- Everything a completion does: trap entry with one of the codes of R231, or the effect of an admitted legal command, retired. -/
theorem complete_traps_or_retires {s t : State} (h : complete s = .next t) :
    (∃ f, t = s.trap f) ∨ ∃ i, decode s.lc = .ok i ∧ admission i s = none ∧ t = (effectOf i s).retire := by
  rcases complete_cases h with ⟨e, -, ht⟩ | ⟨i, hd, he⟩
  · exact .inl ⟨_, ht⟩
  · rcases exec_cases he with ⟨f, -, ht⟩ | ⟨ha, ht⟩
    · exact .inl ⟨f, ht⟩
    · exact .inr ⟨i, hd, ha, ht⟩

/-- `DONE` and `FAULT` are clear while a command is in flight (R28). -/
theorem flags_clear_of_busy {s : State} (hi : s.Inv) (hb : s.busy = true) : s.done = false ∧ s.fault = false := by
  obtain ⟨-, -, -, -, -, hs, -, -⟩ := hi
  simp only [State.statusLegal, hb, Bool.true_and, Bool.and_eq_true, Bool.not_eq_true'] at hs
  exact hs.1

/-- A completion leaves the moves to come, and an engine that is not busy with exactly one of `DONE` and `FAULT` set (R82,
R240). -/
theorem complete_flags {s t : State} (hi : s.Inv) (hb : s.busy = true) (h : complete s = .next t) :
    t.inputs = s.inputs ∧ t.busy = false ∧ (t.fault = false ↔ t.done = true) := by
  obtain ⟨hdone, hfault⟩ := flags_clear_of_busy hi hb
  rcases complete_traps_or_retires h with ⟨f, rfl⟩ | ⟨i, -, -, rfl⟩
  · simp [hdone]
  · have hk := controlKept_effectOf i s
    simp [hk.inputs, hk.fault, hfault]

/-! ## The end of a run (R19, R279) -/

/-- With no move listed, the engine has the turn (log 2). -/
theorem step_of_no_moves {s : State} (hin : s.inputs = []) : step s = engineTurn s := by
  simp [step, nextMove, hin]

theorem step_of_ended {s : State} (h : s.ended) : step s = .next s := by
  obtain ⟨hin, hb⟩ := h
  simp [step_of_no_moves hin, engineTurn, hb]

/-- The last completion of a run ends it. -/
theorem step_ends_run {s : State} (hi : s.Inv) (hin : s.inputs = []) (hb : s.busy = true) :
    ∃ t, step s = .next t ∧ t.ended ∧ (t.endedWell ↔ t.done = true) := by
  have hstep : step s = complete s := by simp [step_of_no_moves hin, engineTurn, hb]
  obtain ⟨t, ht⟩ := complete_total s
  obtain ⟨hmoves, hidle, hflags⟩ := complete_flags hi hb ht
  have hended : t.ended := ⟨hmoves.trans hin, hidle⟩
  exact ⟨t, hstep.trans ht, hended, (and_iff_right hended).trans hflags⟩

/-- Settles O60: an ended engine waits; a busy one completes, and legal flags before the completion leave exactly one of `DONE`
and `FAULT` after it. -/
theorem runsEndWithTheHost : Obligations.RunsEndWithTheHost := by
  intro s hi hin
  refine ⟨step_of_ended, fun hrunning => step_ends_run hi hin ?_⟩
  cases hb : s.busy with
  | true => rfl
  | false => exact absurd ⟨hin, hb⟩ hrunning

end Sys2Proof.Machine

/-! SUPPORT. The host's view of the engine's state (R24 to R34, R59) and the slots (R40): an access of a register says once what
it does while it is allowed, the engine's turn leaves the host's registers and the parameters alone, and no command but `INIT` and
`FREE` writes a slot or sees another command's. Settles `ConfigAndMemsizeReadTheInstance`, `CtxvalidIsAViewOfTheValidBits`,
`OnlyInitAndFreeWriteSlots`, `RefusedAccessHasNoMove`, `StatusReadsTheFourFlags` and `CommandRegistersHoldWhatTheHostWrote`. -/

namespace Sys2Proof.Machine

/-! ## Accesses of registers (R58, R59, R62) -/

theorem mapped_of_register (s : State) {o : Nat} (ho : o < 0x30) : s.mapped o = true := (mapped_iff s o).2 (.inl ho)

/-- An allowed read of a register returns its value and does nothing else (R58). -/
theorem step_read_register {s : State} {o : BitVec 20} {ms : List Move} (h : s.inputs = .read o .word :: ms)
    (ho : o.toNat < 0x30) (ha : o.toNat % 4 = 0) (hb : s.busy = true → alwaysReadable o.toNat = true) :
    step s = .next { s with inputs := ms, replies := s.readRegister o.toNat :: s.replies } := by
  have hv : (s.withInputs ms).readPort o.toNat = s.readRegister o.toNat := by
    simp only [State.readPort, isRegister, ho, decide_true, if_true]; rfl
  rw [step_read h, portRead_next_iff]
  exact ⟨rfl, ha, mapped_of_register _ ho, hb, by rw [hv]; rfl⟩

/-- A write of a register with `BUSY = 0` (R59). -/
theorem step_write_register {s : State} {o : BitVec 20} {v : Word32} {ms : List Move} (h : s.inputs = .write o .word v :: ms)
    (ho : o.toNat < 0x30) (ha : o.toNat % 4 = 0) (hb : s.busy = false) :
    step s = .next ((s.withInputs ms).writeRegister o.toNat v) := by
  rw [step_write h, portWrite_next_iff]
  exact ⟨rfl, ha, mapped_of_register _ ho, by simp [hb], by simp [State.writePort, isRegister, ho]⟩

/-- A read-only register ignores the write (R59). -/
theorem step_write_readOnly {s : State} {o : BitVec 20} {v : Word32} {ms : List Move} (h : s.inputs = .write o .word v :: ms)
    (ho : 0x10 < o.toNat ∧ o.toNat < 0x30) (ha : o.toNat % 4 = 0) (hb : s.busy = false) :
    step s = .next { s with inputs := ms } := by
  rw [step_write_register h ho.2 ha hb]
  congr 1
  unfold State.writeRegister
  iterate 5 rw [if_neg (by omega)]
  rfl

/-! ## Refused accesses (R42, R53, R63) -/

/-- An access that has a next state is a word access of an aligned offset that the space has. -/
theorem access_of_step_next {s t : State} {ms : List Move} {o : BitVec 20} {wd : AccessWidth}
    (h : s.inputs = .read o wd :: ms ∨ ∃ v : Word32, s.inputs = .write o wd v :: ms) (ht : step s = .next t) :
    wd = .word ∧ o.toNat % 4 = 0 ∧ s.mapped o.toNat = true := by
  rcases h with h | ⟨v, h⟩
  · rw [step_read h, portRead_next_iff] at ht
    exact ⟨ht.1, ht.2.1, ht.2.2.1⟩
  · rw [step_write h, portWrite_next_iff] at ht
    exact ⟨ht.1, ht.2.1, ht.2.2.1⟩

theorem alwaysReadable_iff (o : BitVec 20) :
    alwaysReadable o.toNat = true ↔ o ∈ [0x14, 0x1C, 0x20, 0x24, 0x28, 0x2C] := by
  simp [alwaysReadable, ← BitVec.toNat_inj, or_assoc]

/-- Settles O11: an access with a next state is a mapped, aligned word access, and while `BUSY = 1` one that R62 allows. -/
theorem refusedAccessHasNoMove : Obligations.RefusedAccessHasNoMove := by
  refine ⟨fun s t ms o wd h hbad ht => ?_, fun s t ms o wd hb h ht => ?_⟩
  · obtain ⟨hw, ha, hm⟩ := access_of_step_next h ht
    simp only [mapped_iff, windowBase, State.windowBytes] at hm
    rcases hbad with h | h | h | h
    · exact h hw
    · exact h ha
    · omega
    · omega
  · rcases h with ⟨h, hno⟩ | ⟨v, h, hno⟩
    · rw [step_read h, portRead_next_iff] at ht
      obtain ⟨-, -, -, hallowed, -⟩ := ht
      exact hno ((alwaysReadable_iff o).1 (hallowed hb))
    · rw [step_write h, portWrite_next_iff] at ht
      obtain ⟨-, -, -, hallowed, -⟩ := ht
      obtain ⟨ho, hv⟩ := hallowed hb
      exact hno ⟨BitVec.eq_of_toNat_eq ho, hv⟩

/-! ## The register views (R28, R32 to R34) -/

/-- Bit `i` of the packed number is the `i`-th flag, 0 beyond the last. -/
theorem testBit_packBits (bs : List Bool) (i : Nat) : (packBits bs).testBit i = bs.getD i false := by
  induction bs generalizing i with
  | nil => simp [packBits]
  | cons b bs ih =>
    have hbit : packBits (b :: bs) = Nat.bit b (packBits bs) := by rw [Nat.bit_val, packBits, Nat.add_comm]
    rw [hbit]
    cases i with
    | zero => simp
    | succ i => rw [Nat.testBit_bit_succ, ih, List.getD_cons_succ]

theorem statusWord_eq_packBits (s : State) : s.statusWord = BitVec.ofNat 32 (packBits [s.busy, s.done, s.fault, s.chk]) := by
  simp only [State.statusWord, packBits]; congr 1; omega

/-- Bit `i` of `STATUS` (R28). -/
theorem statusWord_getLsbD (s : State) (i : Nat) : s.statusWord.getLsbD i = [s.busy, s.done, s.fault, s.chk].getD i false := by
  rw [statusWord_eq_packBits, BitVec.getLsbD_ofNat, testBit_packBits]
  by_cases h : i < 32
  · simp [h]
  · rw [List.getD_eq_default _ _ (by simp only [List.length_cons, List.length_nil]; omega)]
    simp [h]

theorem statusWord_high_zero (s : State) : s.statusWord.extractLsb' 4 28 = 0 := by
  ext i hi
  rw [BitVec.getElem_extractLsb', statusWord_getLsbD, List.getD_eq_default _ _ (by simp)]
  simp

/-- The flags of an invariant state are one of the four combinations of R28. -/
theorem flags_of_statusLegal {s : State} (h : s.statusLegal = true) :
    (s.busy, s.done, s.fault) ∈ [(false, false, false), (true, false, false), (false, true, false), (false, false, true)] := by
  unfold State.statusLegal at h
  generalize s.busy = b, s.done = d, s.fault = f at *
  revert b d f
  decide

/-- Settles O14: `STATUS` packs the four flags, and the invariant rules out the other combinations. -/
theorem statusReadsTheFourFlags : Obligations.StatusReadsTheFourFlags := by
  intro s ms hi
  obtain ⟨-, -, -, -, -, hs, -, -⟩ := hi
  refine ⟨fun h => ⟨s.statusWord, ?_, statusWord_getLsbD s 0, statusWord_getLsbD s 1, statusWord_getLsbD s 2,
    statusWord_getLsbD s 3, statusWord_high_zero s⟩, fun v hb h => ?_, flags_of_statusLegal hs⟩
  · exact step_read_register h (by decide) (by decide) fun _ => by decide
  · exact step_write_readOnly h (by decide) (by decide) hb

/-- Bit `c` of `CTXVALID` (R32). -/
theorem ctxValidWord_getLsbD {s : State} (hl : s.slots.length = s.cfg.nctx) (hn : s.cfg.nctx ≤ 32) (c : Nat) :
    s.ctxValidWord.getLsbD c = (decide (c < s.cfg.nctx) && (s.slot c).valid) := by
  rw [State.ctxValidWord, BitVec.getLsbD_ofNat, testBit_packBits]
  by_cases hc : c < s.cfg.nctx
  · have hc' : c < s.slots.length := by omega
    simp [hc, State.slot, hc', show c < 32 by omega]
  · simp [hc, show s.slots.length ≤ c by omega]

/-- Settles O13: `CTXVALID` packs the valid bits of the `NCTX` slots, at most 16. -/
theorem ctxvalidIsAViewOfTheValidBits : Obligations.CtxvalidIsAViewOfTheValidBits := by
  intro s ms hi
  obtain ⟨hcfg, -, -, hl, -, -, -, -⟩ := hi
  refine ⟨fun h => ⟨s.ctxValidWord, ?_, ctxValidWord_getLsbD hl ?_⟩, fun v hb h => ?_⟩
  · exact step_read_register h (by decide) (by decide) fun _ => by decide
  · simp only [Config.legal, decide_eq_true_eq] at hcfg; omega
  · exact step_write_readOnly h (by decide) (by decide) hb

/-- The fields of `CONFIG` under legal parameters (R9, R33). -/
theorem configWord_fields {s : State} (h : s.cfg.legal = true) :
    (s.configWord.extractLsb' 0 8).toNat = s.cfg.w ∧ (s.configWord.extractLsb' 8 8).toNat = s.cfg.nctx ∧
    (s.configWord.extractLsb' 16 16).toNat = s.cfg.lenMax := by
  have hw : s.cfg.w ≤ 64 := by unfold Config.w; cases s.cfg.width <;> decide
  simp only [Config.legal, decide_eq_true_eq] at h
  simp only [State.configWord, BitVec.extractLsb'_toNat, BitVec.toNat_ofNat, Nat.shiftRight_eq_div_pow]
  omega

/-- The fields of `MEMSIZE` under legal parameters (R9, R34). -/
theorem memSizeWord_fields {s : State} (h : s.cfg.legal = true) :
    (s.memSizeWord.extractLsb' 0 17).toNat = s.cfg.memLimbs ∧ s.memSizeWord.extractLsb' 17 15 = 0 := by
  simp only [Config.legal, decide_eq_true_eq] at h
  rw [← BitVec.toNat_inj]
  simp only [State.memSizeWord, BitVec.extractLsb'_toNat, BitVec.ofNat_eq_ofNat, BitVec.toNat_ofNat, Nat.shiftRight_eq_div_pow]
  omega

/-! ## What no move of the engine reaches -/

/-- The engine's turn leaves the parameters, the `CMD` registers, `LC` and the agents as they are: it writes limb memory, slots,
flags, `RESULT`, the fault record and the count of free values (R82, R240). -/
abbrev hostSideKept (s t : State) : Prop :=
  t = { s with
    mem := t.mem, slots := t.slots, busy := t.busy, done := t.done, fault := t.fault, chk := t.chk, result := t.result,
    faultCode := t.faultCode, faultInfo := t.faultInfo, freeCount := t.freeCount }

theorem hostSideKept.cfg {s t : State} (h : hostSideKept s t) : t.cfg = s.cfg := by rw [h]

theorem hostSideKept.commandRegisters {s t : State} (h : hostSideKept s t) :
    t.cmd0 = s.cmd0 ∧ t.cmd1 = s.cmd1 ∧ t.cmd2 = s.cmd2 ∧ t.cmd3 = s.cmd3 := by rw [h]; exact ⟨rfl, rfl, rfl, rfl⟩

theorem hostSideKept_retire {s t : State} (h : controlKept s t) : hostSideKept s t.retire := by rw [h]; rfl

theorem hostSideKept_engineTurn {s t : State} (h : engineTurn s = .next t) : hostSideKept s t := by
  unfold engineTurn at h
  split at h
  · rcases complete_traps_or_retires h with ⟨f, rfl⟩ | ⟨i, -, -, rfl⟩
    · rfl
    · exact hostSideKept_retire (controlKept_effectOf i s)
  · cases h; rfl

theorem writeCtrl_cfg (s : State) (v : Word32) : (s.writeCtrl v).cfg = s.cfg := by
  rcases writeCtrl_cases s v with ⟨-, h⟩ | ⟨-, -, -, h⟩ | ⟨-, -, h⟩ <;> rw [h] <;> rfl

theorem writePort_cfg (s : State) (o : Nat) (v : Word32) : (s.writePort o v).cfg = s.cfg := by
  rcases writePort_cases s o v with ⟨-, h⟩ | ⟨-, h⟩ | ⟨-, h⟩ | ⟨-, h⟩ | ⟨-, h⟩ | ⟨-, -, h⟩ | ⟨-, h⟩ | ⟨-, -, h⟩ <;> rw [h]
  · exact writeCtrl_cfg s v
  · rfl

/-- No move changes the parameters (R9). -/
theorem performMove_cfg {m : Move} {s t : State} (h : performMove m s = .next t) : t.cfg = s.cfg := by
  cases m with
  | read o wd =>
    obtain ⟨-, -, -, -, rfl⟩ := (portRead_next_iff ..).1 h
    rfl
  | write o wd v =>
    obtain ⟨-, -, -, -, rfl⟩ := (portWrite_next_iff ..).1 h
    exact writePort_cfg s _ v
  | hardReset => cases h; rfl
  | engine => exact (hostSideKept_engineTurn h).cfg

theorem step_cfg {s t : State} (h : step s = .next t) : t.cfg = s.cfg := by
  rcases step_cases s with ⟨-, hs⟩ | ⟨m, ms, -, hs⟩ <;> rw [hs] at h
  · exact (hostSideKept_engineTurn h).cfg
  · exact (performMove_cfg h).trans (s.withInputs_cfg ms)

/-- Settles O12: the two views show the parameters, their writes are ignored, and every move keeps `cfg`. -/
theorem configAndMemsizeReadTheInstance : Obligations.ConfigAndMemsizeReadTheInstance := by
  refine ⟨fun s ms hl => ⟨fun h => ⟨s.configWord, ?_, configWord_fields hl⟩,
    fun h => ⟨s.memSizeWord, ?_, memSizeWord_fields hl⟩⟩, fun s ms v hb h => ?_, fun s t => step_cfg⟩
  · exact step_read_register h (by decide) (by decide) fun _ => by decide
  · exact step_read_register h (by decide) (by decide) fun _ => by decide
  · rcases h with h | h
    · exact step_write_readOnly h (by decide) (by decide) hb
    · exact step_write_readOnly h (by decide) (by decide) hb

/-! ## The command registers (R25, R59) -/

theorem cmd_offset_not_alwaysReadable {o : BitVec 20} (ho : o ∈ [0x00, 0x04, 0x08, 0x0C]) :
    o.toNat < 0x10 ∧ o.toNat % 4 = 0 ∧ alwaysReadable o.toNat = false := by
  fin_cases ho <;> decide

/-- No access of a `CMD` register has a move while `BUSY = 1` (R62, R63). -/
theorem cmd_access_refused_of_busy {s : State} {ms : List Move} {v : Word32} {o : BitVec 20} (hb : s.busy = true)
    (ho : o ∈ [0x00, 0x04, 0x08, 0x0C]) (h : s.inputs = .write o .word v :: ms ∨ s.inputs = .read o .word :: ms) :
    step s = .refused .portBusy := by
  obtain ⟨hlt, ha, hr⟩ := cmd_offset_not_alwaysReadable ho
  have hm : (s.withInputs ms).mapped o.toNat = true := mapped_of_register _ (by omega)
  rcases h with h | h
  · rw [step_write h]
    simp [portWrite, checkedAccess, ha, hm, hb, show o.toNat ≠ 0x10 by omega]
  · rw [step_read h]
    simp [portRead, checkedAccess, ha, hm, hb, hr]

/-- START with `FAULT = 0` latches the command registers and keeps them (R27, R82). -/
theorem writeCtrl_start {s : State} {v : Word32} (hf : s.fault = false) (hr : v.getLsbD 1 = false) (hs : v.getLsbD 0 = true) :
    s.writeCtrl v = s.issue := by
  simp only [State.writeCtrl, hf, hr, hs, Bool.false_eq_true, if_false, if_true]

/-- A step that is the engine's turn leaves the command registers (R25). -/
theorem engine_step_commandRegisters {s t : State} (hturn : s.inputs = [] ∨ s.inputs.head? = some .engine)
    (h : step s = .next t) : t.cmd0 = s.cmd0 ∧ t.cmd1 = s.cmd1 ∧ t.cmd2 = s.cmd2 ∧ t.cmd3 = s.cmd3 := by
  rcases step_cases s with ⟨-, hs⟩ | ⟨m, ms, hin, hs⟩ <;> rw [hs] at h
  · exact (hostSideKept_engineTurn h).commandRegisters
  · obtain rfl : m = .engine := by simpa [hin] using hturn
    exact (hostSideKept_engineTurn h).commandRegisters

/-- Settles O16: register accesses by their offsets, START by the issue it makes, and the engine's turn by what it keeps. -/
theorem commandRegistersHoldWhatTheHostWrote : Obligations.CommandRegistersHoldWhatTheHostWrote := by
  refine ⟨fun s ms v hb => ⟨fun h => ?_, fun h => ?_, fun h => ?_, fun h => ?_, fun h => ?_, fun o ho h => ?_⟩,
    fun s ms hb => ⟨fun h => ?_, fun h => ?_, fun h => ?_, fun h => ?_⟩, fun s ms v o => cmd_access_refused_of_busy,
    fun s ms v hb hf hr hs h => ⟨(s.withInputs ms).issue, ?_, rfl, rfl, rfl, rfl, rfl⟩,
    fun s t => engine_step_commandRegisters, fun c => ⟨rfl, rfl, rfl, rfl⟩⟩
  · exact step_write_register h (by decide) (by decide) hb
  · exact step_write_register h (by decide) (by decide) hb
  · exact step_write_register h (by decide) (by decide) hb
  · exact step_write_register h (by decide) (by decide) hb
  · exact step_write_register h (by decide) (by decide) hb
  · have hoff : (0x10 < o.toNat ∧ o.toNat < 0x30) ∧ o.toNat % 4 = 0 := by fin_cases ho <;> decide
    exact step_write_readOnly h hoff.1 hoff.2 hb
  · exact step_read_register h (by decide) (by decide) (by simp [hb])
  · exact step_read_register h (by decide) (by decide) (by simp [hb])
  · exact step_read_register h (by decide) (by decide) (by simp [hb])
  · exact step_read_register h (by decide) (by decide) (by simp [hb])
  · rw [← writeCtrl_start (s := s.withInputs ms) hf hr hs]
    exact step_write_register h (by decide) (by decide) hb

/-! ## Slots: written by `INIT` and `FREE` alone (R40) -/

theorem writeResult_slots (s : State) (rd len : Nat) (ok : Bool) (v : List Nat) (r : List (List Nat)) :
    (s.writeResult rd len ok v r).slots = s.slots := by
  cases ok <;> rfl

/-- The only effects that reach the slots are `FREE`'s and `INIT`'s, and each replaces the slot it names. -/
theorem effectOf_slots_cases (i : Instr) (s : State) :
    (effectOf i s).slots = s.slots ∨
    ∃ c x, (i = .free c ∨ ∃ ra len, i = .init c ra len) ∧ (effectOf i s).slots = s.slots.set c x := by
  cases i with
  | chkmod ra len => exact .inl rfl
  | init c ra len =>
    obtain ⟨x, h⟩ := effectInit_cases c ra len s
    refine .inr ⟨c, x, .inr ⟨ra, len, rfl⟩, ?_⟩
    rcases h with h | h <;> exact congrArg State.slots h
  | free c => exact .inr ⟨c, _, .inl rfl, rfl⟩
  | getlen c => exact .inl rfl
  | _ => exact .inl (writeResult_slots ..)

/-- A command that changed the slots was an admitted `FREE` of a valid slot or `INIT` of an invalid one, and it changed that
slot alone. -/
theorem exec_slots_changed {i : Instr} {s t : State} (h : exec i s = .next t) (hne : t.slots ≠ s.slots) :
    ∃ c, ((i = .free c ∧ (s.slot c).valid = true) ∨ ∃ ra len, i = .init c ra len ∧ (s.slot c).valid = false) ∧
      ∀ d, d ≠ c → t.slots[d]? = s.slots[d]? := by
  rcases exec_cases h with ⟨f, -, rfl⟩ | ⟨ha, rfl⟩
  · exact absurd rfl hne
  · rcases effectOf_slots_cases i s with hs | ⟨c, x, hi, hs⟩
    · exact absurd hs hne
    · refine ⟨c, ?_, fun d hd => by rw [State.retire_slots, hs, List.getElem?_set_ne hd.symm]⟩
      rcases hi with rfl | ⟨ra, len, rfl⟩
      · obtain ⟨-, hv⟩ := (admitSlot_none_iff s c).1 ha
        exact .inl ⟨rfl, hv⟩
      · obtain ⟨-, hv, -⟩ := (admitInit_none_iff s c ra len).1 ha
        exact .inr ⟨ra, len, rfl, hv⟩

/-! ## Slots: read by the command that names them alone (R40) -/

/-- The state with its slots replaced. -/
def State.withSlots (s : State) (others : List Slot) : State := { s with slots := others }

@[simp] theorem State.withSlots_cfg (s : State) (others : List Slot) : (s.withSlots others).cfg = s.cfg := rfl
@[simp] theorem State.withSlots_memRead (s : State) (others : List Slot) (a k : Nat) :
    (s.withSlots others).memRead a k = s.memRead a k := rfl
@[simp] theorem State.withSlots_ctxRange (s : State) (others : List Slot) (c : Nat) :
    (s.withSlots others).ctxRange c = s.ctxRange c := rfl
@[simp] theorem State.withSlots_lenRange (s : State) (others : List Slot) (len : Nat) :
    (s.withSlots others).lenRange len = s.lenRange len := rfl

theorem State.withSlots_slot {s : State} {others : List Slot} {c : Nat} (h : others[c]? = s.slots[c]?) :
    (s.withSlots others).slot c = s.slot c := by
  simp only [State.slot, State.withSlots, List.getD_eq_getElem?_getD, h]

theorem State.withSlots_writeResult (s : State) (others : List Slot) (rd len : Nat) (ok : Bool) (v : List Nat)
    (r : List (List Nat)) :
    (s.withSlots others).writeResult rd len ok v r = (s.writeResult rd len ok v r).withSlots others := by
  cases ok <;> rfl

section
variable {i : Instr} {s : State} {others : List Slot}
  (h : ∀ c, slotNamed i = some c → (s.withSlots others).slot c = s.slot c)
include h

/-- The admission checks look at no slot but the one the command names. -/
theorem admission_withSlots : admission i (s.withSlots others) = admission i s := by
  cases i with
  | chkmod ra len => rfl
  | _ =>
    have hc := h _ rfl
    simp only [admission, admitInit, admitSlot, admitField, State.footprintD, State.footprintU, State.footprintB,
      State.footprintE, State.ctxLen, State.withSlots_cfg, State.withSlots_ctxRange, State.withSlots_lenRange, hc]

/-- An effect that writes no slot reads none but the one the command names. -/
theorem effectOf_withSlots (hfree : ∀ c, i ≠ .free c) (hinit : ∀ c ra len, i ≠ .init c ra len) :
    effectOf i (s.withSlots others) = (effectOf i s).withSlots others := by
  cases i with
  | chkmod ra len => rfl
  | init c ra len => exact absurd rfl (hinit c ra len)
  | free c => exact absurd rfl (hfree c)
  | getlen c =>
    have hc := h c rfl
    simp only [effectOf, effectGetlen, State.ctxLen, hc]; rfl
  | _ =>
    have hc := h _ rfl
    simp only [effectOf, effectTofield, effectFromfield, effectOne, effectAdd, effectSub, effectMul, effectSqr, effectExpct,
      effectExpvt, effectInv, State.withSlots_cfg, State.withSlots_memRead, hc, State.withSlots_writeResult]

/-- A command that writes no slot does the same whatever the slots it does not name hold. -/
theorem exec_withSlots (hfree : ∀ c, i ≠ .free c) (hinit : ∀ c ra len, i ≠ .init c ra len) {t : State}
    (ht : exec i s = .next t) : exec i (s.withSlots others) = .next (t.withSlots others) := by
  have ha := admission_withSlots h
  rcases exec_cases ht with ⟨f, hf, rfl⟩ | ⟨hn, rfl⟩
  · rw [exec_of_fault (ha.trans hf)]; rfl
  · rw [exec_of_admitted (ha.trans hn), effectOf_withSlots h hfree hinit]; rfl

end

/-- Settles O29: slots change by an admitted `INIT` or `FREE` only, and every other command commutes with replacing the slots
it does not name. -/
theorem onlyInitAndFreeWriteSlots : Obligations.OnlyInitAndFreeWriteSlots :=
  ⟨fun _ _ _ => exec_slots_changed,
    fun _ _ _ _ hfree hinit hsame => exec_withSlots (fun c hc => State.withSlots_slot (hsame c hc)) hfree hinit⟩

end Sys2Proof.Machine

/-! SUPPORT. The limb window in units of its 32-bit words (R52, R60, R61): word `q` is a 32-bit limb whatever `W` is, a 64-bit limb
is two of them, and an allowed access reads or replaces one. Settles `WindowWriteReplacesOneWord` and
`WindowReadReturnsTheWordOfTheLimb`. -/

namespace Sys2Proof.Machine

/-! ## Limbs and the words of the window (R52) -/

/-- Writing a limb leaves every other limb alone. -/
theorem Memory.limb_setLimb_ne {m : Memory} {wd : LimbWidth} {a b : Nat} (v : Nat) (h : b ≠ a) :
    (m.setLimb wd a v).limb wd b = m.limb wd b := by
  refine Memory.limb_congr fun c hlo hhi => Memory.getByte_writeLE_outside v ?_
  rcases Nat.lt_or_gt_of_ne h with hlt | hgt
  · exact .inl (Nat.lt_of_lt_of_le hhi (Nat.mul_le_mul_right _ hlt))
  · have hnext : (a + 1) * wd.bytes ≤ b * wd.bytes := Nat.mul_le_mul_right _ hgt
    rw [Nat.add_one_mul] at hnext
    exact .inr (Nat.le_trans hnext hlo)

/-- A 64-bit limb is two words of the window, the low one first. -/
theorem Memory.limb_w64_eq_words (m : Memory) (a : Nat) :
    m.limb .w64 a = m.limb .w32 (2 * a) + 2 ^ 32 * m.limb .w32 (2 * a + 1) := by
  have hlo : a * 8 = 2 * a * 4 := by omega
  have hhi : a * 8 + 4 = (2 * a + 1) * 4 := by omega
  calc m.readLE (a * 8) (4 + 4)
      _ = m.readLE (a * 8) 4 + 256 ^ 4 * m.readLE (a * 8 + 4) 4 := m.readLE_split ..
      _ = _ := by rw [hhi, hlo]; rfl

theorem Memory.word_lt (m : Memory) (q : Nat) : m.limb .w32 q < 2 ^ 32 := m.limb_lt .w32 q

/-- The low word of a 64-bit limb is its value modulo `2^32`. -/
theorem Memory.limb_w64_mod (m : Memory) (a : Nat) : m.limb .w64 a % 2 ^ 32 = m.limb .w32 (2 * a) := by
  rw [m.limb_w64_eq_words, Nat.add_mul_mod_self_left, Nat.mod_eq_of_lt (m.word_lt _)]

/-- The high word of a 64-bit limb is its value divided by `2^32`. -/
theorem Memory.limb_w64_div (m : Memory) (a : Nat) : m.limb .w64 a / 2 ^ 32 = m.limb .w32 (2 * a + 1) := by
  rw [m.limb_w64_eq_words, Nat.add_mul_div_left _ _ (by decide), Nat.div_eq_of_lt (m.word_lt _), Nat.zero_add]

/-! ## Replacing one word of the window (R61) -/

section
variable {m : Memory} (v : Word32) (hm : m.wf = true)

include hm in
theorem Memory.word_setLimb_same (q : Nat) : (m.setLimb .w32 q v.toNat).limb .w32 q = v.toNat :=
  (Memory.limb_setLimb_same .w32 q _ hm).trans (Nat.mod_eq_of_lt v.isLt)

include hm in
/-- Replacing an even word replaces the low half of its 64-bit limb. -/
theorem Memory.limb_w64_setLow (a : Nat) :
    (m.setLimb .w32 (2 * a) v.toNat).limb .w64 a = m.limb .w64 a / 2 ^ 32 * 2 ^ 32 + v.toNat := by
  rw [Memory.limb_w64_eq_words, Memory.word_setLimb_same v hm, Memory.limb_setLimb_ne _ (by omega), m.limb_w64_div,
    Nat.add_comm, Nat.mul_comm]

include hm in
/-- Replacing an odd word replaces the high half of its 64-bit limb. -/
theorem Memory.limb_w64_setHigh (a : Nat) :
    (m.setLimb .w32 (2 * a + 1) v.toNat).limb .w64 a = v.toNat * 2 ^ 32 + m.limb .w64 a % 2 ^ 32 := by
  rw [Memory.limb_w64_eq_words, Memory.word_setLimb_same v hm, Memory.limb_setLimb_ne _ (by omega), m.limb_w64_mod,
    Nat.add_comm, Nat.mul_comm]

/-- Replacing word `q` leaves every 64-bit limb but the one that holds it. -/
theorem Memory.limb_w64_setLimb_w32_ne {q a : Nat} (v : Nat) (h : a ≠ q / 2) :
    (m.setLimb .w32 q v).limb .w64 a = m.limb .w64 a := by
  rw [Memory.limb_w64_eq_words, Memory.limb_setLimb_ne _ (by omega), Memory.limb_setLimb_ne _ (by omega),
    ← m.limb_w64_eq_words]

end

/-! ## Accesses of the window (R60 to R62) -/

/-- The word read at window offset `4*q` is word `q`. -/
theorem toNat_readWindow (s : State) (q : Nat) : (s.readWindow (4 * q)).toNat = s.mem.limb .w32 q := by
  have hword : s.mem.readLE (4 * q) 4 = s.mem.limb .w32 q := by rw [Nat.mul_comm]; rfl
  rw [State.readWindow, hword, BitVec.toNat_ofNat, Nat.mod_eq_of_lt (s.mem.word_lt q)]

/-- A write at window offset `4*q` replaces word `q`. -/
theorem writeWindow_eq_setLimb (s : State) (q : Nat) (v : Word32) :
    s.writeWindow (4 * q) v = { s with mem := s.mem.setLimb .w32 q v.toNat } := by
  rw [State.writeWindow, Nat.mul_comm]; rfl

/-- The window holds `W/32` words for each limb. -/
theorem windowBytes_eq_words (s : State) : s.windowBytes = 4 * (s.cfg.memLimbs * (s.cfg.w / 32)) := by
  have hbytes : s.cfg.width.bytes = 4 * (s.cfg.w / 32) := by unfold Config.w; cases s.cfg.width <;> rfl
  rw [State.windowBytes, hbytes, Nat.mul_left_comm]

section
variable {s : State} {ms : List Move} {o : BitVec 20} {q : Nat}
  (hb : s.busy = false) (ho : o.toNat = 0x80000 + 4 * q) (hq : q < s.cfg.memLimbs * (s.cfg.w / 32))

include ho in
/-- The offset of a word is aligned and not a register's, and its place in the window is `4*q`. -/
theorem window_offset_of_word :
    o.toNat % 4 = 0 ∧ isRegister o.toNat = false ∧ o.toNat - windowBase = 4 * q := by
  simp only [ho, isRegister, windowBase, decide_eq_false_iff_not]; omega

include ho hq in
theorem mapped_of_word : s.mapped o.toNat = true := by
  have hbytes := windowBytes_eq_words s
  exact (mapped_iff ..).2 (.inr (by simp only [windowBase]; omega))

include hb ho hq

/-- An allowed read of word `q` returns it and does nothing else. -/
theorem step_read_window (h : s.inputs = .read o .word :: ms) :
    step s = .next { s with inputs := ms, replies := s.readWindow (4 * q) :: s.replies } := by
  obtain ⟨ha, hreg, hplace⟩ := window_offset_of_word ho
  have hv : (s.withInputs ms).readPort o.toNat = s.readWindow (4 * q) := by
    simp only [State.readPort, hreg, hplace, Bool.false_eq_true, if_false]; rfl
  rw [step_read h, portRead_next_iff]
  exact ⟨rfl, ha, mapped_of_word ho hq, by simp [hb], by rw [hv]; rfl⟩

/-- An allowed write of word `q` replaces it and does nothing else. -/
theorem step_write_window {v : Word32} (h : s.inputs = .write o .word v :: ms) :
    step s = .next { s with inputs := ms, mem := s.mem.setLimb .w32 q v.toNat } := by
  obtain ⟨ha, hreg, hplace⟩ := window_offset_of_word ho
  have hw : (s.withInputs ms).writePort o.toNat v = (s.withInputs ms).writeWindow (4 * q) v := by
    simp only [State.writePort, hreg, hplace, Bool.false_eq_true, if_false]
  rw [step_write h, portWrite_next_iff]
  exact ⟨rfl, ha, mapped_of_word ho hq, by simp [hb], by rw [hw, writeWindow_eq_setLimb]; rfl⟩

end

/-- Settles O17: the write replaces word `q`, which is limb `q` itself or one half of limb `q / 2`. -/
theorem windowWriteReplacesOneWord : Obligations.WindowWriteReplacesOneWord := by
  intro s ms o v q hi hb h ho hq
  obtain ⟨-, hm, -⟩ := hi
  refine ⟨_, step_write_window hb ho hq h, rfl, fun _ => ⟨Memory.word_setLimb_same v hm q, fun a => ?_⟩,
    fun _ => ⟨fun he => ?_, fun hodd => ?_, fun a => ?_⟩⟩
  · exact Memory.limb_setLimb_ne _
  · have hword : 2 * (q / 2) = q := by omega
    simpa only [hword] using Memory.limb_w64_setLow v hm (q / 2)
  · have hword : 2 * (q / 2) + 1 = q := by omega
    simpa only [hword] using Memory.limb_w64_setHigh v hm (q / 2)
  · exact Memory.limb_w64_setLimb_w32_ne _

/-- Settles O18: the read returns word `q`, which is limb `q` itself or one half of limb `q / 2`. -/
theorem windowReadReturnsTheWordOfTheLimb : Obligations.WindowReadReturnsTheWordOfTheLimb := by
  refine ⟨fun s ms o q hb h ho hq => ?_, fun m wd a j hj => (m.readLE_byte hj).symm⟩
  refine ⟨s.readWindow (4 * q), step_read_window hb ho hq h, fun _ => toNat_readWindow s q,
    fun _ => ⟨fun he => ?_, fun hodd => ?_⟩⟩
  · rw [toNat_readWindow, Memory.limb_w64_mod, show 2 * (q / 2) = q by omega]
  · rw [toNat_readWindow, Memory.limb_w64_div, show 2 * (q / 2) + 1 = q by omega]

end Sys2Proof.Machine

/-! SUPPORT. Legal and illegal commands (R86, R91, R92): a row of the opcode table selects exactly the legal commands of its opcode,
each opcode has one row, and a command that is not legal traps. Settles `LegalCommandsAreTheTableRows` and
`IllegalCommandTrapsAndDoesNothingElse`. -/

namespace Sys2Proof

/-! ## The rows that a command selects (R91) -/

@[simp] theorem Opcode.opcode_build (o : Opcode) (c : Command) : (o.build c).opcode = o := by cases o <;> rfl

/-- Each opcode has exactly one row in the table. -/
theorem rows_of_opcode (o : Opcode) : (opcodeTable.filter fun r => r.opcode == o).length = 1 := by cases o <;> rfl

/-- A row of the table selects a command iff it is a legal command of the row's opcode. -/
theorem selects_iff_decode {r : OpcodeRow} (hr : r ∈ opcodeTable) (c : Command) :
    r.selects c = true ↔ ∃ i, decode c = .ok i ∧ i.opcode = r.opcode := by
  rw [selects_iff hr]
  constructor
  · rintro ⟨hop, hzero⟩
    exact ⟨_, decode_ok_iff.2 ⟨_, hop, hzero, rfl⟩, r.opcode.opcode_build c⟩
  · rintro ⟨i, hd, hi⟩
    obtain ⟨o, hop, hzero, rfl⟩ := decode_ok_iff.1 hd
    rw [Opcode.opcode_build] at hi
    exact hi ▸ ⟨hop, hzero⟩

/-- A legal command selects the row of its opcode alone. -/
theorem selected_rows_of_legal {c : Command} {i : Instr} (h : decode c = .ok i) :
    (opcodeTable.filter fun r => r.selects c).length = 1 := by
  have hsame : ∀ r ∈ opcodeTable, r.selects c = (r.opcode == i.opcode) := fun r hr => by
    rw [Bool.eq_iff_iff, selects_iff_decode hr, beq_iff_eq]
    simp [h, eq_comm]
  rw [List.filter_congr hsame, rows_of_opcode]

/-- An illegal command selects no row. -/
theorem selected_rows_of_illegal {c : Command} (h : ¬∃ i, decode c = .ok i) :
    (opcodeTable.filter fun r => r.selects c).length = 0 := by
  rw [List.length_eq_zero_iff, List.filter_eq_nil_iff]
  intro r hr hsel
  obtain ⟨i, hd, -⟩ := (selects_iff_decode hr c).1 hsel
  exact h ⟨i, hd⟩

/-- Settles O3: a legal command selects one row, an illegal one none, and a row that selects a command is its opcode's. -/
theorem legalCommandsAreTheTableRows : Obligations.LegalCommandsAreTheTableRows := by
  intro c
  have hrow : ∀ r ∈ opcodeTable, r.selects c = true → ∃ i, decode c = .ok i ∧ i.opcode = r.opcode :=
    fun r hr => (selects_iff_decode hr c).1
  rcases em (∃ i, decode c = .ok i) with ⟨i, hd⟩ | hillegal
  · have hone := selected_rows_of_legal hd
    exact ⟨iff_of_true ⟨i, hd⟩ hone, hrow, hone.le⟩
  · have hnone := selected_rows_of_illegal hillegal
    exact ⟨iff_of_false hillegal (by omega), hrow, by omega⟩

/-! ## Illegal commands (R86) -/

/-- A reserved opcode is illegal. -/
theorem decode_ne_ok_of_reserved {c : Command} (h : ∀ o : Opcode, Field.opc.get c ≠ o.code) (i : Instr) :
    decode c ≠ .ok i := fun hd =>
  have ⟨o, hop, _⟩ := decode_ok_iff.1 hd
  h o hop

/-- A nonzero field that the opcode's format requires to be zero is illegal. -/
theorem decode_ne_ok_of_nonzero {c : Command} {o : Opcode} {f : Field} (hop : Field.opc.get c = o.code)
    (hf : f ∈ o.format.mustBeZero) (hne : f.get c ≠ 0) (i : Instr) : decode c ≠ .ok i := by
  intro hd
  obtain ⟨p, hp, hzero, -⟩ := decode_ok_iff.1 hd
  obtain rfl := Opcode.code_inj (hop.symm.trans hp)
  exact hne (hzero f hf)

/-- The opcode values of R85, written out. -/
theorem Opcode.mem_codes_of_eq_code {n : Nat} {o : Opcode} (h : n = o.code) :
    n ∈ [0x01, 0x02, 0x03, 0x04, 0x10, 0x11, 0x12, 0x20, 0x21, 0x22, 0x23, 0x30, 0x31, 0x32] := by
  subst h
  cases o <;> decide

/-- 0 is a reserved opcode, so the all-zero command is illegal. -/
theorem opc_zero_reserved (o : Opcode) : Field.opc.get 0 ≠ o.code := by cases o <;> decide

end Sys2Proof

namespace Sys2Proof.Machine

/-- The completion of an illegal command is trap entry with `ILLEGAL_CMD` (R92, R232). -/
theorem complete_of_illegal {s : State} (h : ∀ i, decode s.lc ≠ .ok i) : complete s = .next (s.trapped 0x01) := by
  obtain ⟨t, ht⟩ := complete_total s
  rcases complete_cases ht with ⟨e, -, rfl⟩ | ⟨i, hd, -⟩
  · exact ht
  · exact absurd hd (h i)

theorem step_of_illegal {s : State} (hc : s.completesNext) (h : ∀ i, decode s.lc ≠ .ok i) :
    step s = .next ((s.withInputs s.inputs.tail).trapped 0x01) :=
  (step_completes hc).trans (complete_of_illegal h)

/-- Settles O5: each of the three kinds of commands is illegal, and the completion of an illegal command is trap entry. -/
theorem illegalCommandTrapsAndDoesNothingElse : Obligations.IllegalCommandTrapsAndDoesNothingElse := by
  intro s hc
  refine ⟨fun hres => ?_, fun o f hop hf hne => ?_, fun hzero => ?_⟩
  · exact step_of_illegal hc (decode_ne_ok_of_reserved fun o ho => hres (Opcode.mem_codes_of_eq_code ho))
  · exact step_of_illegal hc (decode_ne_ok_of_nonzero hop hf hne)
  · exact step_of_illegal hc (decode_ne_ok_of_reserved (hzero ▸ opc_zero_reserved))

end Sys2Proof.Machine

/-! SUPPORT. The limb procedures of `40_primitives.md` as wholes: the vector operations (R113 to R115), Montgomery reduction (R124,
R127), the reading of the exponent (R129, R130) and the two table selections (R196, R197). Settles `LimbVectorArithmeticValues`,
`MontgomeryReductionValue` and `ExponentBitsAndTableEntriesAreRight`. -/

namespace Sys2Proof.Machine

/-! ## Vector addition, subtraction and multiplication (R113, R114, R115) -/

section
variable {w : Nat} {a b : List Nat}

theorem bnAdd_value (h : a.length = b.length) :
    val w (bnAdd w a b).1 + (bnAdd w a b).2 * 2 ^ (w * a.length) = val w a + val w b := by
  rw [Nat.mul_comm]; exact bnAddFrom_value w 0 h

theorem bnSub_value (h : a.length = b.length) (ha : limbsFit w a = true) (hb : limbsFit w b = true) :
    val w (bnSub w a b).1 + val w b = val w a + (bnSub w a b).2 * 2 ^ (w * a.length) := by
  rw [Nat.mul_comm (bnSub w a b).2]; exact bnSubFrom_value (Nat.zero_le 1) h ha hb

/-- The borrow is the comparison: the difference limbs lie below the radix, so a borrow of 0 or 1 is forced. -/
theorem bnSub_borrow (h : a.length = b.length) (ha : limbsFit w a = true) (hb : limbsFit w b = true) :
    (bnSub w a b).2 = if val w a < val w b then 1 else 0 := by
  have hvalue := bnSub_value h ha hb
  have hlt : val w (bnSub w a b).1 < 2 ^ (w * a.length) := by
    have hlen : (bnSub w a b).1.length = a.length := length_bnSubFrom w 0 h
    rw [← hlen]; exact val_lt (limbsFit_bnSubFrom ..)
  have hbit : (bnSub w a b).2 ≤ 1 := bnSubFrom_borrow_le a b (Nat.zero_le 1)
  obtain h0 | h1 : (bnSub w a b).2 = 0 ∨ (bnSub w a b).2 = 1 := by omega
  · rw [h0] at hvalue ⊢; split <;> omega
  · rw [h1] at hvalue ⊢; split <;> omega

theorem bnMul_value (w : Nat) (a b : List Nat) :
    val w (bnMul w a b) = val w a * val w b ∧ (bnMul w a b).length = a.length + b.length := by
  obtain ⟨hval, hlen⟩ := mulRows_value (w := w) (a := a) (b := b) (t := List.replicate (a.length + b.length) 0)
    (List.length_replicate ..) (by simp)
  rw [val_replicate_zero, Nat.zero_add] at hval
  exact ⟨hval, hlen.trans (List.length_replicate ..)⟩

theorem limbsFit_bnMul (ha : limbsFit w a = true) (hb : limbsFit w b = true) : limbsFit w (bnMul w a b) = true :=
  limbsFit_mulRows ha hb (limbsFit_replicate_zero ..)

end

/-- Settles O52: the three loops from a zero carry, a zero borrow and a zero product buffer. -/
theorem limbVectorArithmeticValues : Obligations.LimbVectorArithmeticValues := by
  intro w a b ha hb h
  obtain ⟨hmul, hmulLen⟩ := bnMul_value w a b
  refine ⟨⟨bnAdd_value h, ?_, ?_, ?_⟩, ⟨bnSub_value h ha hb, bnSub_borrow h ha hb, ?_, ?_⟩, hmul, ?_, limbsFit_bnMul ha hb⟩
  · exact bnAddFrom_carry_le (Nat.zero_le 1) ha hb
  · exact length_bnAddFrom w 0 h
  · exact limbsFit_bnAddFrom w 0 a b
  · exact length_bnSubFrom w 0 h
  · exact limbsFit_bnSubFrom w 0 a b
  · omega

/-! ## Montgomery reduction (R124, R127) -/

/-- A vector of `k + 1` limbs is its low `k` limbs and its top one. -/
theorem val_eq_take_add_top (w : Nat) {u : List Nat} {k : Nat} (h : u.length = k + 1) :
    val w u = val w (u.take k) + 2 ^ (w * k) * limbAt u k := by
  have htop : u.drop k = [limbAt u k] := by
    rw [List.drop_eq_getElem_cons (by omega), List.drop_eq_nil_of_le (by omega), limbAt, List.getD_eq_getElem]
  rw [val_take_drop w k (by omega), htop, val_cons, val_nil, Nat.mul_zero, Nat.add_zero]

section
variable {w mu : Nat} {n t : List Nat} (hn : limbsFit w n = true) (ht : limbsFit w t = true) (hl : t.length = 2 * n.length)
  (hmu : (limbAt n 0 * mu + 1) % 2 ^ w = 0) (hlt : val w t < val w n * 2 ^ (w * n.length))
include hn ht hl hmu hlt

/-- The `len` steps of R124 leave `len + 1` limbs whose value is below `2N` and times `R` is `val(t)` plus a multiple of `N`. -/
theorem montSteps_extended :
    ∃ u m, montSteps w n mu n.length (t ++ [0]) = u ∧ 2 ^ (w * n.length) * val w u = val w t + m * val w n ∧
      val w u < 2 * val w n ∧ u.length = n.length + 1 ∧ limbsFit w u = true := by
  have hnR : val w n < 2 ^ (w * n.length) := val_lt hn
  have hNpos : 0 < val w n := Nat.pos_of_mul_pos_right (Nat.zero_lt_of_lt hlt)
  have hne : n ≠ [] := by rintro rfl; exact absurd hNpos (by simp)
  have hw : 0 < w := by
    rcases Nat.eq_zero_or_pos w with rfl | hw
    · rw [Nat.zero_mul, Nat.pow_zero] at hnR; omega
    · exact hw
  have hext : val w (t ++ [0]) = val w t := by simp [val_append]
  have hextLen : (t ++ [0]).length = n.length + n.length + 1 := by rw [List.length_append, hl, List.length_singleton]; omega
  have hextFit : limbsFit w (t ++ [0]) = true :=
    (limbsFit_append ..).2 ⟨ht, (limbsFit_cons ..).2 ⟨Nat.two_pow_pos w, rfl⟩⟩
  set R := 2 ^ (w * n.length) with hR
  have hRN : (R - 1) * val w n ≤ R * val w n := Nat.mul_le_mul_right _ (Nat.sub_le R 1)
  have hroom : val w (t ++ [0]) + (R - 1) * val w n < 2 ^ (w * (t ++ [0]).length) := by
    have hpow : 2 ^ (w * (t ++ [0]).length) = R * R * 2 ^ w := by
      rw [hextLen, hR, ← Nat.pow_add, ← Nat.pow_add]; ring_nf
    have hRR : R * val w n ≤ R * R := Nat.mul_le_mul_left _ hnR.le
    have htwo : R * R * 2 ≤ R * R * 2 ^ w := Nat.mul_le_mul_left _ (Nat.le_self_pow (by omega) 2)
    rw [hext, hpow]
    rw [Nat.mul_comm] at hlt
    calc val w t + (R - 1) * val w n ≤ val w t + R * val w n := Nat.add_le_add_left hRN _
      _ < R * val w n + R * val w n := Nat.add_lt_add_right hlt _
      _ ≤ R * R * 2 ^ w := by omega
  obtain ⟨m, hm, hval, hlen, hfit⟩ := montSteps_value hne hmu n.length hextFit (by omega) hroom
  rw [hext] at hval
  refine ⟨_, m, rfl, hval, ?_, by omega, hfit⟩
  refine Nat.lt_of_mul_lt_mul_left (a := R) ?_
  have hmN : m * val w n ≤ R * val w n := Nat.mul_le_mul_right _ hm.le
  calc R * val w (montSteps w n mu n.length (t ++ [0])) = val w t + m * val w n := hval
    _ < val w n * R + R * val w n := Nat.add_lt_add_of_lt_of_le hlt hmN
    _ = R * (2 * val w n) := by ring

/-- `mont_reduce` divides by the radix modulo `N` (R127): the steps do so up to one `N`, which the conditional subtraction
removes. -/
theorem montReduce_value :
    (montReduce w n mu t).length = n.length ∧ limbsFit w (montReduce w n mu t) = true ∧
    val w (montReduce w n mu t) < val w n ∧
    val w (montReduce w n mu t) * 2 ^ (w * n.length) % val w n = val w t % val w n := by
  obtain ⟨u, m, hu, hval, hlt2, hlen, hfit⟩ := montSteps_extended hn ht hl hmu hlt
  rw [montReduce, hu]
  have hsplit := val_eq_take_add_top w hlen
  have htakeLen : (u.take n.length).length = n.length := by rw [List.length_take]; omega
  have hnR : val w n < 2 ^ (w * n.length) := val_lt hn
  have htop : limbAt u n.length ≤ 1 :=
    Nat.le_of_lt_succ (Nat.lt_of_mul_lt_mul_left (a := 2 ^ (w * n.length)) (by omega))
  obtain ⟨hres, hresFit, hresLen⟩ := condSub_value (limbsFit_take n.length hfit) hn htakeLen htop (by omega)
  rw [← hsplit] at hres
  have hmod : (if val w n ≤ val w u then val w u - val w n else val w u) = val w u % val w n := by
    split_ifs with hge
    · rw [Nat.mod_eq_sub_mod hge, Nat.mod_eq_of_lt (by omega)]
    · exact (Nat.mod_eq_of_lt (by omega)).symm
  refine ⟨hresLen, hresFit, ?_, ?_⟩
  · rw [hres, hmod]; exact Nat.mod_lt _ (by omega)
  · rw [hres, hmod, Nat.mod_mul_mod, Nat.mul_comm, hval, Nat.add_mul_mod_self_right]

end

/-- Settles O51, by the value of the steps and of the conditional subtraction. -/
theorem montgomeryReductionValue : Obligations.MontgomeryReductionValue :=
  fun _ _ _ _ hn ht hl hmu hlt => montReduce_value hn ht hl hmu hlt

/-! ## Bits and windows of the exponent (R129, R130) -/

section
variable {w : Nat} {b : List Nat} (hb : limbsFit w b = true)
include hb

/-- The limb that holds bit `p`, shifted down to that bit, is what the limb has of the value from bit `p` up. -/
theorem limbAt_shiftRight (hw : 0 < w) (p : Nat) :
    limbAt b (p / w) >>> (p % w) = val w b / 2 ^ p % 2 ^ (w - p % w) := by
  have hj : p % w < w := Nat.mod_lt p hw
  have hpow : 2 ^ w = 2 ^ (p % w) * 2 ^ (w - p % w) := by rw [← Nat.pow_add, Nat.add_sub_of_le hj.le]
  rw [limbAt_eq _ hb, Nat.shiftRight_eq_div_pow, hpow, Nat.mod_mul_right_div_self, Nat.div_div_eq_div_mul,
    ← Nat.pow_add, Nat.div_add_mod]

theorem getBit_value (hw : 0 < w) (i : Nat) : getBit w b i = val w b / 2 ^ i % 2 := by
  have hdvd : 2 ∣ 2 ^ (w - i % w) := dvd_pow_self 2 (Nat.sub_ne_zero_of_lt (Nat.mod_lt i hw))
  rw [getBit, limbAt_shiftRight hb hw, Nat.and_one_is_mod, Nat.mod_mod_of_dvd _ hdvd]

omit hb in
/-- The splice of R130: the low `s` bits of `x` from one limb and the bits above from the next give `l` bits of `x`. -/
theorem splice_mod (x s : Nat) {l : Nat} (h : l ≤ w) :
    (x % 2 ^ s ||| (x / 2 ^ s % 2 ^ w) <<< s % 2 ^ w) % 2 ^ l = x % 2 ^ l := by
  refine Nat.eq_of_testBit_eq fun k => ?_
  simp only [Nat.testBit_mod_two_pow, Nat.testBit_or, Nat.testBit_shiftLeft, Nat.testBit_div_two_pow]
  by_cases hkl : k < l
  · rcases Nat.lt_or_ge k s with hks | hks
    · simp [hks, Nat.not_le.2 hks]
    · simp [hkl, hks, Nat.not_lt.2 hks, Nat.sub_add_cancel hks, show k < w by omega, show k - s < w by omega]
  · simp [hkl]

/-- A window of at most `W` bits inside the vector: it lies in one limb, or its upper bits are the next limb's. -/
theorem getWindow_value {p l : Nat} (hw : 0 < w) (hlw : l ≤ w) (hp : p + l ≤ w * b.length) :
    getWindow w b p l = val w b / 2 ^ p % 2 ^ l := by
  have hj : p % w < w := Nat.mod_lt p hw
  have hdm := Nat.div_add_mod p w
  rw [getWindow, Nat.and_two_pow_sub_one_eq_mod, limbAt_shiftRight hb hw]
  by_cases hcross : p % w + l > w
  · have hnext : w * (p / w + 1) = p + (w - p % w) := by rw [Nat.mul_add, Nat.mul_one]; omega
    have hin : p / w + 1 < b.length := Nat.lt_of_mul_lt_mul_left (a := w) (by omega)
    rw [if_pos ⟨hcross, hin⟩, limbAt_eq _ hb, hnext, Nat.pow_add, ← Nat.div_div_eq_div_mul, splice_mod _ _ hlw]
  · rw [if_neg fun hc => hcross hc.1, Nat.mod_mod_of_dvd _ (pow_dvd_pow 2 (by omega))]

end

/-! ## Table selection (R196, R197) -/

/-- A mask select by equality is a choice. -/
theorem maskSelect_eqMask {w i v : Nat} {x y : List Nat} (hx : limbsFit w x = true) (hy : limbsFit w y = true)
    (h : x.length = y.length) : maskSelect w (eqMask w i v) x y = if i = v then x else y := by
  unfold eqMask
  split
  · exact maskSelect_ones hx h
  · exact maskSelect_zero hy h

/-- The scan of the entries `i, i+1, …` replaces `s` by entry `v`, where it meets that entry. -/
theorem scanTable_value {w k v : Nat} {es : List (List Nat)} {s : List Nat} (i : Nat)
    (hs : s.length = k ∧ limbsFit w s = true) (hes : ∀ x ∈ es, x.length = k ∧ limbsFit w x = true) :
    scanTable w v i es s = if i ≤ v then es.getD (v - i) s else s := by
  induction es generalizing i s with
  | nil => simp [scanTable]
  | cons e es ih =>
    rw [List.forall_mem_cons] at hes
    obtain ⟨⟨hel, hef⟩, hes⟩ := hes
    rw [scanTable, maskSelect_eqMask hef hs.2 (hel.trans hs.1.symm)]
    rcases Nat.lt_trichotomy i v with hiv | rfl | hvi
    · have hstep : v - i = v - (i + 1) + 1 := by omega
      rw [if_neg hiv.ne, ih (i + 1) hs hes, if_pos (Nat.succ_le_of_lt hiv), if_pos hiv.le, hstep, List.getD_cons_succ]
    · rw [if_pos rfl, ih (i + 1) ⟨hel, hef⟩ hes, if_neg (Nat.not_succ_le_self i), if_pos le_rfl, Nat.sub_self,
        List.getD_cons_zero]
    · rw [if_neg hvi.ne', ih (i + 1) hs hes, if_neg (by omega), if_neg (by omega)]

/-- The scan of the whole table leaves entry `v` (R196). -/
theorem selectCt_value {w k v : Nat} {table : List (List Nat)} (hv : v < table.length)
    (h : ∀ x ∈ table, x.length = k ∧ limbsFit w x = true) : selectCt w table v = table.getD v [] := by
  cases table with
  | nil => exact absurd hv (Nat.not_lt_zero v)
  | cons e es =>
    rw [List.forall_mem_cons] at h
    rw [selectCt, List.headD_cons, List.tail_cons, scanTable_value 1 h.1 h.2]
    cases v with
    | zero => rfl
    | succ v =>
      have hin : v < es.length := Nat.lt_of_succ_lt_succ hv
      rw [if_pos (Nat.le_add_left 1 v), Nat.add_sub_cancel, List.getD_cons_succ, List.getD_eq_getElem _ _ hin,
        List.getD_eq_getElem _ _ hin]

/-- Settles O55: a bit and a window are read from the value's digits, and the scan keeps the entry whose index matches. -/
theorem exponentBitsAndTableEntriesAreRight : Obligations.ExponentBitsAndTableEntriesAreRight := by
  refine ⟨fun wd b i hb _ => getBit_value hb (bits_pos wd) i, fun wd b p l hb _ hl hp => ?_,
    fun wd table k v hlen hv h => ⟨selectCt_value (hlen ▸ hv) h, rfl⟩⟩
  have hwidth : 4 ≤ wd.bits := by cases wd <;> decide
  exact getWindow_value hb (bits_pos wd) (hl.trans hwidth) hp

end Sys2Proof.Machine

/-! SUPPORT. The two constants that `INIT` computes for a context: `mu` by the iteration of R118, and `r2` by the modular
doublings of R143, with the value of `add_mod_n` (R122) that a doubling is. Settles `ContextConstantsAreRight`. -/

namespace Sys2Proof.Machine

/-! ## The negated inverse of a limb (R118) -/

section
variable {w n0 : Nat}

/-- Near full precision a turn stops at the limb's own `W` bits instead of doubling past them. -/
theorem newtonStep_doubles_up_to_width (hw : 2 ∣ w) {x k : Nat} (h : n0 * x ≡ 1 [MOD 2 ^ k]) :
    n0 * newtonStep w n0 x ≡ 1 [MOD 2 ^ min (2 * k) w] := by
  have hmin : min (2 * k) w = 2 * min k (w / 2) := by omega
  rw [hmin]
  exact newtonStep_doubles (h.of_dvd (pow_dvd_pow 2 (min_le_left k (w / 2)))) (by omega)

/-- The square of an odd number is 1 modulo 8: `n0` is its own inverse to three bits, the start of the iteration. -/
theorem odd_mul_self_modEq_eight (h : n0 % 2 = 1) : n0 * n0 ≡ 1 [MOD 2 ^ 3] := by
  have hodd : Odd n0 := Nat.odd_iff.2 h
  rw [← Nat.pow_two]
  exact ((Nat.modEq_iff_dvd' (Nat.pow_pos hodd.pos)).2 (Nat.eight_dvd_sq_sub_one_of_odd hodd)).symm

/-- After `i` turns from `n0` the inverse is right to `3 * 2^i` bits, or to the whole limb. -/
theorem newtonStep_iterate_inverse (hw : 2 ∣ w) (h : n0 % 2 = 1) (i : Nat) :
    n0 * (newtonStep w n0)^[i] n0 ≡ 1 [MOD 2 ^ min (3 * 2 ^ i) w] := by
  induction i with
  | zero => exact (odd_mul_self_modEq_eight h).of_dvd (pow_dvd_pow 2 (min_le_left 3 w))
  | succ i ih =>
    rw [Function.iterate_succ_apply']
    have hturn := newtonStep_doubles_up_to_width hw ih
    have hmin : min (2 * min (3 * 2 ^ i) w) w = min (3 * 2 ^ (i + 1)) w := by rw [Nat.pow_succ]; omega
    rwa [hmin] at hturn

theorem newtonStep_lt (w n0 x : Nat) : newtonStep w n0 x < 2 ^ w := Nat.mod_lt _ (Nat.two_pow_pos w)

/-- The negation of an inverse modulo `B` is a negated inverse. -/
theorem mul_neg_inverse_add_one {x B : Nat} (hx : x ≤ B) (h : n0 * x ≡ 1 [MOD B]) :
    (n0 * ((B - x) % B) + 1) % B = 0 := by
  have hneg : n0 * ((B - x) % B) ≡ n0 * (B - x) [MOD B] := (Nat.mod_modEq (B - x) B).mul_left n0
  have hsum : n0 * ((B - x) % B) + 1 ≡ n0 * (B - x) + n0 * x [MOD B] := hneg.add h.symm
  rw [← Nat.mul_add, Nat.sub_add_cancel hx] at hsum
  exact hsum.trans (Nat.modEq_zero_iff_dvd.2 (Nat.dvd_mul_left B n0))

theorem modInvLimb_lt (w n0 : Nat) : modInvLimb w n0 < 2 ^ w := Nat.mod_lt _ (Nat.two_pow_pos w)

/-- Five turns give 96 bits, enough for either limb width (R118). -/
theorem modInvLimb_value (wd : LimbWidth) (h : n0 % 2 = 1) : (n0 * modInvLimb wd.bits n0 + 1) % 2 ^ wd.bits = 0 := by
  have hwidth : 2 ∣ wd.bits ∧ min (3 * 2 ^ 5) wd.bits = wd.bits := by cases wd <;> decide
  have hinv := newtonStep_iterate_inverse hwidth.1 h 5
  rw [hwidth.2] at hinv
  exact mul_neg_inverse_add_one (newtonStep_lt ..).le hinv

/-- An odd limb has at most one negated inverse. -/
theorem neg_inverse_unique (h : n0 % 2 = 1) {m m' : Nat} (hm : m < 2 ^ w) (hm' : m' < 2 ^ w)
    (e : (n0 * m + 1) % 2 ^ w = 0) (e' : (n0 * m' + 1) % 2 ^ w = 0) : m = m' := by
  have hmul : n0 * m ≡ n0 * m' [MOD 2 ^ w] := Nat.ModEq.add_right_cancel' 1 (e.trans e'.symm)
  exact (hmul.cancel_left_of_coprime (coprime_radix h w).symm).eq_of_lt_of_lt hm hm'

end

/-! ## Modular doubling (R122, R143) -/

section
variable {w : Nat} {n : List Nat} (hn : limbsFit w n = true)
include hn

/-- `add_mod_n` of operands below the modulus: the sum is below `2N`, so one conditional subtraction reduces it (R122). -/
theorem addModN_value {a b : List Nat} (ha : limbsFit w a = true) (hb : limbsFit w b = true) (hal : a.length = n.length)
    (hbl : b.length = n.length) (hav : val w a < val w n) (hbv : val w b < val w n) :
    val w (addModN w n a b) = (val w a + val w b) % val w n ∧ limbsFit w (addModN w n a b) = true ∧
    (addModN w n a b).length = n.length := by
  have hlen : a.length = b.length := hal.trans hbl.symm
  have hsum : val w (bnAdd w a b).1 + 2 ^ (w * n.length) * (bnAdd w a b).2 = val w a + val w b := by
    rw [← hal, Nat.mul_comm]; exact bnAdd_value hlen
  have hcarry : (bnAdd w a b).2 ≤ 1 := bnAddFrom_carry_le (Nat.zero_le 1) ha hb
  have hsumFit : limbsFit w (bnAdd w a b).1 = true := limbsFit_bnAddFrom w 0 a b
  have hsumLen : (bnAdd w a b).1.length = n.length := (length_bnAddFrom w 0 hlen).trans hal
  obtain ⟨hval, hfit, hresLen⟩ := condSub_value hsumFit hn hsumLen hcarry (by omega)
  rw [hsum] at hval
  refine ⟨hval.trans ?_, hfit, hresLen⟩
  rw [Nat.add_mod_eq_ite, Nat.mod_eq_of_lt hav, Nat.mod_eq_of_lt hbv]

/-- `i` doublings multiply by `2^i` modulo `N`. -/
theorem doublings_value (i : Nat) {acc : List Nat} (ha : limbsFit w acc = true) (hl : acc.length = n.length)
    (hlt : val w acc < val w n) :
    val w (doublings w n i acc) = 2 ^ i * val w acc % val w n ∧ limbsFit w (doublings w n i acc) = true ∧
    (doublings w n i acc).length = n.length := by
  induction i generalizing acc with
  | zero => exact ⟨by rw [Nat.pow_zero, Nat.one_mul, Nat.mod_eq_of_lt hlt, doublings], ha, hl⟩
  | succ i ih =>
    obtain ⟨hval, hfit, hlen⟩ := addModN_value hn ha ha hl hl hlt hlt
    obtain ⟨hv, hf, hk⟩ := ih hfit hlen (hval ▸ Nat.mod_lt _ (Nat.zero_lt_of_lt hlt))
    refine ⟨?_, hf, hk⟩
    rw [doublings, hv, hval, Nat.mul_mod_mod, ← Nat.two_mul, ← Nat.mul_assoc, ← Nat.pow_succ]

/-- The doublings of R143 leave the limbs that `INIT` writes. -/
theorem r2ByDoubling_eq_radixSquaredOf (hlt : 1 < val w n) : r2ByDoubling w n = radixSquaredOf w n.length n := by
  have hnR : val w n < 2 ^ (w * n.length) := val_lt hn
  have hone : val w (limbsOf w n.length 1) = 1 := by rw [val_limbsOf, Nat.mod_eq_of_lt (hlt.trans hnR)]
  have hrem : 2 ^ (2 * w * n.length) % val w n < val w n := Nat.mod_lt _ (Nat.zero_lt_of_lt hlt)
  obtain ⟨hval, hfit, hlen⟩ := doublings_value hn (2 * w * n.length) (limbsFit_limbsOf w n.length 1) (length_limbsOf ..)
    (hone.trans_lt hlt)
  refine val_inj hfit (limbsFit_limbsOf ..) (hlen.trans (length_limbsOf ..).symm) ?_
  rw [r2ByDoubling, hval, hone, Nat.mul_one, radixSquaredOf, val_limbsOf, Nat.mod_eq_of_lt (hrem.trans hnR)]

end

/-- Settles O54: the iteration reaches the limb's width and an odd limb is a unit, and the doublings multiply 1 by `R^2`. -/
theorem contextConstantsAreRight : Obligations.ContextConstantsAreRight :=
  ⟨fun wd n0 hodd _ => ⟨modInvLimb_lt wd.bits n0, modInvLimb_value wd hodd,
      fun _ hm e => neg_inverse_unique hodd hm (modInvLimb_lt wd.bits n0) e (modInvLimb_value wd hodd)⟩,
    fun _ _ hn hlt => r2ByDoubling_eq_radixSquaredOf hn hlt⟩

end Sys2Proof.Machine

/-! SUPPORT. The conversions into and out of Montgomery form (R160, R161): the values of a Montgomery product and of the reduction
of one vector, the two maps of limb vectors that they are under the constants of a slot, and the exact state that each of the two
commands leaves. Settles `ConversionsAreInverse`. -/

namespace Sys2Proof.Machine

/-! ## Montgomery products and reductions of operands (R125, R127, R161) -/

section
variable {w mu : Nat} {n a b : List Nat} (hn : limbsFit w n = true) (hmu : (limbAt n 0 * mu + 1) % 2 ^ w = 0)
  (ha : limbsFit w a = true) (hal : a.length = n.length)
include hn hmu ha hal

/-- `mont_mul` (R125): one factor below `N` is enough, since the limbs of the other keep it below `R`. -/
theorem montMul_value (hb : limbsFit w b = true) (hbl : b.length = n.length) (hlt : val w b < val w n) :
    (montMul w n mu a b).length = n.length ∧ limbsFit w (montMul w n mu a b) = true ∧
    val w (montMul w n mu a b) < val w n ∧
    val w (montMul w n mu a b) * 2 ^ (w * n.length) % val w n = val w a * val w b % val w n := by
  obtain ⟨hval, hlen⟩ := bnMul_value w a b
  have haR : val w a < 2 ^ (w * n.length) := hal ▸ val_lt ha
  have hprod : val w (bnMul w a b) < val w n * 2 ^ (w * n.length) := by
    rw [hval, Nat.mul_comm (val w n)]; exact Nat.mul_lt_mul'' haR hlt
  rw [← hval]
  exact montReduce_value hn (limbsFit_bnMul ha hb) (by omega) hmu hprod

/-- `mont_reduce` of a vector extended by zero limbs (R161): its value is below `R`, so below `N * R`. -/
theorem montReduce_zeroExtend_value (hpos : 0 < val w n) :
    (montReduce w n mu (zeroExtend a)).length = n.length ∧ limbsFit w (montReduce w n mu (zeroExtend a)) = true ∧
    val w (montReduce w n mu (zeroExtend a)) < val w n ∧
    val w (montReduce w n mu (zeroExtend a)) * 2 ^ (w * n.length) % val w n = val w a % val w n := by
  have hval : val w (zeroExtend a) = val w a := by simp [zeroExtend, val_append, val_replicate_zero]
  have hlen : (zeroExtend a).length = 2 * n.length := by
    rw [zeroExtend, List.length_append, List.length_replicate, hal, Nat.two_mul]
  have hfit : limbsFit w (zeroExtend a) = true := (limbsFit_append ..).2 ⟨ha, limbsFit_replicate_zero ..⟩
  have haR : val w a < 2 ^ (w * n.length) := hal ▸ val_lt ha
  rw [← hval]
  exact montReduce_value hn hfit hlen hmu (hval.trans_lt (haR.trans_le (Nat.le_mul_of_pos_left _ hpos)))

end

/-! ## Field contexts and field elements (R41, R140) -/

/-- What the field commands rest on in a slot that `INIT` built on an odd modulus above 1 (R26, R41, R142). -/
structure Slot.FieldContext (w : Nat) (t : Slot) : Prop where
  modulus_fit : limbsFit w t.modulus = true
  modulus_length : t.modulus.length = t.len
  modulus_odd : val w t.modulus % 2 = 1
  one_lt_modulus : 1 < val w t.modulus
  mu_right : (limbAt t.modulus 0 * t.mu + 1) % 2 ^ w = 0
  radixSquared_fit : limbsFit w t.radixSquared = true
  radixSquared_length : t.radixSquared.length = t.len
  radixSquared_value : val w t.radixSquared = 2 ^ (2 * w * t.len) % val w t.modulus

theorem fieldContext_of_inv {s : State} {c : Nat} (hi : s.Inv) (ha : s.accepts c) (ho : s.oddModulus c) :
    (s.slot c).FieldContext s.cfg.w := by
  obtain ⟨-, -, hnl, hrl, hn, hr, -⟩ := valid_slot hi ha
  obtain ⟨-, hmu, hr2⟩ := odd_slot hi ha ho
  exact ⟨hn, hnl, ho.1, ho.2, hmu, hr, hrl, hr2⟩

theorem Slot.FieldContext.conforming {c : Config} {t : Slot} (h : t.FieldContext c.w) : t.conforming c.w = true :=
  (modulusOk_iff (Config.w_pos c) _).2 ⟨h.modulus_odd, h.one_lt_modulus⟩

/-- The limbs of a field element: `len` limbs of `W` bits with a value below `N` (R54, R140). -/
structure Slot.IsElement (w : Nat) (t : Slot) (a : List Nat) : Prop where
  fit : limbsFit w a = true
  length : a.length = t.len
  lt : val w a < val w t.modulus

theorem isElement_memRead {s : State} {c a : Nat} (h : s.operand c a < s.modulusValue c) :
    (s.slot c).IsElement s.cfg.w (s.memRead a (s.ctxLen c)) :=
  ⟨s.limbsFit_memRead a _, s.length_memRead a _, h⟩

theorem Slot.IsElement.below {w : Nat} {t : Slot} {a : List Nat} (h : t.IsElement w a) : t.below w a = true :=
  decide_eq_true h.lt

/-- An element is known by its value times the radix modulo the odd `N`. -/
theorem Slot.IsElement.ext {w : Nat} {t : Slot} {a b : List Nat} (hodd : val w t.modulus % 2 = 1) (ha : t.IsElement w a)
    (hb : t.IsElement w b)
    (h : val w a * 2 ^ (w * t.len) % val w t.modulus = val w b * 2 ^ (w * t.len) % val w t.modulus) : a = b := by
  have hmod : val w a % val w t.modulus = val w b % val w t.modulus := radix_cancel hodd h
  rw [Nat.mod_eq_of_lt ha.lt, Nat.mod_eq_of_lt hb.lt] at hmod
  exact val_inj ha.fit hb.fit (ha.length.trans hb.length.symm) hmod

/-! ## The two conversions of limb vectors (R160, R161) -/

/-- `to_field`: the Montgomery product by `r2` (R160). -/
def Slot.toField (w : Nat) (t : Slot) (a : List Nat) : List Nat := montMul w t.modulus t.mu a t.radixSquared

/-- `from_field`: the Montgomery reduction alone (R161). -/
def Slot.fromField (w : Nat) (t : Slot) (a : List Nat) : List Nat := montReduce w t.modulus t.mu (zeroExtend a)

section
variable {w : Nat} {t : Slot} (ht : t.FieldContext w) {a : List Nat} (ha : t.IsElement w a)
include ht ha

/-- The product by `R^2 mod N` divided by `R` is `a * R mod N` (R160). -/
theorem Slot.toField_value :
    t.IsElement w (t.toField w a) ∧ val w (t.toField w a) = val w a * 2 ^ (w * t.len) % val w t.modulus := by
  have hlen := ht.modulus_length
  have hr2 : val w t.radixSquared < val w t.modulus := by
    rw [ht.radixSquared_value]; exact Nat.mod_lt _ (Nat.zero_lt_of_lt ht.one_lt_modulus)
  obtain ⟨hl, hf, hlt, hval⟩ := montMul_value ht.modulus_fit ht.mu_right ha.fit (ha.length.trans hlen.symm)
    ht.radixSquared_fit (ht.radixSquared_length.trans hlen.symm) hr2
  have hsq : 2 ^ (2 * w * t.len) = 2 ^ (w * t.len) * 2 ^ (w * t.len) := by rw [← Nat.pow_add]; congr 1; ring
  rw [hlen, ht.radixSquared_value, Nat.mul_mod_mod, hsq, ← Nat.mul_assoc] at hval
  have hmod := radix_cancel ht.modulus_odd hval
  rw [Nat.mod_eq_of_lt hlt] at hmod
  exact ⟨⟨hf, hl.trans hlen, hlt⟩, hmod⟩

/-- The reduction of `a` is the element that times `R` gives `a` (R161). -/
theorem Slot.fromField_value :
    t.IsElement w (t.fromField w a) ∧ val w (t.fromField w a) * 2 ^ (w * t.len) % val w t.modulus = val w a := by
  have hlen := ht.modulus_length
  obtain ⟨hl, hf, hlt, hval⟩ := montReduce_zeroExtend_value ht.modulus_fit ht.mu_right ha.fit (ha.length.trans hlen.symm)
    (Nat.zero_lt_of_lt ht.one_lt_modulus)
  rw [hlen, Nat.mod_eq_of_lt ha.lt] at hval
  exact ⟨⟨hf, hl.trans hlen, hlt⟩, hval⟩

theorem Slot.fromField_toField : t.fromField w (t.toField w a) = a := by
  obtain ⟨helem, hto⟩ := toField_value ht ha
  obtain ⟨hback, hfrom⟩ := fromField_value ht helem
  exact hback.ext ht.modulus_odd ha (hfrom.trans hto)

theorem Slot.toField_fromField : t.toField w (t.fromField w a) = a := by
  obtain ⟨helem, hfrom⟩ := fromField_value ht ha
  obtain ⟨hback, hto⟩ := toField_value ht helem
  exact val_inj hback.fit ha.fit (hback.length.trans ha.length.symm) (hto.trans hfrom)

end

/-! ## The state a field command leaves (R140) -/

/-- The `len` limbs of context `c` written at `rd`, and the command completed. -/
def State.stored (s : State) (c rd : Nat) (v : List Nat) : State := (s.memWrite rd (s.ctxLen c) v).retire

@[simp] theorem State.stored_cfg (s : State) (c rd : Nat) (v : List Nat) : (s.stored c rd v).cfg = s.cfg := rfl
@[simp] theorem State.stored_slot (s : State) (c rd : Nat) (v : List Nat) (d : Nat) : (s.stored c rd v).slot d = s.slot d := rfl

theorem State.mem_wf_stored {s : State} (c rd : Nat) (v : List Nat) (hm : s.mem.wf = true) :
    (s.stored c rd v).mem.wf = true := Memory.wf_writeLimbs _ _ _ _ hm

theorem State.stored_memRead {s : State} {c rd : Nat} {v : List Nat} (hm : s.mem.wf = true)
    (hv : (s.slot c).IsElement s.cfg.w v) : (s.stored c rd v).memRead rd (s.ctxLen c) = v :=
  State.memRead_memWrite hm hv.length hv.fit

/-- An admitted command whose effect is a conforming result stores it. -/
theorem exec_of_conforming_result {i : Instr} {s : State} {c rd : Nat} {ok : Bool} {v : List Nat} {r : List (List Nat)}
    (hadm : admission i s = none) (he : effectOf i s = s.writeResult rd (s.ctxLen c) ok v r) (hok : ok = true) :
    exec i s = .next (s.stored c rd v) := by
  rw [exec_of_admitted hadm, he, hok]; rfl

section
variable {s : State} {c rd ra : Nat} (hadm : s.takesU c rd ra) (ht : (s.slot c).FieldContext s.cfg.w) {a : List Nat}
  (hread : s.memRead ra (s.ctxLen c) = a) (ha : (s.slot c).IsElement s.cfg.w a)
include hadm ht hread ha

theorem exec_tofield : exec (.tofield c rd ra) s = .next (s.stored c rd ((s.slot c).toField s.cfg.w a)) := by
  subst hread
  exact exec_of_conforming_result ((footprintU_admitted_iff ..).2 hadm) rfl (Bool.and_eq_true_iff.2 ⟨ht.conforming, ha.below⟩)

theorem exec_fromfield : exec (.fromfield c rd ra) s = .next (s.stored c rd ((s.slot c).fromField s.cfg.w a)) := by
  subst hread
  exact exec_of_conforming_result ((footprintU_admitted_iff ..).2 hadm) rfl (Bool.and_eq_true_iff.2 ⟨ht.conforming, ha.below⟩)

end

/-- Two field commands in a row: the limbs that the second one stored are read there. -/
theorem execAll_stored_pair {i j : Instr} {s : State} {c y z : Nat} {v u : List Nat} (hm : s.mem.wf = true)
    (hi : exec i s = .next (s.stored c y v)) (hj : exec j (s.stored c y v) = .next ((s.stored c y v).stored c z u))
    (hu : (s.slot c).IsElement s.cfg.w u) :
    ∃ t, execAll [i, j] s = some t ∧ t.memRead z (s.ctxLen c) = u :=
  ⟨_, by simp only [execAll, hi, hj], State.stored_memRead (s := s.stored c y v) (State.mem_wf_stored c y v hm) hu⟩

/-- Settles O47: each command stores the image of its source under its conversion, the second one reads what the first one
stored, and the two conversions of limb vectors are inverse to each other. -/
theorem conversionsAreInverse : Obligations.ConversionsAreInverse := by
  intro s c x y z hi hyx hzy ho hx
  have hctx := fieldContext_of_inv hi hyx.1 ho
  have ha := isElement_memRead hx
  obtain ⟨-, hm, -⟩ := hi
  constructor
  · obtain ⟨hto, -⟩ := Slot.toField_value hctx ha
    have hsnd := exec_fromfield (s := s.stored c y _) hzy hctx (State.stored_memRead hm hto) hto
    rw [State.stored_slot, State.stored_cfg, Slot.fromField_toField hctx ha] at hsnd
    exact execAll_stored_pair hm (exec_tofield hyx hctx rfl ha) hsnd ha
  · obtain ⟨hfrom, -⟩ := Slot.fromField_value hctx ha
    have hsnd := exec_tofield (s := s.stored c y _) hzy hctx (State.stored_memRead hm hfrom) hfrom
    rw [State.stored_slot, State.stored_cfg, Slot.toField_fromField hctx ha] at hsnd
    exact execAll_stored_pair hm (exec_fromfield hyx hctx rfl ha) hsnd ha

end Sys2Proof.Machine

/-! SUPPORT. The field arithmetic commands (R170 to R174) as operations on Montgomery forms: what each procedure makes of vectors that
represent numbers (R15, R127), and what each command stores given buffers that hold such vectors. Settles
`FieldCommandsAreHomomorphic`. -/

namespace Sys2Proof.Machine

/-! ## Modular subtraction (R123) -/

/-- `bn_add` with its carry discarded, as the second pass of `sub_mod_n` uses it. -/
theorem bnAdd_value_mod {w : Nat} {a b : List Nat} (h : a.length = b.length) :
    val w (bnAdd w a b).1 = (val w a + val w b) % 2 ^ (w * a.length) := by
  have hlen : (bnAdd w a b).1.length = a.length := length_bnAddFrom w 0 h
  have hlt : val w (bnAdd w a b).1 < 2 ^ (w * a.length) := hlen ▸ val_lt (limbsFit_bnAddFrom w 0 a b)
  rw [← bnAdd_value h, Nat.add_mul_mod_self_right, Nat.mod_eq_of_lt hlt]

/-- `sub_mod_n` of operands below the modulus: the difference borrows iff `a < b`, and then the addition of `N` carries the borrow
away. -/
theorem subModN_value {w : Nat} {n a b : List Nat} (hn : limbsFit w n = true) (ha : limbsFit w a = true)
    (hb : limbsFit w b = true) (hal : a.length = n.length) (hbl : b.length = n.length) (hav : val w a < val w n)
    (hbv : val w b < val w n) :
    val w (subModN w n a b) = (val w a + val w n - val w b) % val w n ∧ limbsFit w (subModN w n a b) = true ∧
    (subModN w n a b).length = n.length := by
  have hlen : a.length = b.length := hal.trans hbl.symm
  have hbit : (bnSub w a b).2 ≤ 1 := bnSubFrom_borrow_le a b (Nat.zero_le 1)
  have hdLen : (bnSub w a b).1.length = n.length := (length_bnSubFrom w 0 hlen).trans hal
  have hdFit : limbsFit w (bnSub w a b).1 = true := limbsFit_bnSubFrom w 0 a b
  have heLen : (bnAdd w (bnSub w a b).1 n).1.length = n.length := (length_bnAddFrom w 0 hdLen).trans hdLen
  have heFit : limbsFit w (bnAdd w (bnSub w a b).1 n).1 = true := limbsFit_bnAddFrom w 0 _ n
  have hdiff := bnSub_value hlen ha hb
  rw [hal, bnSub_borrow hlen ha hb] at hdiff
  rw [subModN, maskSelect_bit hbit heFit hdFit (heLen.trans hdLen.symm), bnSub_borrow hlen ha hb]
  by_cases hab : val w a < val w b
  · rw [if_pos hab] at hdiff ⊢
    have hsum : val w (bnSub w a b).1 + val w n = val w a + val w n - val w b + 2 ^ (w * n.length) := by omega
    have hnR : val w n < 2 ^ (w * n.length) := val_lt hn
    rw [if_pos rfl, bnAdd_value_mod hdLen, hdLen, hsum, Nat.add_mod_right, Nat.mod_eq_of_lt (by omega),
      Nat.mod_eq_of_lt (by omega)]
    exact ⟨rfl, heFit, heLen⟩
  · rw [if_neg hab] at hdiff ⊢
    have hsum : val w a + val w n - val w b = val w (bnSub w a b).1 + val w n := by omega
    rw [if_neg Nat.zero_ne_one, hsum, Nat.add_mod_right, Nat.mod_eq_of_lt (by omega)]
    exact ⟨rfl, hdFit, hdLen⟩

/-! ## Field elements as Montgomery forms (R15, R127, R140) -/

section
variable {w A B : Nat} {t : Slot} (ht : t.FieldContext w) {a b : List Nat}
include ht

/-- A represented number is a field element: its value is a remainder modulo `N`. -/
theorem represents.isElement (ha : represents w t.modulus A a) : t.IsElement w a := by
  obtain ⟨hfit, hlen, hval⟩ := ha
  exact ⟨hfit, hlen.trans ht.modulus_length, hval ▸ Nat.mod_lt _ (Nat.zero_lt_of_lt ht.one_lt_modulus)⟩

theorem represents_of_isElement (ha : t.IsElement w a) (hval : val w a = A * 2 ^ (w * t.len) % val w t.modulus) :
    represents w t.modulus A a :=
  ⟨ha.fit, ha.length.trans ht.modulus_length.symm, by rw [hval, ht.modulus_length]⟩

theorem represents_toField (ha : t.IsElement w a) : represents w t.modulus (val w a) (t.toField w a) := by
  obtain ⟨helem, hval⟩ := Slot.toField_value ht ha
  exact represents_of_isElement ht helem hval

/-- Every field element is the Montgomery form of its image under `from_field`. -/
theorem Slot.IsElement.exists_represents (ha : t.IsElement w a) : ∃ A, represents w t.modulus A a := by
  obtain ⟨hback, -⟩ := Slot.fromField_value ht ha
  have hform := represents_toField ht hback
  rw [Slot.toField_fromField ht ha] at hform
  exact ⟨_, hform⟩

/-- `from_field` recovers the represented number modulo `N` (R161). -/
theorem val_fromField (ha : represents w t.modulus A a) : val w (t.fromField w a) = A % val w t.modulus := by
  obtain ⟨hback, hval⟩ := Slot.fromField_value ht (ha.isElement ht)
  rw [ha.2.2, ht.modulus_length] at hval
  rw [← Nat.mod_eq_of_lt hback.lt]
  exact radix_cancel ht.modulus_odd hval

theorem represents_addModN (ha : represents w t.modulus A a) (hb : represents w t.modulus B b) :
    represents w t.modulus (A + B) (addModN w t.modulus a b) := by
  have hea := ha.isElement ht
  have heb := hb.isElement ht
  obtain ⟨hval, hfit, hlen⟩ := addModN_value ht.modulus_fit hea.fit heb.fit ha.2.1 hb.2.1 hea.lt heb.lt
  exact ⟨hfit, hlen, by rw [hval, ha.2.2, hb.2.2, ← Nat.add_mod, ← Nat.add_mul]⟩

/-- `sub_mod_n` represents every number `C` that is `A - B` modulo `N` (R171). -/
theorem represents_subModN {C : Nat} (ha : represents w t.modulus A a) (hb : represents w t.modulus B b)
    (hC : C + B ≡ A [MOD val w t.modulus]) : represents w t.modulus C (subModN w t.modulus a b) := by
  have hea := ha.isElement ht
  have heb := hb.isElement ht
  obtain ⟨hval, hfit, hlen⟩ := subModN_value ht.modulus_fit hea.fit heb.fit ha.2.1 hb.2.1 hea.lt heb.lt
  have haR : val w a ≡ A * 2 ^ (w * t.modulus.length) [MOD val w t.modulus] := ha.2.2 ▸ Nat.mod_modEq ..
  have hbR : val w b ≡ B * 2 ^ (w * t.modulus.length) [MOD val w t.modulus] := hb.2.2 ▸ Nat.mod_modEq ..
  refine ⟨hfit, hlen, hval.trans (hbR.add_right_cancel ?_)⟩
  rw [Nat.sub_add_cancel (heb.lt.le.trans (Nat.le_add_left ..)), ← Nat.add_mul]
  exact ((Nat.add_modEq_right).trans haR).trans (hC.symm.mul_right _)

/-- `mont_mul` under the constants of a context multiplies represented numbers (R127). -/
theorem multiplies_of_fieldContext : multiplies w t.modulus t.mu := by
  intro A B a b ha hb
  obtain ⟨hlen, hfit, hlt, hval⟩ := montMul_value ht.modulus_fit ht.mu_right ha.1 ha.2.1 hb.1 hb.2.1 (hb.isElement ht).lt
  refine ⟨hfit, hlen, (Nat.mod_eq_of_lt hlt).symm.trans (radix_cancel (k := w * t.modulus.length) ht.modulus_odd ?_)⟩
  rw [hval, ha.2.2, hb.2.2, ← Nat.mul_mod]
  congr 1
  ring

/-- The reduction of `r2`, which is `R^2` modulo `N`, represents 1 (R174). -/
theorem represents_montOne : represents w t.modulus 1 (t.montOne w) := by
  obtain ⟨hlen, hfit, hlt, hval⟩ := montReduce_zeroExtend_value ht.modulus_fit ht.mu_right ht.radixSquared_fit
    (ht.radixSquared_length.trans ht.modulus_length.symm) (Nat.zero_lt_of_lt ht.one_lt_modulus)
  refine ⟨hfit, hlen, (Nat.mod_eq_of_lt hlt).symm.trans (radix_cancel (k := w * t.modulus.length) ht.modulus_odd ?_)⟩
  rw [hval, ht.radixSquared_value, Nat.mod_mod, ht.modulus_length, Nat.one_mul, ← Nat.pow_add]
  congr 2
  ring

/-! ## Laws of the procedures, limb for limb (R175) -/

theorem montMul_comm (ha : t.IsElement w a) (hb : t.IsElement w b) :
    montMul w t.modulus t.mu a b = montMul w t.modulus t.mu b a := by
  obtain ⟨A, hA⟩ := ha.exists_represents ht
  obtain ⟨B, hB⟩ := hb.exists_represents ht
  have hBA := multiplies_of_fieldContext ht B A b a hB hA
  exact (multiplies_of_fieldContext ht A B a b hA hB).unique (Nat.mul_comm B A ▸ hBA)

theorem addModN_comm (ha : t.IsElement w a) (hb : t.IsElement w b) :
    addModN w t.modulus a b = addModN w t.modulus b a := by
  obtain ⟨A, hA⟩ := ha.exists_represents ht
  obtain ⟨B, hB⟩ := hb.exists_represents ht
  have hBA := represents_addModN ht hB hA
  exact (represents_addModN ht hA hB).unique (Nat.add_comm B A ▸ hBA)

theorem montMul_montOne (ha : t.IsElement w a) : montMul w t.modulus t.mu a (t.montOne w) = a := by
  obtain ⟨A, hA⟩ := ha.exists_represents ht
  have hprod := multiplies_of_fieldContext ht A 1 a _ hA (represents_montOne ht)
  rw [Nat.mul_one] at hprod
  exact hprod.unique hA

end

/-! ## The state each command leaves (R170 to R174) -/

theorem exec_one {s : State} {c rd : Nat} (hacc : s.accepts c) (hin : s.inside rd (s.ctxLen c))
    (ht : (s.slot c).FieldContext s.cfg.w) : exec (.one c rd) s = .next (s.stored c rd ((s.slot c).montOne s.cfg.w)) :=
  exec_of_conforming_result ((footprintD_admitted_iff ..).2 ⟨hacc, hin⟩) rfl ht.conforming

/-- The Montgomery square is the Montgomery product of the source with itself (R126, R173). -/
theorem exec_sqr {s : State} {c rd ra : Nat} (hadm : s.takesU c rd ra) (ht : (s.slot c).FieldContext s.cfg.w) {a : List Nat}
    (hread : s.memRead ra (s.ctxLen c) = a) (ha : (s.slot c).IsElement s.cfg.w a) :
    exec (.sqr c rd ra) s = .next (s.stored c rd (montMul s.cfg.w (s.slot c).modulus (s.slot c).mu a a)) := by
  subst hread
  exact exec_of_conforming_result ((footprintU_admitted_iff ..).2 hadm) rfl (Bool.and_eq_true_iff.2 ⟨ht.conforming, ha.below⟩)

section
variable {s : State} {c rd ra rb : Nat} (hadm : s.takesB c rd ra rb) (ht : (s.slot c).FieldContext s.cfg.w) {a b : List Nat}
  (hra : s.memRead ra (s.ctxLen c) = a) (hrb : s.memRead rb (s.ctxLen c) = b) (ha : (s.slot c).IsElement s.cfg.w a)
  (hb : (s.slot c).IsElement s.cfg.w b)
include ht ha hb

theorem Slot.FieldContext.conforming_both :
    ((s.slot c).conforming s.cfg.w && (s.slot c).below s.cfg.w a && (s.slot c).below s.cfg.w b) = true := by
  rw [ht.conforming, ha.below, hb.below]; rfl

include hadm hra hrb

theorem exec_add : exec (.add c rd ra rb) s = .next (s.stored c rd (addModN s.cfg.w (s.slot c).modulus a b)) := by
  subst hra hrb
  exact exec_of_conforming_result ((footprintB_admitted_iff ..).2 hadm) rfl (ht.conforming_both ha hb)

theorem exec_sub : exec (.sub c rd ra rb) s = .next (s.stored c rd (subModN s.cfg.w (s.slot c).modulus a b)) := by
  subst hra hrb
  exact exec_of_conforming_result ((footprintB_admitted_iff ..).2 hadm) rfl (ht.conforming_both ha hb)

theorem exec_mul :
    exec (.mul c rd ra rb) s = .next (s.stored c rd (montMul s.cfg.w (s.slot c).modulus (s.slot c).mu a b)) := by
  subst hra hrb
  exact exec_of_conforming_result ((footprintB_admitted_iff ..).2 hadm) rfl (ht.conforming_both ha hb)

end

/-! ## Buffers that hold Montgomery forms -/

@[simp] theorem State.stored_ctxLen (s : State) (c rd : Nat) (v : List Nat) (d : Nat) :
    (s.stored c rd v).ctxLen d = s.ctxLen d := rfl

/-- The buffer at `a` holds the Montgomery form of `A` in context `c` (R140). -/
def State.holdsForm (s : State) (c a A : Nat) : Prop :=
  represents s.cfg.w (s.slot c).modulus A (s.memRead a (s.ctxLen c))

/-- Command `i` completes and stores the Montgomery form of `A` at `rd`. -/
def State.storesForm (s : State) (i : Instr) (c rd A : Nat) : Prop :=
  ∃ v, represents s.cfg.w (s.slot c).modulus A v ∧ exec i s = .next (s.stored c rd v)

/-- A buffer disjoint from the destination reads as before. -/
theorem State.stored_memRead_of_disjoint {s : State} {c rd a k : Nat} (v : List Nat) (hd : disjoint rd (s.ctxLen c) a k) :
    (s.stored c rd v).memRead a k = s.memRead a k :=
  State.memRead_kept rfl (s.bytesKeptOutside_memWrite rd (s.ctxLen c) v) hd

theorem State.holdsForm_stored {s : State} {c rd A : Nat} {v : List Nat} (hm : s.mem.wf = true)
    (ht : (s.slot c).FieldContext s.cfg.w) (hv : represents s.cfg.w (s.slot c).modulus A v) :
    (s.stored c rd v).holdsForm c rd A := by
  rw [State.holdsForm, State.stored_ctxLen, State.stored_memRead hm (hv.isElement ht)]
  exact hv

theorem State.holdsForm.stored_of_disjoint {s : State} {c rd a A : Nat} (h : s.holdsForm c a A) (v : List Nat)
    (hd : disjoint rd (s.ctxLen c) a (s.ctxLen c)) : (s.stored c rd v).holdsForm c a A := by
  rw [State.holdsForm, State.stored_ctxLen, State.stored_memRead_of_disjoint v hd]
  exact h

theorem apart_of_disjoint {a k b l : Nat} (h : disjoint a k b l) : apart b l a k :=
  h.elim (fun h => .inr (.inl h)) .inl

section
variable {s : State} {c p q z A B : Nat} (ht : (s.slot c).FieldContext s.cfg.w)
include ht

theorem storesForm_tofield {x : Nat} (hadm : s.takesU c p x) (hx : s.operand c x < s.modulusValue c) :
    s.storesForm (.tofield c p x) c p (s.operand c x) :=
  have ha := isElement_memRead hx
  ⟨_, represents_toField ht ha, exec_tofield hadm ht rfl ha⟩

theorem storesForm_sqr (hadm : s.takesU c z p) (hp : s.holdsForm c p A) : s.storesForm (.sqr c z p) c z (A * A) :=
  ⟨_, multiplies_of_fieldContext ht A A _ _ hp hp, exec_sqr hadm ht rfl (hp.isElement ht)⟩

theorem storesForm_add (hadm : s.takesB c z p q) (hp : s.holdsForm c p A) (hq : s.holdsForm c q B) :
    s.storesForm (.add c z p q) c z (A + B) :=
  ⟨_, represents_addModN ht hp hq, exec_add hadm ht rfl rfl (hp.isElement ht) (hq.isElement ht)⟩

theorem storesForm_sub (hadm : s.takesB c z p q) (hp : s.holdsForm c p A) (hq : s.holdsForm c q B) {C : Nat}
    (hC : C + B ≡ A [MOD s.modulusValue c]) : s.storesForm (.sub c z p q) c z C :=
  ⟨_, represents_subModN ht hp hq hC, exec_sub hadm ht rfl rfl (hp.isElement ht) (hq.isElement ht)⟩

theorem storesForm_mul (hadm : s.takesB c z p q) (hp : s.holdsForm c p A) (hq : s.holdsForm c q B) :
    s.storesForm (.mul c z p q) c z (A * B) :=
  ⟨_, multiplies_of_fieldContext ht A B _ _ hp hq, exec_mul hadm ht rfl rfl (hp.isElement ht) (hq.isElement ht)⟩

end

/-! ## Converting, operating and converting back (R175) -/

theorem execAll_cons {i : Instr} {s t : State} (h : exec i s = .next t) (is : List Instr) :
    execAll (i :: is) s = execAll is t := by
  rw [execAll, h]

section
variable {s : State} {c p q z A : Nat} (ht : (s.slot c).FieldContext s.cfg.w)
include ht

/-- A stored Montgomery form, converted back in place, is the number modulo `N`. -/
theorem execAll_storesForm_fromfield {i : Instr} (hm : s.mem.wf = true) (hacc : s.accepts c) (hz : s.inside z (s.ctxLen c))
    (h : s.storesForm i c z A) :
    ∃ t, execAll [i, .fromfield c z z] s = some t ∧ t.operand c z = A % s.modulusValue c := by
  obtain ⟨v, hv, hfst⟩ := h
  have helem := hv.isElement ht
  have hm' := State.mem_wf_stored c z v hm
  have hsnd := exec_fromfield (s := s.stored c z v) ⟨hacc, hz, hz, .inr (.inr ⟨rfl, rfl⟩)⟩ ht
    (State.stored_memRead hm helem) helem
  have hread := State.stored_memRead (s := s.stored c z v) (rd := z) hm' (Slot.fromField_value ht helem).1
  refine ⟨_, by rw [execAll_cons hfst, execAll_cons hsnd, execAll], ?_⟩
  exact (congrArg (val s.cfg.w) hread).trans (val_fromField ht hv)

/-- Two sources converted into disjoint buffers: each buffer holds the Montgomery form of its source. -/
theorem execAll_tofield_both {x y : Nat} (hm : s.mem.wf = true) (hpx : s.takesU c p x) (hqy : s.takesU c q y)
    (hpdy : disjoint p (s.ctxLen c) y (s.ctxLen c)) (hqdp : disjoint q (s.ctxLen c) p (s.ctxLen c))
    (hx : s.operand c x < s.modulusValue c) (hy : s.operand c y < s.modulusValue c) :
    ∃ v u, (∀ is, execAll (.tofield c p x :: .tofield c q y :: is) s = execAll is ((s.stored c p v).stored c q u)) ∧
      ((s.stored c p v).stored c q u).holdsForm c p (s.operand c x) ∧
      ((s.stored c p v).stored c q u).holdsForm c q (s.operand c y) := by
  obtain ⟨v, hv, hfst⟩ := storesForm_tofield ht hpx hx
  have hy' : (s.stored c p v).operand c y = s.operand c y :=
    congrArg (val s.cfg.w) (State.stored_memRead_of_disjoint v hpdy)
  obtain ⟨u, hu, hsnd⟩ := storesForm_tofield (s := s.stored c p v) ht hqy (hy'.trans_lt hy)
  rw [hy'] at hu
  refine ⟨v, u, fun is => by rw [execAll_cons hfst, execAll_cons hsnd], ?_, ?_⟩
  · exact (State.holdsForm_stored hm ht hv).stored_of_disjoint u hqdp
  · exact State.holdsForm_stored (State.mem_wf_stored c p v hm) ht hu

/-- The operand times the stored 1 is the operand, limb for limb. -/
theorem execAll_one_mul {x : Nat} (hm : s.mem.wf = true) (hq : s.inside q (s.ctxLen c)) (hzxq : s.takesB c z x q)
    (hqdx : disjoint q (s.ctxLen c) x (s.ctxLen c)) (hx : s.operand c x < s.modulusValue c) :
    ∃ t, execAll [.one c q, .mul c z x q] s = some t ∧ t.memRead z (s.ctxLen c) = s.memRead x (s.ctxLen c) := by
  have ha := isElement_memRead hx
  have hone := (represents_montOne ht).isElement ht
  have hmul := exec_mul (s := s.stored c q _) hzxq ht (State.stored_memRead_of_disjoint _ hqdx)
    (State.stored_memRead hm hone) ha hone
  rw [State.stored_slot, State.stored_cfg, State.stored_ctxLen, montMul_montOne ht ha] at hmul
  exact execAll_stored_pair hm (exec_one hzxq.1.1 hq ht) hmul ha

end

/-- `(a - b) mod N` of the integers, as a remainder of naturals. -/
theorem natCast_add_sub_mod {a b N : Nat} (h : b ≤ N) : (((a + (N - b)) % N : Nat) : Int) = ((a : Int) - b) % N := by
  rw [Int.natCast_mod, Int.natCast_add, Int.natCast_sub h, ← add_sub_assoc, add_sub_right_comm, Int.add_emod_right]

/-- Settles O48: the operands are converted into `[p]` and `[q]`, each command stores the Montgomery form of its rule's number, and
`FROMFIELD` recovers that number modulo `N`; the other laws are those of the procedures, limb for limb. -/
theorem fieldCommandsAreHomomorphic : Obligations.FieldCommandsAreHomomorphic := by
  intro s c x y p q z hi hacc ho hin hsrc hpq hpz hqz hx hy
  have ht := fieldContext_of_inv hi hacc ho
  obtain ⟨-, hm, -⟩ := hi
  simp only [List.forall_mem_cons, List.not_mem_nil, false_imp_iff, implies_true, and_true] at hin hsrc
  obtain ⟨hxin, hyin, hpin, hqin, hzin⟩ := hin
  obtain ⟨⟨hxp, hxq, hxz⟩, hyp, hyq, hyz⟩ := hsrc
  have hpx : s.takesU c p x := ⟨hacc, hpin, hxin, apart_of_disjoint hxp⟩
  have hqy : s.takesU c q y := ⟨hacc, hqin, hyin, apart_of_disjoint hyq⟩
  have hzp : s.takesU c z p := ⟨hacc, hzin, hpin, apart_of_disjoint hpz⟩
  have hzx : s.takesU c z x := ⟨hacc, hzin, hxin, apart_of_disjoint hxz⟩
  have hzy : s.takesU c z y := ⟨hacc, hzin, hyin, apart_of_disjoint hyz⟩
  have hzpq : s.takesB c z p q := ⟨hzp, hqin, apart_of_disjoint hqz⟩
  have ha := isElement_memRead hx
  have hb := isElement_memRead hy
  obtain ⟨v, u, hrun, hp, hq⟩ := execAll_tofield_both ht hm hpx hqy hyp.symm hpq.symm hx hy
  have hback {i : Instr} {C : Nat} (h : ((s.stored c p v).stored c q u).storesForm i c z C) :=
    execAll_storesForm_fromfield (s := (s.stored c p v).stored c q u) ht
      (State.mem_wf_stored _ _ _ (State.mem_wf_stored _ _ _ hm)) hacc hzin h
  simp only [hrun]
  refine ⟨?add, ?sub, ?mul, ?sqr, ?sqrIsMul, ?mulOne, ?mulComm, ?addComm⟩
  case add => exact hback (storesForm_add ht hzpq hp hq)
  case sub =>
    have hC : s.operand c x + (s.modulusValue c - s.operand c y) + s.operand c y ≡ s.operand c x [MOD s.modulusValue c] := by
      rw [Nat.add_assoc, Nat.sub_add_cancel hy.le]; exact Nat.add_modEq_right
    obtain ⟨t, hexec, hval⟩ := hback (storesForm_sub (s := (s.stored c p v).stored c q u) ht hzpq hp hq hC)
    exact ⟨t, hexec, (congrArg Nat.cast hval).trans (natCast_add_sub_mod hy.le)⟩
  case mul => exact hback (storesForm_mul ht hzpq hp hq)
  case sqr =>
    obtain ⟨aM, haM, hfst⟩ := storesForm_tofield ht hpx hx
    rw [execAll_cons hfst, Nat.pow_two]
    exact execAll_storesForm_fromfield (s := s.stored c p aM) ht (State.mem_wf_stored _ _ _ hm) hacc hzin
      (storesForm_sqr ht hzp (State.holdsForm_stored hm ht haM))
  case sqrIsMul => exact ⟨_, exec_sqr hzx ht rfl ha, exec_mul ⟨hzx, hxin, hzx.2.2.2⟩ ht rfl rfl ha ha⟩
  case mulOne => exact execAll_one_mul ht hm hqin ⟨hzx, hqin, apart_of_disjoint hqz⟩ hxq.symm hx
  case mulComm =>
    refine ⟨_, exec_mul ⟨hzx, hyin, apart_of_disjoint hyz⟩ ht rfl rfl ha hb, ?_⟩
    rw [montMul_comm ht ha hb]
    exact exec_mul ⟨hzy, hxin, apart_of_disjoint hxz⟩ ht rfl rfl hb ha
  case addComm =>
    refine ⟨_, exec_add ⟨hzx, hyin, apart_of_disjoint hyz⟩ ht rfl rfl ha hb, ?_⟩
    rw [addModN_comm ht ha hb]
    exact exec_add ⟨hzy, hxin, apart_of_disjoint hxz⟩ ht rfl rfl hb ha

end Sys2Proof.Machine

/-! SUPPORT. The exponentiation commands (R190 to R201): the two computations of `EXPCT` and `EXPVT` raise Montgomery forms to the
power on either path, so that each command stores the form of the base's power. Settles `ExponentiationLaws`. -/

namespace Sys2Proof.Machine

/-! ## The exponent's limbs and the table (R67, R194, R196) -/

theorem Config.four_le_w (c : Config) : 4 ≤ c.w := by unfold Config.w; cases c.width <;> decide

/-- The `bLen` limbs hold all `BBITS` bits (R67). -/
theorem bbits_le_mul_bLen {w : Nat} (hw : 0 < w) (bbits : Nat) : bbits ≤ w * bLen w bbits := by
  have hdm := Nat.div_add_mod (bbits + w - 1) w
  have hlt := Nat.mod_lt (bbits + w - 1) hw
  calc bbits ≤ w * ((bbits + w - 1) / w) := by omega
    _ ≤ w * bLen w bbits := Nat.mul_le_mul_left w (Nat.le_max_right ..)

theorem State.bbits_le_exponent_limbs (s : State) (rb bbits : Nat) :
    bbits ≤ s.cfg.w * (s.memRead rb (bLen s.cfg.w bbits)).length := by
  rw [State.length_memRead]; exact bbits_le_mul_bLen (Config.w_pos _) bbits

/-- The entries of the table are Montgomery forms. -/
theorem exists_represents_of_mem_powerTable {w mu A : Nat} {n oneM a : List Nat} (h : multiplies w n mu)
    (h1 : represents w n 1 oneM) (ha : represents w n A a) {x : List Nat} (hx : x ∈ powerTable w n mu oneM a) :
    ∃ B, represents w n B x := by
  obtain ⟨v, hv, rfl⟩ := List.mem_iff_getElem.1 hx
  have hentry := powerTable_represents h h1 ha v (length_powerTable w n mu oneM a ▸ hv)
  rw [List.getD_eq_getElem _ _ hv] at hentry
  exact ⟨_, hentry⟩

/-- The constant-time selection from the table is the direct one (R196, R197). -/
theorem selectCt_powerTable {w mu A v : Nat} {n oneM a : List Nat} (h : multiplies w n mu) (h1 : represents w n 1 oneM)
    (ha : represents w n A a) (hv : v < 16) :
    selectCt w (powerTable w n mu oneM a) v = (powerTable w n mu oneM a).getD v [] := by
  refine selectCt_value (k := n.length) (length_powerTable w n mu oneM a ▸ hv) fun x hx => ?_
  obtain ⟨B, hfit, hlen, -⟩ := exists_represents_of_mem_powerTable h h1 ha hx
  exact ⟨hlen, hfit⟩

/-! ## The two computations raise to the power (R198 to R200) -/

section
variable {w A bbits : Nat} {t : Slot} {a b : List Nat} (hw : 4 ≤ w) (ht : t.FieldContext w) (ha : represents w t.modulus A a)
  (hb : limbsFit w b = true) (hbits : bbits ≤ w * b.length) (hE : val w b < 2 ^ bbits)
include hw ht ha hb hbits hE

/-- The windowed path, shared by the two commands up to the selection (R195). -/
theorem expWindow_montOne_represents {select : Nat → List (List Nat) → Nat → List Nat}
    (hselect : ∀ v, v < 16 → select w (powerTable w t.modulus t.mu (t.montOne w) a) v =
      (powerTable w t.modulus t.mu (t.montOne w) a).getD v []) :
    represents w t.modulus (A ^ val w b) (expWindow w t.modulus t.mu select (t.montOne w) a b bbits) :=
  expWindow_represents (multiplies_of_fieldContext ht) (represents_montOne ht) ha hE
    (fun _ _ _ hl hp => getWindow_value hb (by omega) (hl.trans hw) (hp.trans hbits)) hselect

theorem expCt_represents :
    represents w t.modulus (A ^ val w b) (expCt w t.modulus t.mu (t.montOne w) a b bbits) := by
  have hmul := multiplies_of_fieldContext ht
  have hone := represents_montOne ht
  unfold expCt
  split
  · exact expLadder_represents hmul hone ha hE fun j _ => getBit_value hb (by omega) j
  · exact expWindow_montOne_represents hw ht ha hb hbits hE fun v hv => selectCt_powerTable hmul hone ha hv

theorem expVt_represents :
    represents w t.modulus (A ^ val w b) (expVt w t.modulus t.mu (t.montOne w) a b bbits) := by
  unfold expVt
  split
  · exact expBitSerial_represents (multiplies_of_fieldContext ht) (represents_montOne ht) ha hE
      fun j _ => getBit_value hb (by omega) j
  · exact expWindow_montOne_represents hw ht ha hb hbits hE fun v _ => rfl

end

/-! ## What the commands store (R174, R198, R199) -/

/-- Two commands that store the same form leave the same state: a form determines its limbs. -/
theorem State.storesForm.exec_eq {s : State} {i j : Instr} {c rd A : Nat} (hi : s.storesForm i c rd A)
    (hj : s.storesForm j c rd A) : exec i s = exec j s := by
  obtain ⟨v, hv, hiv⟩ := hi
  obtain ⟨u, hu, hju⟩ := hj
  rw [hiv, hju, hv.unique hu]

section
variable {s : State} {c rd A : Nat} (ht : (s.slot c).FieldContext s.cfg.w)
include ht

theorem storesForm_one (hacc : s.accepts c) (hin : s.inside rd (s.ctxLen c)) : s.storesForm (.one c rd) c rd 1 :=
  ⟨_, represents_montOne ht, exec_one hacc hin ht⟩

/-- A command that stores the form that a buffer holds makes the destination a copy of that buffer. -/
theorem State.storesForm.copies {i : Instr} {a : Nat} (hm : s.mem.wf = true) (h : s.storesForm i c rd A)
    (ha : s.holdsForm c a A) : ∃ t, exec i s = .next t ∧ t.memRead rd (s.ctxLen c) = s.memRead a (s.ctxLen c) := by
  obtain ⟨v, hv, hexec⟩ := h
  exact ⟨_, hexec, (State.stored_memRead hm (hv.isElement ht)).trans (hv.unique ha)⟩

variable {ra rb bbits : Nat} (hadm : s.takesE c rd ra rb bbits) (ha : s.holdsForm c ra A)
  (hE : s.exponent rb bbits < 2 ^ bbits)
include ha hE

/-- The value preconditions of R190. -/
theorem exponentOk_of_holdsForm : (s.slot c).exponentOk s.cfg.w (s.memRead ra (s.ctxLen c))
    (s.memRead rb (bLen s.cfg.w bbits)) bbits = true := by
  have hfits : exponentFits s.cfg.w bbits (s.memRead rb (bLen s.cfg.w bbits)) = true := decide_eq_true hE
  rw [Slot.exponentOk, ht.conforming, (ha.isElement ht).below, hfits]; rfl

include hadm

theorem storesForm_expct : s.storesForm (.expct c rd ra rb bbits) c rd (A ^ s.exponent rb bbits) :=
  ⟨_, expCt_represents (Config.four_le_w _) ht ha (s.limbsFit_memRead ..) (s.bbits_le_exponent_limbs ..) hE,
    exec_of_conforming_result ((footprintE_admitted_iff ..).2 hadm) rfl (exponentOk_of_holdsForm ht ha hE)⟩

theorem storesForm_expvt : s.storesForm (.expvt c rd ra rb bbits) c rd (A ^ s.exponent rb bbits) :=
  ⟨_, expVt_represents (Config.four_le_w _) ht ha (s.limbsFit_memRead ..) (s.bbits_le_exponent_limbs ..) hE,
    exec_of_conforming_result ((footprintE_admitted_iff ..).2 hadm) rfl (exponentOk_of_holdsForm ht ha hE)⟩

end

/-- A base converted into a buffer disjoint from the exponent, raised and converted back is its power modulo `N` (R201). -/
theorem execAll_tofield_expct_fromfield {s : State} {c x p z e bbits : Nat} (ht : (s.slot c).FieldContext s.cfg.w)
    (hm : s.mem.wf = true) (hadm : s.takesE c z p e bbits) (hpx : s.takesU c p x)
    (hd : disjoint p (s.ctxLen c) e (bLen s.cfg.w bbits)) (hx : s.operand c x < s.modulusValue c)
    (hE : s.exponent e bbits < 2 ^ bbits) :
    ∃ t, execAll [.tofield c p x, .expct c z p e bbits, .fromfield c z z] s = some t ∧
      t.operand c z = s.operand c x ^ s.exponent e bbits % s.modulusValue c := by
  obtain ⟨v, hv, hfst⟩ := storesForm_tofield ht hpx hx
  have hexp : (s.stored c p v).exponent e bbits = s.exponent e bbits :=
    congrArg (val s.cfg.w) (State.stored_memRead_of_disjoint v hd)
  have hsnd := storesForm_expct (s := s.stored c p v) ht hadm (State.holdsForm_stored hm ht hv) (hexp.trans_lt hE)
  have ⟨⟨hacc, hz, _⟩, _⟩ := hadm
  rw [hexp] at hsnd
  rw [execAll_cons hfst]
  exact execAll_storesForm_fromfield (s := s.stored c p v) ht (State.mem_wf_stored c p v hm) hacc hz hsnd

/-- Settles O49: with the base the form of `A`, both commands store the form of `A^e` whatever the path, and a form determines the
state; `A^0` is the 1 of `ONE`, and `A^1` is the base. -/
theorem exponentiationLaws : Obligations.ExponentiationLaws := by
  intro s c z p e bbits bbits' hi hadm ho hp hE
  have ⟨⟨hacc, hz, _⟩, _⟩ := hadm
  have ht := fieldContext_of_inv hi hacc ho
  obtain ⟨-, hm, -⟩ := hi
  obtain ⟨A, hA⟩ : ∃ A, s.holdsForm c p A := (isElement_memRead hp).exists_represents ht
  have hct := storesForm_expct ht hadm hA hE
  refine ⟨?agree, ?back, ?zero, ?one, ?bounds⟩
  case agree =>
    have hsame := (storesForm_expvt ht hadm hA hE).exec_eq hct
    obtain ⟨v, -, hexec⟩ := hct
    exact ⟨_, hexec, hsame.trans hexec⟩
  case back => exact fun x hpx hd hx => execAll_tofield_expct_fromfield ht hm hadm hpx hd hx hE
  case zero =>
    intro h0
    rw [h0, Nat.pow_zero] at hct
    exact hct.exec_eq (storesForm_one ht hacc hz)
  case one =>
    intro h1
    rw [h1, Nat.pow_one] at hct
    exact hct.copies ht hm hA
  case bounds =>
    intro hadm' hsame hE'
    have hct' := storesForm_expct ht hadm' hA (hsame.trans_lt hE')
    rw [hsame] at hct'
    exact hct.exec_eq hct'

end Sys2Proof.Machine

/-! SUPPORT. The command faults (R231 to R243): when each form of command raises each of the faults of its admission checks, that a
raised fault is trap entry and nothing else, and that a faulted engine keeps its record until a reset. Settles
`SlotNumberOutOfRangeTraps`, `InvalidSlotTraps`, `InitOfAValidSlotTraps`, `LengthOutOfRangeTraps`, `BufferOutsideMemoryTraps`,
`PartialOverlapTraps` and `FaultRecordLastsUntilReset`. -/

namespace Sys2Proof.Machine

/-! ## The first failing check (R239) -/

@[simp] theorem firstFault_nil_ne_some (g : FaultCode) : firstFault [] ≠ some g := nofun

/-- The fault raised is that of the first check, which fails, or the first check passes and a later one raises it. -/
@[simp] theorem firstFault_cons_eq_some_iff {failed : Bool} {f g : FaultCode} {rest : List (Bool × FaultCode)} :
    firstFault ((failed, f) :: rest) = some g ↔ (failed = true ∧ f = g) ∨ (failed = false ∧ firstFault rest = some g) := by
  cases failed <;> simp [firstFault]

@[simp] theorem State.ctxRange_true_iff (s : State) (c : Nat) : s.ctxRange c = true ↔ s.cfg.nctx ≤ c := decide_eq_true_iff

@[simp] theorem State.ctxRange_false_iff (s : State) (c : Nat) : s.ctxRange c = false ↔ c < s.cfg.nctx := by
  simp [State.ctxRange]

@[simp] theorem State.lenRange_true_iff (s : State) (len : Nat) : s.lenRange len = true ↔ len = 0 ∨ s.cfg.lenMax < len :=
  decide_eq_true_iff

@[simp] theorem State.lenRange_false_iff (s : State) (len : Nat) :
    s.lenRange len = false ↔ 1 ≤ len ∧ len ≤ s.cfg.lenMax := by
  simp only [State.lenRange, decide_eq_false_iff_not]; omega

/-! ## A raised fault is trap entry (R240) -/

theorem FaultCode.code_inj {f g : FaultCode} (h : f.code = g.code) : f = g := by
  revert h; cases f <;> cases g <;> decide

/-- From `FAULT = 0`, the state of trap entry is reached by raising that fault and in no other way: a completed command leaves
`FAULT` as it was. -/
theorem exec_eq_trapped_iff {i : Instr} {s : State} (hf : s.fault = false) (f : FaultCode) :
    exec i s = .next (s.trapped f.code) ↔ admission i s = some f := by
  refine ⟨fun h => ?_, exec_of_fault⟩
  rcases exec_cases h with ⟨g, hg, ht⟩ | ⟨-, ht⟩
  · rw [hg, FaultCode.code_inj (congrArg State.faultCode ht)]
  · have hfault : true = s.fault := (congrArg State.fault ht).trans (controlKept_effectOf i s).fault
    rw [hf] at hfault; cases hfault

/-! ## The slot checks (R233, R234, R235) -/

section
variable {i : Instr} {s : State} {c : Nat}

/-- `CTX_RANGE` is raised exactly by a command that names a slot which does not exist. -/
theorem admission_eq_ctxRange_iff : admission i s = some .ctxRange ↔ ∃ c, slotNamed i = some c ∧ s.cfg.nctx ≤ c := by
  cases i with
  | chkmod ra len => simp [admission, admitChkmod, slotNamed]
  | init c ra len => simp [admission, admitInit, slotNamed]
  | free c => simp [admission, admitSlot, slotNamed]
  | getlen c => simp [admission, admitSlot, slotNamed]
  | _ => simp [admission, admitField, slotNamed]

/-- Every command but `CHKMOD`, which names no slot, and `INIT`, which wants an invalid one, raises `CTX_INVALID` on an invalid
slot. -/
theorem admission_of_invalid_slot (h : slotNamed i = some c) (hinit : ∀ ra len, i ≠ .init c ra len) (hc : c < s.cfg.nctx)
    (hv : (s.slot c).valid = false) : admission i s = some .ctxInvalid := by
  cases i with
  | chkmod ra len => cases h
  | init c ra len => cases h; exact absurd rfl (hinit ra len)
  | free c => cases h; simp [admission, admitSlot, hc, hv]
  | getlen c => cases h; simp [admission, admitSlot, hc, hv]
  | _ => cases h; simp [admission, admitField, hc, hv]

theorem init_eq_ctxInuse_iff {ra len : Nat} :
    admission (.init c ra len) s = some .ctxInuse ↔ c < s.cfg.nctx ∧ (s.slot c).valid = true := by
  simp [admission, admitInit]

/-- A slot number of a well-formed command is below 16 (R81). -/
theorem slotNamed_lt (hw : i.wellFormed = true) (h : slotNamed i = some c) : c < 16 := by
  have hfit := (Laws.EncodedFields.operands_fit hw).1
  cases i with
  | chkmod ra len => cases h
  | _ => cases h; exact hfit

end

/-- Settles O19: `CTX_RANGE` is raised exactly for a slot that does not exist, and the four bits of `CTX` name none of those when
there are 16 slots. -/
theorem slotNumberOutOfRangeTraps : Obligations.SlotNumberOutOfRangeTraps := by
  refine ⟨fun i s c hn hc => exec_of_fault (admission_eq_ctxRange_iff.2 ⟨c, hn, hc⟩), fun i s hw h16 hf h => ?_⟩
  obtain ⟨c, hn, hc⟩ := admission_eq_ctxRange_iff.1 ((exec_eq_trapped_iff hf .ctxRange).1 h)
  have hlt := slotNamed_lt hw hn
  omega

/-- Settles O20: the check for an invalid slot is the first that fails. -/
theorem invalidSlotTraps : Obligations.InvalidSlotTraps :=
  fun _ _ _ hn hinit hc hv => exec_of_fault (admission_of_invalid_slot hn hinit hc hv)

/-- Settles O21: the check for a valid slot is the first that fails. -/
theorem initOfAValidSlotTraps : Obligations.InitOfAValidSlotTraps :=
  fun _ _ _ _ hc hv => exec_of_fault (init_eq_ctxInuse_iff.2 ⟨hc, hv⟩)

/-! ## The length check (R236) -/

section
variable {s : State} {c ra len : Nat}

theorem chkmod_eq_lenRange_iff : admission (.chkmod ra len) s = some .lenRange ↔ len = 0 ∨ s.cfg.lenMax < len := by
  simp [admission, admitChkmod]

theorem init_eq_lenRange_iff : admission (.init c ra len) s = some .lenRange ↔
    c < s.cfg.nctx ∧ (s.slot c).valid = false ∧ (len = 0 ∨ s.cfg.lenMax < len) := by
  simp [admission, admitInit]

end

/-- Settles O22: `CHKMOD` checks the length first, `INIT` after its slot. -/
theorem lengthOutOfRangeTraps : Obligations.LengthOutOfRangeTraps :=
  fun _ _ _ _ hlen => ⟨exec_of_fault (chkmod_eq_lenRange_iff.2 hlen),
    fun hc hv => exec_of_fault (init_eq_lenRange_iff.2 ⟨hc, hv, hlen⟩)⟩

/-! ## The address check (R237) -/

section
variable {i : Instr} {s : State} {c rd ra rb bbits len : Nat} {p : Footprint}

theorem Footprint.outside_iff (cfg : Config) (p : Footprint) :
    p.outside cfg = true ↔ ∃ b ∈ p.buffers, ¬b.base + b.len ≤ cfg.memLimbs := by
  simp [Footprint.outside, Buffer.outside]

theorem footprintLoad_outside_iff : (footprintLoad ra len).outside s.cfg = true ↔ ¬s.inside ra len := by
  simp [Footprint.outside_iff, footprintLoad, Footprint.buffers]

theorem footprintD_outside_iff : (s.footprintD c rd).outside s.cfg = true ↔ ¬s.inside rd (s.ctxLen c) := by
  simp [Footprint.outside_iff, State.footprintD, Footprint.buffers]

theorem footprintU_outside_iff :
    (s.footprintU c rd ra).outside s.cfg = true ↔ ¬s.inside rd (s.ctxLen c) ∨ ¬s.inside ra (s.ctxLen c) := by
  simp [Footprint.outside_iff, State.footprintU, Footprint.buffers]

theorem footprintB_outside_iff : (s.footprintB c rd ra rb).outside s.cfg = true ↔
    ¬s.inside rd (s.ctxLen c) ∨ ¬s.inside ra (s.ctxLen c) ∨ ¬s.inside rb (s.ctxLen c) := by
  simp [Footprint.outside_iff, State.footprintB, Footprint.buffers]

theorem footprintE_outside_iff : (s.footprintE c rd ra rb bbits).outside s.cfg = true ↔
    ¬s.inside rd (s.ctxLen c) ∨ ¬s.inside ra (s.ctxLen c) ∨ ¬s.inside rb (bLen s.cfg.w bbits) := by
  simp [Footprint.outside_iff, State.footprintE, Footprint.buffers]

theorem chkmod_eq_addrRange_iff :
    admission (.chkmod ra len) s = some .addrRange ↔ (1 ≤ len ∧ len ≤ s.cfg.lenMax) ∧ ¬s.inside ra len := by
  simp [admission, admitChkmod, footprintLoad_outside_iff]

theorem init_eq_addrRange_iff : admission (.init c ra len) s = some .addrRange ↔
    c < s.cfg.nctx ∧ (s.slot c).valid = false ∧ (1 ≤ len ∧ len ≤ s.cfg.lenMax) ∧ ¬s.inside ra len := by
  simp [admission, admitInit, footprintLoad_outside_iff]

theorem admitField_eq_addrRange_iff : admitField s c p = some .addrRange ↔ s.accepts c ∧ p.outside s.cfg = true := by
  simp [admitField, and_assoc]

/-- A field command whose slot is accepted traps with `ADDR_RANGE` when a buffer of its footprint is outside. -/
theorem exec_of_outside (hadm : admission i s = admitField s c p) (hacc : s.accepts c) (hout : p.outside s.cfg = true) :
    exec i s = .next (s.trapped 0x06) :=
  exec_of_fault (hadm.trans (admitField_eq_addrRange_iff.2 ⟨hacc, hout⟩))

/-! The field commands of one format (R83) have the same admission checks. -/

theorem admission_formatU : ∀ i ∈ [Instr.tofield c rd ra, .fromfield c rd ra, .sqr c rd ra, .inv c rd ra],
    admission i s = admitField s c (s.footprintU c rd ra) := by simp [admission]

theorem admission_formatB : ∀ i ∈ [Instr.add c rd ra rb, .sub c rd ra rb, .mul c rd ra rb],
    admission i s = admitField s c (s.footprintB c rd ra rb) := by simp [admission]

theorem admission_formatE : ∀ i ∈ [Instr.expct c rd ra rb bbits, .expvt c rd ra rb bbits],
    admission i s = admitField s c (s.footprintE c rd ra rb bbits) := by simp [admission]

end

/-- Settles O23: with the slot and length checks passed, the address check fails as soon as one buffer of the format's footprint
is outside. -/
theorem bufferOutsideMemoryTraps : Obligations.BufferOutsideMemoryTraps := by
  intro s c rd ra rb len bbits
  refine ⟨fun hpos hmax hout => ⟨?chkmod, fun hc hv => ?init⟩,
    fun hacc => ⟨fun hout => ?one, fun i hi hout => ?formatU, fun i hi hout => ?formatB, fun i hi hout => ?formatE⟩⟩
  case chkmod => exact exec_of_fault (chkmod_eq_addrRange_iff.2 ⟨⟨hpos, hmax⟩, hout⟩)
  case init => exact exec_of_fault (init_eq_addrRange_iff.2 ⟨hc, hv, ⟨hpos, hmax⟩, hout⟩)
  case one => exact exec_of_outside rfl hacc (footprintD_outside_iff.2 hout)
  case formatU => exact exec_of_outside (admission_formatU i hi) hacc (footprintU_outside_iff.2 hout)
  case formatB => exact exec_of_outside (admission_formatB i hi) hacc (footprintB_outside_iff.2 hout)
  case formatE => exact exec_of_outside (admission_formatE i hi) hacc (footprintE_outside_iff.2 hout)

/-! ## The overlap check (R238) -/

section
variable {i : Instr} {s : State} {c rd ra rb bbits : Nat} {p : Footprint}

theorem footprintU_overlaps_iff :
    (s.footprintU c rd ra).overlaps = true ↔ ¬apart rd (s.ctxLen c) ra (s.ctxLen c) := by
  simp only [Footprint.overlaps, State.footprintU, List.any_cons, List.any_nil, Bool.or_false, Buffer.conflicts_iff]

theorem footprintB_overlaps_iff : (s.footprintB c rd ra rb).overlaps = true ↔
    ¬apart rd (s.ctxLen c) ra (s.ctxLen c) ∨ ¬apart rd (s.ctxLen c) rb (s.ctxLen c) := by
  simp only [Footprint.overlaps, State.footprintB, List.any_cons, List.any_nil, Bool.or_false, Bool.or_eq_true,
    Buffer.conflicts_iff]

theorem footprintE_overlaps_iff : (s.footprintE c rd ra rb bbits).overlaps = true ↔
    ¬apart rd (s.ctxLen c) ra (s.ctxLen c) ∨ ¬apart rd (s.ctxLen c) rb (bLen s.cfg.w bbits) := by
  simp only [Footprint.overlaps, State.footprintE, List.any_cons, List.any_nil, Bool.or_false, Bool.or_eq_true,
    Buffer.conflicts_iff]

theorem admitField_eq_operandOverlap_iff :
    admitField s c p = some .operandOverlap ↔ s.accepts c ∧ p.outside s.cfg = false ∧ p.overlaps = true := by
  simp [admitField, and_assoc]

/-- A field command whose slot is accepted and whose buffers are inside traps with `OPERAND_OVERLAP` when they overlap. -/
theorem exec_of_overlap (hadm : admission i s = admitField s c p) (hacc : s.accepts c) (hin : ¬p.outside s.cfg = true)
    (hover : p.overlaps = true) : exec i s = .next (s.trapped 0x07) :=
  exec_of_fault (hadm.trans (admitField_eq_operandOverlap_iff.2 ⟨hacc, Bool.eq_false_of_not_eq_true hin, hover⟩))

/-- Only a command whose footprint overlaps raises `OPERAND_OVERLAP`. -/
theorem footprint_overlaps_of_operandOverlap (h : admission i s = some .operandOverlap) : (footprint i s).overlaps = true := by
  cases i with
  | chkmod ra len => simp [admission, admitChkmod] at h
  | init c ra len => simp [admission, admitInit] at h
  | free c => simp [admission, admitSlot] at h
  | getlen c => simp [admission, admitSlot] at h
  | _ => exact (admitField_eq_operandOverlap_iff.1 h).2.2

/-- `OPERAND_OVERLAP` is not raised by a command without both a source and a destination in limb memory. -/
theorem footprint_overlaps_false_of_one_sided (ra len : Nat) :
    ∀ i ∈ [Instr.chkmod ra len, .init c ra len, .free c, .getlen c, .one c rd], (footprint i s).overlaps = false := by
  simp [footprint, footprintLoad, footprintNone, State.footprintD, Footprint.overlaps]

end

/-- Settles O24: with every buffer inside, the overlap check fails as soon as one source of the format is not apart from the
destination; a footprint with no source or no destination has no overlap. -/
theorem partialOverlapTraps : Obligations.PartialOverlapTraps := by
  refine ⟨fun s c rd ra rb bbits hacc hrd hra => ?_, fun s c rd ra len hf i hi h => ?_⟩
  · refine ⟨fun i hi hover => ?formatU, fun i hi hrb hover => ?formatB, fun i hi hrb hover => ?formatE⟩
    case formatU =>
      have hin : ¬(s.footprintU c rd ra).outside s.cfg = true := by
        simp [footprintU_outside_iff, hrd, hra]
      exact exec_of_overlap (admission_formatU i hi) hacc hin (footprintU_overlaps_iff.2 hover)
    case formatB =>
      have hin : ¬(s.footprintB c rd ra rb).outside s.cfg = true := by
        simp [footprintB_outside_iff, hrd, hra, hrb]
      exact exec_of_overlap (admission_formatB i hi) hacc hin (footprintB_overlaps_iff.2 hover)
    case formatE =>
      have hin : ¬(s.footprintE c rd ra rb bbits).outside s.cfg = true := by
        simp [footprintE_outside_iff, hrd, hra, hrb]
      exact exec_of_overlap (admission_formatE i hi) hacc hin (footprintE_overlaps_iff.2 hover)
  · have hover := footprint_overlaps_of_operandOverlap ((exec_eq_trapped_iff hf .operandOverlap).1 h)
    rw [footprint_overlaps_false_of_one_sided ra len i hi] at hover
    cases hover

/-! ## A faulted engine (R242, R243) -/

section
variable {s t : State} {m : Move}

/-- A reset, hard or soft (R260). -/
def Move.resets (m : Move) : Prop := m = .hardReset ∨ ∃ v : Word32, m = .write 0x10 .word v ∧ v.getLsbD 1 = true

theorem resetNext_iff : s.resetNext ↔ ∃ m, s.inputs.head? = some m ∧ m.resets := by
  simp only [State.resetNext, Move.resets]
  constructor
  · rintro (h | ⟨v, h, hv⟩)
    · exact ⟨_, h, .inl rfl⟩
    · exact ⟨_, h, .inr ⟨v, rfl, hv⟩⟩
  · rintro ⟨m, h, rfl | ⟨v, rfl, hv⟩⟩
    · exact .inl h
    · exact .inr ⟨v, h, hv⟩

/-- A reset has a next state in every state, the reset state (R27, R260, R261). -/
theorem performMove_of_resets (hm : m.resets) (s : State) : performMove m s = .next s.toReset := by
  rcases hm with rfl | ⟨v, rfl, hv⟩
  · rfl
  · have hctrl : s.writePort 0x10 v = s.toReset := by simp [State.writePort, isRegister, State.writeRegister, State.writeCtrl, hv]
    exact (portWrite_next_iff ..).2 ⟨rfl, rfl, mapped_of_register s (by decide), fun _ => ⟨rfl, hv⟩, hctrl.symm⟩

theorem step_of_resetNext (h : s.resetNext) : ∃ ms, step s = .next (s.withInputs ms).toReset := by
  obtain ⟨m, hhead, hm⟩ := resetNext_iff.1 h
  obtain ⟨ms, hin⟩ := List.head?_eq_some_iff.1 hhead
  exact ⟨ms, (step_of_head hin).trans (performMove_of_resets hm _)⟩

/-- `t` differs from `s` at most in limb memory, the `CMD` registers and the agents: what the host reaches through the port without
starting or resetting the engine (R59, R61). -/
abbrev engineKept (s t : State) : Prop :=
  t = { s with
    mem := t.mem, cmd0 := t.cmd0, cmd1 := t.cmd1, cmd2 := t.cmd2, cmd3 := t.cmd3, inputs := t.inputs, replies := t.replies }

/-- START is ignored while `FAULT = 1` (R27, R242). -/
theorem writeCtrl_of_fault {v : Word32} (hf : s.fault = true) (hv : v.getLsbD 1 = false) : s.writeCtrl v = s := by
  rcases writeCtrl_cases s v with ⟨hreset, -⟩ | ⟨-, -, hclear, -⟩ | ⟨-, -, h⟩
  · rw [hv] at hreset; cases hreset
  · rw [hf] at hclear; cases hclear
  · exact h

theorem engineKept_writePort {o : Nat} {v : Word32} (hf : s.fault = true) (hctrl : o = 0x10 → v.getLsbD 1 = false) :
    engineKept s (s.writePort o v) := by
  rcases writePort_cases s o v with ⟨-, h⟩ | ⟨-, h⟩ | ⟨-, h⟩ | ⟨-, h⟩ | ⟨ho, h⟩ | ⟨-, -, h⟩ | ⟨-, h⟩ | ⟨-, -, h⟩ <;> rw [h]
  · rw [writeCtrl_of_fault hf (hctrl ho)]
  · rfl

/-- With no command in flight the engine's turn changes nothing (log 13). -/
theorem engineTurn_of_idle (hb : s.busy = false) : engineTurn s = .next s := by simp [engineTurn, hb]

/-- A faulted engine is not busy (R28). -/
theorem idle_of_fault (hi : s.Inv) (hf : s.fault = true) : s.busy = false := by
  cases hb : s.busy with
  | false => rfl
  | true => exact absurd (flags_clear_of_busy hi hb).2 (by simp [hf])

/-- No move but a reset reaches a faulted engine. -/
theorem engineKept_performMove (hb : s.busy = false) (hf : s.fault = true) (hm : ¬m.resets) (h : performMove m s = .next t) :
    engineKept s t := by
  cases m with
  | read o wd =>
    obtain ⟨-, -, -, -, rfl⟩ := (portRead_next_iff ..).1 h
    rfl
  | write o wd v =>
    obtain ⟨rfl, -, -, -, rfl⟩ := (portWrite_next_iff ..).1 h
    refine engineKept_writePort hf fun ho => ?_
    obtain rfl : o = 0x10 := BitVec.eq_of_toNat_eq ho
    exact Bool.eq_false_of_not_eq_true fun hv => hm (.inr ⟨v, rfl, hv⟩)
  | hardReset => exact absurd (.inl rfl) hm
  | engine =>
    obtain rfl := Host.Outcome.next.inj ((engineTurn_of_idle hb).symm.trans h)
    rfl

theorem engineKept_step (hb : s.busy = false) (hf : s.fault = true) (hno : ¬s.resetNext) (h : step s = .next t) :
    engineKept s t := by
  rcases step_cases s with ⟨-, hs⟩ | ⟨m, ms, hin, hs⟩ <;> rw [hs] at h
  · exact engineKept_performMove (m := .engine) hb hf (by simp [Move.resets]) h
  · have hm : ¬m.resets := fun hm => hno (resetNext_iff.2 ⟨m, by rw [hin]; rfl, hm⟩)
    have hkept : engineKept (s.withInputs ms) t := engineKept_performMove hb hf hm h
    exact hkept

end

/-- Settles O26: a faulted engine has no command in flight and ignores START, so that only a reset reaches it, which clears the
record. -/
theorem faultRecordLastsUntilReset : Obligations.FaultRecordLastsUntilReset := by
  intro s t hi hf h
  refine ⟨fun hno => ?_, fun hreset => ?_⟩
  · have hb := idle_of_fault hi hf
    rw [engineKept_step hb hf hno h]
    exact ⟨hf, rfl, rfl, hb, rfl, rfl⟩
  · obtain ⟨ms, hs⟩ := step_of_resetNext hreset
    obtain rfl := Host.Outcome.next.inj (hs.symm.trans h)
    exact ⟨rfl, rfl, rfl⟩

end Sys2Proof.Machine

/-! SUPPORT. The lifecycle of the engine over `BUSY`, `DONE` and `FAULT` (R263): what each kind of move does to the three flags, and
when an access of a `CMD` register or of the limb window has a move (R62, R63). Settles `LifecycleOfTheEngine`. -/

namespace Sys2Proof.Machine

section
variable {s t : State} {m : Move} {ms : List Move} {o : BitVec 20} {v : Word32}

/-- The three flags of the lifecycle (R263). -/
abbrev State.lifecycle (s : State) : Bool × Bool × Bool := (s.busy, s.done, s.fault)

theorem statusLegal_of_inv (hi : s.Inv) : s.statusLegal = true := by
  obtain ⟨-, -, -, -, -, hs, -, -⟩ := hi
  exact hs

/-! ## START (R27) -/

/-- A write of `CTRL` without `RESET` that has a next state finds the engine idle and acts as R27 says. -/
theorem step_write_ctrl (hin : s.inputs = .write 0x10 .word v :: ms) (hr : v.getLsbD 1 = false) (h : step s = .next t) :
    s.busy = false ∧ t = (s.withInputs ms).writeCtrl v := by
  rw [step_write hin, portWrite_next_iff] at h
  obtain ⟨-, -, -, hallowed, ht⟩ := h
  refine ⟨Bool.eq_false_of_not_eq_true fun hb => ?_, ht⟩
  obtain ⟨-, hreset⟩ := hallowed hb
  rw [hr] at hreset; cases hreset

/-- `DONE` is clear while `FAULT` is set (R28). -/
theorem done_clear_of_fault (hi : s.Inv) (hf : s.fault = true) : s.done = false := by
  have hs := statusLegal_of_inv hi
  simp only [State.statusLegal, hf, Bool.and_true, Bool.and_eq_true, Bool.not_eq_true'] at hs
  exact hs.2

/-- START leads from IDLE0 and IDLE1 to RUN and leaves DEAD alone; in RUN it has no move. -/
theorem lifecycle_start (hi : s.Inv) (hin : s.inputs = .write 0x10 .word v :: ms) (hr : v.getLsbD 1 = false)
    (hstart : v.getLsbD 0 = true) (h : step s = .next t) :
    (s.busy = false ∧ s.fault = false ∧ t.lifecycle = (true, false, false)) ∨
      (s.lifecycle = (false, false, true) ∧ t.lifecycle = (false, false, true)) := by
  obtain ⟨hb, rfl⟩ := step_write_ctrl hin hr h
  cases hf : s.fault with
  | false =>
    rw [writeCtrl_start (s := s.withInputs ms) hf hr hstart]
    exact .inl ⟨hb, rfl, by simp [hf]⟩
  | true =>
    have hd := done_clear_of_fault hi hf
    have hdead : s.lifecycle = (false, false, true) := by simp [hb, hd, hf]
    rw [writeCtrl_of_fault (s := s.withInputs ms) hf hr]
    exact .inr ⟨hdead, hdead⟩

/-! ## The engine's move (R82, R240) -/

/-- The engine's move leads from RUN to IDLE1 or DEAD. -/
theorem lifecycle_completion (hi : s.Inv) (hc : s.completesNext) (h : step s = .next t) :
    t.lifecycle = (false, true, false) ∨ t.lifecycle = (false, false, true) := by
  obtain ⟨-, hidle, hflags⟩ := complete_flags (s := s.withInputs s.inputs.tail) hi hc.1 ((step_completes hc).symm.trans h)
  cases hf : t.fault with
  | false => exact .inl (by simp [hidle, hflags.1 hf, hf])
  | true =>
    have hd : t.done = false := by simpa [hf] using hflags
    exact .inr (by simp [hidle, hd, hf])

/-! ## Moves that keep the three flags -/

theorem writeCtrl_of_no_command (hr : v.getLsbD 1 = false) (hstart : v.getLsbD 0 = false) : s.writeCtrl v = s := by
  simp only [State.writeCtrl, hr, hstart, Bool.false_eq_true, if_false]

/-- A write keeps the flags unless it is a reset or a START. -/
theorem lifecycle_writePort {a : Nat} (hctrl : a = 0x10 → v.getLsbD 1 = false ∧ v.getLsbD 0 = false) :
    (s.writePort a v).lifecycle = s.lifecycle := by
  rcases writePort_cases s a v with ⟨-, h⟩ | ⟨-, h⟩ | ⟨-, h⟩ | ⟨-, h⟩ | ⟨ha, h⟩ | ⟨-, -, h⟩ | ⟨-, h⟩ | ⟨-, -, h⟩ <;> rw [h]
  · obtain ⟨hr, hstart⟩ := hctrl ha
    rw [writeCtrl_of_no_command hr hstart]
  · rfl

/-- A move that is no reset, no START and no completion keeps the flags. -/
theorem lifecycle_performMove (hengine : m = .engine → s.busy = false) (hreset : m ≠ .hardReset)
    (hctrl : ∀ v : Word32, m = .write 0x10 .word v → v.getLsbD 1 = false ∧ v.getLsbD 0 = false)
    (h : performMove m s = .next t) : t.lifecycle = s.lifecycle := by
  cases m with
  | read o wd =>
    obtain ⟨-, -, -, -, rfl⟩ := (portRead_next_iff ..).1 h
    rfl
  | write o wd v =>
    obtain ⟨rfl, -, -, -, rfl⟩ := (portWrite_next_iff ..).1 h
    refine lifecycle_writePort fun ho => hctrl v ?_
    obtain rfl : o = 0x10 := BitVec.eq_of_toNat_eq ho
    rfl
  | hardReset => exact absurd rfl hreset
  | engine =>
    obtain rfl := Host.Outcome.next.inj ((engineTurn_of_idle (hengine rfl)).symm.trans h)
    rfl

theorem lifecycle_step_other (hc : ¬s.completesNext) (hreset : s.inputs.head? ≠ some .hardReset)
    (hctrl : ∀ v : Word32, s.inputs.head? = some (.write 0x10 .word v) → v.getLsbD 1 = false ∧ v.getLsbD 0 = false)
    (h : step s = .next t) : t.lifecycle = s.lifecycle := by
  have hidle (hturn : s.inputs = [] ∨ ∃ ms, s.inputs = .engine :: ms) : s.busy = false :=
    Bool.eq_false_of_not_eq_true fun hb => hc ⟨hb, hturn⟩
  rcases step_cases s with ⟨hin, hs⟩ | ⟨m, ms, hin, hs⟩ <;> rw [hs] at h
  · obtain rfl := Host.Outcome.next.inj ((engineTurn_of_idle (hidle (.inl hin))).symm.trans h)
    rfl
  · rw [hin, List.head?_cons] at hreset hctrl
    refine (lifecycle_performMove (fun hm => ?_) (fun hm => hreset (congrArg some hm))
      (fun v hm => hctrl v (congrArg some hm)) h : t.lifecycle = (s.withInputs ms).lifecycle)
    exact hidle (.inr ⟨ms, hm ▸ hin⟩)

/-! ## When the `CMD` registers and the window are accessible (R62, R63) -/

/-- An offset of a `CMD` register or of the window exists, is none of those readable at any time and is not that of `CTRL`. -/
theorem mapped_not_alwaysReadable {a : Nat} (ha : a < 0x10 ∨ (0x80000 ≤ a ∧ a < 0x80000 + s.cfg.memLimbs * s.cfg.width.bytes)) :
    s.mapped a = true ∧ alwaysReadable a = false ∧ a ≠ 0x10 := by
  refine ⟨(mapped_iff ..).2 (ha.imp_left (by omega)), ?_, by omega⟩
  simp only [alwaysReadable, Bool.or_eq_false_iff, beq_eq_false_iff_ne]
  omega

/-- A read of an offset that is not readable at any time has a move exactly when the engine is not busy. -/
theorem step_read_next_iff_idle (hin : s.inputs = .read o .word :: ms) (ha : o.toNat % 4 = 0)
    (hm : s.mapped o.toNat = true) (hr : alwaysReadable o.toNat = false) : (∃ t, step s = .next t) ↔ s.busy = false := by
  have hm' : (s.withInputs ms).mapped o.toNat = true := hm
  simp [step_read hin, portRead_next_iff, ha, hm', hr]

/-- A write of an offset other than `CTRL` has a move exactly when the engine is not busy. -/
theorem step_write_next_iff_idle (hin : s.inputs = .write o .word v :: ms) (ha : o.toNat % 4 = 0)
    (hm : s.mapped o.toNat = true) (hctrl : o.toNat ≠ 0x10) : (∃ t, step s = .next t) ↔ s.busy = false := by
  have hm' : (s.withInputs ms).mapped o.toNat = true := hm
  simp [step_write hin, portWrite_next_iff, ha, hm', hctrl]

end

/-- Settles O27: one lemma for each kind of move, START, completion, reset and the rest, and the accesses of R62 by their
offsets. -/
theorem lifecycleOfTheEngine : Obligations.LifecycleOfTheEngine := by
  intro s hi
  refine ⟨flags_of_statusLegal (statusLegal_of_inv hi), fun t h => ⟨fun v hhead hr hstart => ?_,
    fun hc => lifecycle_completion hi hc h, fun hreset => ?_,
    fun hc hreset hctrl => lifecycle_step_other hc hreset hctrl h⟩, fun o v ms ha hplace hin => ?_⟩
  · obtain ⟨ms, hin⟩ := List.head?_eq_some_iff.1 hhead
    exact lifecycle_start hi hin hr hstart h
  · obtain ⟨ms, hs⟩ := step_of_resetNext hreset
    obtain rfl := Host.Outcome.next.inj (hs.symm.trans h)
    rfl
  · obtain ⟨hm, hr, hctrl⟩ := mapped_not_alwaysReadable hplace
    rcases hin with hin | hin
    · exact step_read_next_iff_idle hin ha hm hr
    · exact step_write_next_iff_idle hin ha hm hctrl

end Sys2Proof.Machine

/-! SUPPORT. The encoding (R81, R83, R89, R92): the fields of an encoded command are its opcode and operands, and the fields of a
legal word are those of the command it decodes to. Settles `DecodeInvertsEncode`, `EveryLegalWordIsTheEncodingOfItsCommand`,
`FieldsStandAtTheirBits` and `WordsOfTheSpecDecode`. -/

namespace Sys2Proof

/-- The encoding of every well-formed command carries its opcode and operands, and 0 in its must-be-zero fields. -/
theorem encodedFields (i : Instr) : Laws.EncodedFields.Statement i := by
  cases i with
  | chkmod ra len => exact Laws.EncodedFields.chkmod ra len
  | init c ra len => exact Laws.EncodedFields.init c ra len
  | free c => exact Laws.EncodedFields.free c
  | getlen c => exact Laws.EncodedFields.getlen c
  | tofield c rd ra => exact Laws.EncodedFields.tofield c rd ra
  | fromfield c rd ra => exact Laws.EncodedFields.fromfield c rd ra
  | one c rd => exact Laws.EncodedFields.one c rd
  | add c rd ra rb => exact Laws.EncodedFields.add c rd ra rb
  | sub c rd ra rb => exact Laws.EncodedFields.sub c rd ra rb
  | mul c rd ra rb => exact Laws.EncodedFields.mul c rd ra rb
  | sqr c rd ra => exact Laws.EncodedFields.sqr c rd ra
  | expct c rd ra rb bbits => exact Laws.EncodedFields.expct c rd ra rb bbits
  | expvt c rd ra rb bbits => exact Laws.EncodedFields.expvt c rd ra rb bbits
  | inv c rd ra => exact Laws.EncodedFields.inv c rd ra

/-- Settles O1: the encoding has the command's opcode, passes the check of the must-be-zero fields and has the command's operands
in the fields the decoder reads. -/
theorem decodeInvertsEncode : Obligations.DecodeInvertsEncode := by
  intro i hw
  obtain ⟨hop, hzero, hbuild⟩ := encodedFields i hw
  exact decode_ok_iff.2 ⟨i.opcode, hop, hzero, hbuild⟩

/-! ## Legal words (R86, R92) -/

/-- The contents of a field fit the field (R81). -/
theorem fits_get (c : Command) : fitsCtx (Field.ctx.get c) = true ∧ fitsLen (Field.len.get c) = true ∧
    fitsAddr (Field.rd.get c) = true ∧ fitsAddr (Field.ra.get c) = true ∧ fitsAddr (Field.rb.get c) = true ∧
    fitsBBits (Field.bbits.get c) = true :=
  ⟨decide_eq_true (Field.get_lt .ctx c), decide_eq_true (Field.get_lt .len c), decide_eq_true (Field.get_lt .rd c),
    decide_eq_true (Field.get_lt .ra c), decide_eq_true (Field.get_lt .rb c), decide_eq_true (Field.get_lt .bbits c)⟩

/-- The decoder's commands are well formed. -/
theorem wellFormed_build (o : Opcode) (c : Command) : (o.build c).wellFormed = true := by
  obtain ⟨hctx, hlen, hrd, hra, hrb, hbbits⟩ := fits_get c
  cases o <;> simp [Opcode.build, Instr.wellFormed, *]

/-- The command built from a legal word has the word's fields as its operands, the must-be-zero ones among them. -/
theorem operands_build {o : Opcode} {c : Command} (h : ∀ f ∈ o.format.mustBeZero, f.get c = 0) :
    (o.build c).operands = { ctx := Field.ctx.get c, len := Field.len.get c, rd := Field.rd.get c, ra := Field.ra.get c,
                             rb := Field.rb.get c, bbits := Field.bbits.get c } := by
  cases o <;> simp_all [Opcode.format, Format.mustBeZero, Opcode.build, Instr.operands]

/-- Every format requires the two unused fields to be zero (R81, R83). -/
theorem unused_fields_mustBeZero (o : Opcode) : Field.z1 ∈ o.format.mustBeZero ∧ Field.z2 ∈ o.format.mustBeZero := by
  cases o <;> decide

/-- Settles O2: the nine fields of the encoding are those of the word, and they determine it. -/
theorem everyLegalWordIsTheEncodingOfItsCommand : Obligations.EveryLegalWordIsTheEncodingOfItsCommand := by
  intro c i hd
  obtain ⟨o, hop, hzero, rfl⟩ := decode_ok_iff.1 hd
  have hw := wellFormed_build o c
  obtain ⟨hz1, hz2⟩ := unused_fields_mustBeZero o
  obtain ⟨eop, ez1, ectx, elen, erd, era, erb, ez2, ebbits⟩ := Laws.EncodedFields.fields_encode hw
  rw [operands_build hzero] at ectx elen erd era erb ebbits
  refine ⟨hw, Field.get_ext fun f => ?_⟩
  cases f with
  | opc => rw [eop, Opcode.opcode_build, hop]
  | z1 => rw [ez1, hzero _ hz1]
  | ctx => exact ectx
  | len => exact elen
  | rd => exact erd
  | ra => exact era
  | rb => exact erb
  | z2 => rw [ez2, hzero _ hz2]
  | bbits => exact ebbits

/-! ## The bits of the fields and of the words (R80, R81, R89) -/

/-- The four words of a command stand at its 32-bit quarters (R80). -/
theorem words_of_ofWords (cw0 cw1 cw2 cw3 : Word32) :
    (Command.ofWords cw0 cw1 cw2 cw3).extractLsb' 0 32 = cw0 ∧ (Command.ofWords cw0 cw1 cw2 cw3).extractLsb' 32 32 = cw1 ∧
    (Command.ofWords cw0 cw1 cw2 cw3).extractLsb' 64 32 = cw2 ∧ (Command.ofWords cw0 cw1 cw2 cw3).extractLsb' 96 32 = cw3 := by
  simp only [← BitVec.toNat_inj, BitVec.extractLsb'_toNat, Laws.EncodedFields.toNat_ofWords, Nat.shiftRight_eq_div_pow]
  omega

/-- Settles O4: the fields are `Field.get` of R81 by definition, and the words are the quarters of the command. -/
theorem fieldsStandAtTheirBits : Obligations.FieldsStandAtTheirBits := by
  intro i hw
  obtain ⟨hop, hz1, hctx, hlen, hrd, hra, hrb, hz2, hbbits⟩ := Laws.EncodedFields.fields_encode hw
  exact ⟨hop, BitVec.eq_of_toNat_eq hz1, hctx, hlen, hrd, hra, hrb, BitVec.eq_of_toNat_eq hz2, hbbits,
    words_of_ofWords i.cw0 i.cw1 i.cw2 i.cw3⟩

/-- Settles O6: the first six words are the encodings of well-formed commands, the last has a nonzero must-be-zero field. -/
theorem wordsOfTheSpecDecode : Obligations.WordsOfTheSpecDecode :=
  ⟨decodeInvertsEncode (.chkmod 0x10 4) rfl, decodeInvertsEncode (.init 1 0x10 4) rfl, decodeInvertsEncode (.one 2 0x14) rfl,
    decodeInvertsEncode (.fromfield 1 0x44 0x40) rfl, decodeInvertsEncode (.mul 15 0xffff 0xfffe 0xfffd) rfl,
    decodeInvertsEncode (.expct 1 0x48 0x20 0x30 255) rfl, rfl⟩

end Sys2Proof

/-! SUPPORT. The context slots and the four context commands (R26, R41, R140 to R146): an invalid slot is all zero, so the slot that
`INIT` leaves is known limb by limb. Settles `ChkmodTestsOddAndAboveOne`, `InitBuildsTheContext`, `InitOnABadModulusStillCompletes`,
`FreeZeroesTheSlot` and `GetlenReturnsTheLength`. -/

namespace Sys2Proof.Machine

/-- An admitted command completes with its effect. -/
theorem exec_of_effect {i : Instr} {s t : State} (hadm : admission i s = none) (he : effectOf i s = t) :
    exec i s = .next t.retire := he ▸ exec_of_admitted hadm

/-! ## Slots (R26, R41) -/

theorem allZero_iff_eq_replicate (x : List Nat) : allZero x = true ↔ x = List.replicate x.length 0 := by
  simp [allZero, List.eq_replicate_iff]

/-- A slot as R41 says that is not valid is as reset left it. -/
theorem Slot.eq_zero_of_invalid {c : Config} {t : Slot} (h : t.ok c = true) (hv : t.valid = false) : t = Slot.zero c.lenMax := by
  obtain ⟨valid, len, n, mu, r2⟩ := t
  subst hv
  simp only [Slot.ok, Bool.and_eq_true, decide_eq_true_eq, Bool.false_eq_true, if_false] at h
  obtain ⟨⟨⟨⟨⟨⟨hn, hr2, -⟩, -⟩, -⟩, hnz⟩, hr2z⟩, rfl, rfl⟩ := h
  rw [List.drop_zero, allZero_iff_eq_replicate] at hnz hr2z
  rw [hn] at hnz
  rw [hr2] at hr2z
  rw [hnz, hr2z]
  rfl

theorem State.slot_eq_zero_of_invalid {s : State} {c : Nat} (hi : s.Inv) (hc : c < s.cfg.nctx) (hv : (s.slot c).valid = false) :
    s.slot c = Slot.zero s.cfg.lenMax := Slot.eq_zero_of_invalid (slot_ok hi hc) hv

theorem Slot.zero_ok (c : Config) : (Slot.zero c.lenMax).ok c = true := by
  simp [Slot.ok, Slot.zero, limbsFit_replicate_zero, allZero]

/-- The vectors of a slot built from the zero slot: the given limbs and zeros up to `LEN_MAX`. -/
theorem Slot.zero_built (lenMax len : Nat) (x : List Nat) (mu : Nat) (r2 : List Nat) :
    (Slot.zero lenMax).built len x mu r2 =
      { valid := true, len := len, n := x ++ List.replicate (lenMax - len) 0, mu := mu,
        r2 := r2 ++ List.replicate (lenMax - len) 0 } := by
  simp [Slot.built, Slot.zero]

section
variable {c : Config} {len mu : Nat} {x r2 : List Nat}

theorem Slot.modulus_zero_built (hx : x.length = len) : ((Slot.zero c.lenMax).built len x mu r2).modulus = x := by
  rw [Slot.zero_built, ← hx]; exact List.take_left

theorem Slot.radixSquared_zero_built (hr2 : r2.length = len) : ((Slot.zero c.lenMax).built len x mu r2).radixSquared = r2 := by
  rw [Slot.zero_built, ← hr2]; exact List.take_left

/-- A slot built from limbs that fit is as R41 says, if its constants are right whenever its modulus is odd and above 1. -/
theorem Slot.zero_built_ok (hpos : 1 ≤ len) (hmax : len ≤ c.lenMax) (hx : x.length = len) (hr2 : r2.length = len)
    (hxf : limbsFit c.w x = true) (hr2f : limbsFit c.w r2 = true) (hmu : mu < 2 ^ c.w)
    (hconst : modulusOk c.w x = true → (limbAt x 0 * mu + 1) % 2 ^ c.w = 0 ∧ val c.w r2 = 2 ^ (2 * c.w * len) % val c.w x) :
    ((Slot.zero c.lenMax).built len x mu r2).ok c = true := by
  have hright : (!((Slot.zero c.lenMax).built len x mu r2).conforming c.w ||
      ((Slot.zero c.lenMax).built len x mu r2).constantsRight c.w) = true := by
    rw [Slot.conforming, Slot.constantsRight, Slot.modulus_zero_built hx, Slot.radixSquared_zero_built hr2]
    cases hok : modulusOk c.w x with
    | false => rfl
    | true => simpa [Slot.zero_built] using hconst hok
  simp only [Slot.ok, hright]
  simp [Slot.zero_built, limbsFit_append, limbsFit_replicate_zero, allZero, hx, hr2, hxf, hr2f, hmu, hpos, hmax]

end

/-! ## The effect of `INIT` (R142) -/

/-- The constants `INIT` computes are right: the limb's negated inverse and the remainder of `R^2`. -/
theorem initConstants_right (cfg : Config) {len : Nat} {x : List Nat} (hx : x.length = len) (hxf : limbsFit cfg.w x = true)
    (hok : modulusOk cfg.w x = true) :
    (limbAt x 0 * modInvLimb cfg.w (limbAt x 0) + 1) % 2 ^ cfg.w = 0 ∧
    val cfg.w (radixSquaredOf cfg.w len x) = 2 ^ (2 * cfg.w * len) % val cfg.w x := by
  obtain ⟨hodd, hlt⟩ := (modulusOk_iff (Config.w_pos cfg) x).1 hok
  have hlimb : limbAt x 0 % 2 = 1 := by
    rw [← Nat.and_one_is_mod, limbAt_zero_and_one (Config.w_pos cfg), hodd]
  have hxR : val cfg.w x < 2 ^ (cfg.w * len) := hx ▸ val_lt hxf
  refine ⟨modInvLimb_value cfg.width hlimb, ?_⟩
  rw [radixSquaredOf, val_limbsOf, Nat.mod_eq_of_lt ((Nat.mod_lt _ (Nat.zero_lt_of_lt hlt)).trans hxR)]

section
variable {s : State} {c ra len : Nat} (hi : s.Inv) (hadm : admission (.init c ra len) s = none)
include hi hadm

/-- Everything `INIT`'s effect can do: the slot is built from the zero slot, with right constants for an odd modulus above 1, with
free limbs of which only the width is known for any other (U1). -/
theorem effectInit_built :
    ∃ mu r2, mu < 2 ^ s.cfg.w ∧ r2.length = len ∧ limbsFit s.cfg.w r2 = true ∧
      ((modulusOk s.cfg.w (s.memRead ra len) = true ∧ (limbAt (s.memRead ra len) 0 * mu + 1) % 2 ^ s.cfg.w = 0 ∧
          val s.cfg.w r2 = 2 ^ (2 * s.cfg.w * len) % val s.cfg.w (s.memRead ra len) ∧
          effectInit c ra len s = s.setSlot c ((Slot.zero s.cfg.lenMax).built len (s.memRead ra len) mu r2)) ∨
        (modulusOk s.cfg.w (s.memRead ra len) = false ∧
          effectInit c ra len s = (s.setSlot c ((Slot.zero s.cfg.lenMax).built len (s.memRead ra len) mu r2)).drawn)) := by
  obtain ⟨hc, hv, -⟩ := (admitInit_none_iff s c ra len).1 hadm
  rw [← State.slot_eq_zero_of_invalid hi hc hv]
  cases hok : modulusOk s.cfg.w (s.memRead ra len) with
  | true =>
    obtain ⟨hinv, hr2⟩ := initConstants_right s.cfg (s.length_memRead ra len) (s.limbsFit_memRead ra len) hok
    exact ⟨_, _, modInvLimb_lt .., length_limbsOf .., limbsFit_limbsOf .., .inl ⟨rfl, hinv, hr2, if_pos hok⟩⟩
  | false =>
    refine ⟨_, _, ?mu, ?length, ?fit, .inr ⟨rfl, if_neg (by simp [hok])⟩⟩
    case mu => exact Nat.mod_lt _ (Nat.two_pow_pos _)
    case length => exact length_freeLimbsFrom ..
    case fit => exact limbsFit_freeLimbsFrom ..

end

/-- What a slot that `INIT` built holds, and that the other slots are as before. -/
theorem slots_of_init {s t : State} {c len mu : Nat} {x r2 : List Nat} (hi : s.Inv) (hc : c < s.cfg.nctx) (hr2 : r2.length = len)
    (ht : t.slots = s.slots.set c ((Slot.zero s.cfg.lenMax).built len x mu r2)) :
    (∀ d, d ≠ c → t.slots[d]? = s.slots[d]?) ∧ t.slots.length = s.slots.length ∧
    (t.slot c).valid = true ∧ (t.slot c).len = len ∧ (t.slot c).n = x ++ List.replicate (s.cfg.lenMax - len) 0 ∧
    (t.slot c).mu = mu ∧ (t.slot c).r2 = r2 ++ List.replicate (s.cfg.lenMax - len) 0 ∧ (t.slot c).radixSquared = r2 ∧
    (t.slot c).r2.drop len = List.replicate (s.cfg.lenMax - len) 0 := by
  obtain ⟨-, -, -, hlen, -⟩ := hi
  have hslot : t.slot c = (Slot.zero s.cfg.lenMax).built len x mu r2 := by
    rw [State.slot, ht]; simp [hlen, hc]
  refine ⟨fun d hd => by rw [ht, List.getElem?_set_ne hd.symm], by rw [ht, List.length_set], ?_⟩
  rw [hslot, Slot.zero_built]
  subst hr2
  exact ⟨rfl, rfl, rfl, rfl, rfl, List.take_left, List.drop_left⟩

/-- Settles O32: on an odd modulus above 1 the slot is built with right constants, and nothing else is written. -/
theorem initBuildsTheContext : Obligations.InitBuildsTheContext := by
  intro s c ra len hi hc hv hpos hmax hin x hodd hlt
  have hadm : admission (.init c ra len) s = none := (admitInit_none_iff s c ra len).2 ⟨hc, hv, hpos, hmax, hin⟩
  have hok : modulusOk s.cfg.w x = true := (modulusOk_iff (Config.w_pos _) x).2 ⟨hodd, hlt⟩
  obtain ⟨mu, r2, hmu, hr2, -, ⟨-, hinv, hval, he⟩ | ⟨hbad, -⟩⟩ := effectInit_built hi hadm
  · refine ⟨(s.setSlot c _).retire, exec_of_effect hadm he, rfl, ?_⟩
    obtain ⟨hother, hlength, hvalid, hslotLen, hn, hslotMu, -, hradix, hdrop⟩ :=
      slots_of_init (t := (s.setSlot c _).retire) hi hc hr2 rfl
    rw [hslotMu, hradix]
    exact ⟨hother, hlength, hvalid, hslotLen, hn, hmu, hinv, hval, hdrop⟩
  · cases hok.symm.trans hbad

/-- Settles O33: on any other modulus the slot is built with free constants, and besides it only the count of free values
changes. -/
theorem initOnABadModulusStillCompletes : Obligations.InitOnABadModulusStillCompletes := by
  intro s c ra len hi hc hv hpos hmax hin x hbad
  have hadm : admission (.init c ra len) s = none := (admitInit_none_iff s c ra len).2 ⟨hc, hv, hpos, hmax, hin⟩
  have hnot : modulusOk s.cfg.w x = false := by
    rw [Bool.eq_false_iff, ne_eq, modulusOk_iff (Config.w_pos _)]; omega
  obtain ⟨mu, r2, hmu, hr2, hfit, ⟨hok, -⟩ | ⟨-, he⟩⟩ := effectInit_built hi hadm
  · cases hok.symm.trans hnot
  · refine ⟨(s.setSlot c _).drawn.retire, exec_of_effect hadm he, rfl, ?_⟩
    obtain ⟨hother, hlength, hvalid, hslotLen, hn, hslotMu, hslotR2, -, hdrop⟩ :=
      slots_of_init (t := (s.setSlot c _).drawn.retire) hi hc hr2 rfl
    rw [hslotMu]
    exact ⟨hother, hlength, hvalid, hslotLen, hn, hmu,
      hslotR2 ▸ (limbsFit_append ..).2 ⟨hfit, limbsFit_replicate_zero ..⟩, hdrop⟩

/-! ## The other context commands (R141, R145, R146) -/

/-- Settles O31: an admitted `CHKMOD` completes, and its test is that of the value. -/
theorem chkmodTestsOddAndAboveOne : Obligations.ChkmodTestsOddAndAboveOne := by
  intro s ra len hpos hmax hin x
  have hadm : admission (.chkmod ra len) s = none := (admitChkmod_none_iff s ra len).2 ⟨hpos, hmax, hin⟩
  have htest : modulusOk s.cfg.w (s.memRead ra len) = decide (x % 2 = 1 ∧ 1 < x) := by
    rw [Bool.eq_iff_iff, modulusOk_iff (Config.w_pos _), decide_eq_true_iff]
  rw [exec_of_admitted hadm]
  simp only [effectOf, effectChkmod, htest, decide_eq_true_eq]
  rfl

/-- Settles O34: an admitted `FREE` completes with the zero slot. -/
theorem freeZeroesTheSlot : Obligations.FreeZeroesTheSlot :=
  fun s c hacc => exec_of_admitted (i := .free c) ((admitSlot_none_iff s c).2 hacc)

/-- Settles O35: an admitted `GETLEN` completes with the slot's length. -/
theorem getlenReturnsTheLength : Obligations.GetlenReturnsTheLength :=
  fun s c hacc => exec_of_admitted (i := .getlen c) ((admitSlot_none_iff s c).2 hacc)

end Sys2Proof.Machine

/-! SUPPORT. The invariant of the engine's states (R28, R30, R31, R38, R41): it holds after a reset, and every access of the host,
START and the completion of every command keep it. Settles `EveryStepKeepsTheInvariant` and `ResetMeetsTheInvariant`. -/

namespace Sys2Proof.Machine

/-! ## Reset (R39) -/

/-- Settles O59: after a reset memory is empty, every slot is zero and the flags and the fault record are clear. -/
theorem resetMeetsTheInvariant : Obligations.ResetMeetsTheInvariant := by
  have key (c : Config) (hc : c.legal = true) : (State.resetOf c).Inv := by
    refine ⟨hc, rfl, rfl, List.length_replicate, List.all_eq_true.2 fun x hx => ?_, rfl, rfl, nofun⟩
    rw [List.eq_of_mem_replicate hx]
    exact Slot.zero_ok c
  exact ⟨key Config.vectors rfl, key⟩

section
variable {s t : State}

theorem inv_toReset (hi : s.Inv) : s.toReset.Inv := by
  obtain ⟨hcfg, -⟩ := hi
  exact resetMeetsTheInvariant.2 s.cfg hcfg

/-! ## Accesses of the host (R59 to R62) -/

/-- A `CTRL` write keeps the invariant: START latches the command registers and clears `DONE`, and finds `FAULT` clear. -/
theorem inv_writeCtrl (v : Word32) (hi : s.Inv) : (s.writeCtrl v).Inv := by
  rcases writeCtrl_cases s v with ⟨-, h⟩ | ⟨-, -, hf, h⟩ | ⟨-, -, h⟩ <;> rw [h]
  · exact inv_toReset hi
  · obtain ⟨hcfg, hwf, hwithin, hlen, hslots, -, hrecord, -⟩ := hi
    exact ⟨hcfg, hwf, hwithin, hlen, hslots, by simp [State.statusLegal, hf], hrecord, fun _ => rfl⟩
  · exact hi

/-- A write of the window at an aligned offset keeps memory canonical and inside `MEM_LIMBS` limbs. -/
theorem inv_writeWindow {p : Nat} (v : Word32) (hi : s.Inv) (hp : p + 4 ≤ s.windowBytes) : (s.writeWindow p v).Inv := by
  obtain ⟨hcfg, hwf, hwithin, hrest⟩ := hi
  exact ⟨hcfg, Memory.wf_writeLE p 4 _ hwf, Memory.within_writeLE _ hwithin hp, hrest⟩

/-- With no command in flight the `CMD` registers are free: the latch is bound to them while `BUSY = 1` only (R38). -/
theorem inv_of_commandRegisters (hi : s.Inv) (hb : s.busy = false)
    (ht : t = { s with cmd0 := t.cmd0, cmd1 := t.cmd1, cmd2 := t.cmd2, cmd3 := t.cmd3 }) : t.Inv := by
  obtain ⟨hcfg, hwf, hwithin, hlen, hslots, hstatus, hrecord, -⟩ := hi
  rw [ht]
  exact ⟨hcfg, hwf, hwithin, hlen, hslots, hstatus, hrecord, fun h => absurd (hb.symm.trans h) nofun⟩

theorem inv_writePort {o : Nat} {v : Word32} (hi : s.Inv) (ha : o % 4 = 0) (hm : s.mapped o = true)
    (hb : s.busy = true → o = 0x10 ∧ v.getLsbD 1 = true) : (s.writePort o v).Inv := by
  have hidle (ho : o ≠ 0x10) : s.busy = false := Bool.eq_false_of_not_eq_true fun h => ho (hb h).1
  rcases writePort_cases s o v with ⟨rfl, h⟩ | ⟨rfl, h⟩ | ⟨rfl, h⟩ | ⟨rfl, h⟩ | ⟨rfl, h⟩ | ⟨-, -, h⟩ | ⟨ho, h⟩ | ⟨-, -, h⟩ <;>
    rw [h]
  · exact inv_of_commandRegisters hi (hidle (by decide)) rfl
  · exact inv_of_commandRegisters hi (hidle (by decide)) rfl
  · exact inv_of_commandRegisters hi (hidle (by decide)) rfl
  · exact inv_of_commandRegisters hi (hidle (by decide)) rfl
  · exact inv_writeCtrl v hi
  · exact hi
  · have hwords := windowBytes_eq_words s
    refine inv_writeWindow v hi ?_
    simp only [mapped_iff, windowBase] at hm ⊢
    omega
  · exact hi

/-! ## Completion (R82, R240) -/

/-- Every slot a command leaves is as R41 says: `INIT` builds a right one, `FREE` a zero one. -/
theorem effectOf_slots_ok {i : Instr} (hi : s.Inv) (hadm : admission i s = none) :
    (effectOf i s).slots.length = s.cfg.nctx ∧ ∀ x ∈ (effectOf i s).slots, x.ok s.cfg = true := by
  have ⟨_, _, _, hlen, hslots, _⟩ := hi
  rw [List.all_eq_true] at hslots
  have hset (c : Nat) {x : Slot} (hx : x.ok s.cfg = true) :
      (s.slots.set c x).length = s.cfg.nctx ∧ ∀ y ∈ s.slots.set c x, y.ok s.cfg = true := by
    refine ⟨(List.length_set ..).trans hlen, fun y hy => ?_⟩
    rcases List.mem_or_eq_of_mem_set hy with hy | rfl
    · exact hslots y hy
    · exact hx
  rcases effectOf_slots_cases i s with hsame | ⟨c, -, rfl | ⟨ra, len, rfl⟩, -⟩
  · exact hsame.symm ▸ ⟨hlen, hslots⟩
  · exact hset c (Slot.zero_ok s.cfg)
  · obtain ⟨-, -, hpos, hmax, -⟩ := (admitInit_none_iff s c ra len).1 hadm
    obtain ⟨mu, r2, hmu, hr2, hfit, h⟩ := effectInit_built hi hadm
    have hx := s.length_memRead ra len
    have hxf := s.limbsFit_memRead ra len
    simp only [effectOf]
    rcases h with ⟨-, hinv, hval, he⟩ | ⟨hbad, he⟩ <;> rw [he]
    · exact hset c (Slot.zero_built_ok hpos hmax hx hr2 hxf hfit hmu fun _ => ⟨hinv, hval⟩)
    · exact hset c (Slot.zero_built_ok hpos hmax hx hr2 hxf hfit hmu fun hok => absurd (hbad.symm.trans hok) nofun)

/-- Trap entry keeps the invariant: it clears `BUSY` and records a legal code. -/
theorem inv_trap (f : FaultCode) (hi : s.Inv) (hb : s.busy = true) : (s.trap f).Inv := by
  have hd := (flags_clear_of_busy hi hb).1
  obtain ⟨hcfg, hwf, hwithin, hlen, hslots, -, -, -⟩ := hi
  refine ⟨hcfg, hwf, hwithin, hlen, hslots, ?_, ?_, nofun⟩
  · simp [State.statusLegal, hd]
  · simp [State.faultRecordLegal, f.code_legal]

/-- A completed command keeps the invariant. -/
theorem inv_retire_effectOf {i : Instr} (hi : s.Inv) (hb : s.busy = true) (hadm : admission i s = none) :
    (effectOf i s).retire.Inv := by
  have hf := (flags_clear_of_busy hi hb).2
  have hslots := effectOf_slots_ok hi hadm
  have hkept := controlKept_effectOf i s
  obtain ⟨hcfg, hwf, hwithin, -, -, -, hrecord, -⟩ := hi
  have hmem := effectOf_mem_form i s hadm hwf hwithin
  generalize effectOf i s = t at hslots hkept hmem
  rw [hkept]
  exact ⟨hcfg, hmem.1, hmem.2, hslots.1, List.all_eq_true.2 hslots.2, by simp [State.statusLegal, hf], hrecord, nofun⟩

theorem inv_engineTurn (hi : s.Inv) (h : engineTurn s = .next t) : t.Inv := by
  cases hb : s.busy with
  | false =>
    obtain rfl := Host.Outcome.next.inj ((engineTurn_of_idle hb).symm.trans h)
    exact hi
  | true =>
    rw [engineTurn, hb, if_pos rfl] at h
    rcases complete_traps_or_retires h with ⟨f, rfl⟩ | ⟨i, -, hadm, rfl⟩
    · exact inv_trap f hi hb
    · exact inv_retire_effectOf hi hb hadm

/-! ## Every move (R272) -/

theorem inv_performMove {m : Move} (hi : s.Inv) (h : performMove m s = .next t) : t.Inv := by
  cases m with
  | read o wd =>
    obtain ⟨-, -, -, -, rfl⟩ := (portRead_next_iff ..).1 h
    exact hi
  | write o wd v =>
    obtain ⟨-, ha, hm, hb, rfl⟩ := (portWrite_next_iff ..).1 h
    exact inv_writePort hi ha hm hb
  | hardReset =>
    obtain rfl := Host.Outcome.next.inj h
    exact inv_toReset hi
  | engine => exact inv_engineTurn hi h

end

/-- Settles O58: the next move is the engine's turn or the first one listed, and the list is no part of the invariant. -/
theorem everyStepKeepsTheInvariant : Obligations.EveryStepKeepsTheInvariant := by
  intro s t hi h
  refine ⟨?_, step_cfg h⟩
  rcases step_cases s with ⟨-, hs⟩ | ⟨m, ms, -, hs⟩ <;> rw [hs] at h
  · exact inv_engineTurn hi h
  · exact inv_performMove (s := s.withInputs ms) hi h

end Sys2Proof.Machine

/-! SUPPORT. Steps seen from the host and from the engine: what a write of `CTRL` does in each condition, what a reset leaves, which
accesses a busy engine allows, and what the completion of a command may change (R27, R29 to R31, R62, R82, R240, R260). Settles
`StepRunsTheDecodedCommand`, `ControlRegisterActs`, `ResetLeavesTheResetTable`, `BusyPortAllowsOnlySixReadsAndReset`,
`FaultRegistersReadTheRecord`, `EveryCommandInFlightFinishes`, `CommandTouchesOnlyItsFootprint` and
`ResultIsWrittenByChkmodAndGetlenOnly`. -/

namespace Sys2Proof.Machine

/-! ## `CTRL` and reset (R27, R260) -/

section
variable {s : State} {ms : List Move} {v : Word32}

/-- A write of `CTRL` with `RESET` leaves the reset state, whatever the engine is doing. -/
theorem step_write_reset (hin : s.inputs = .write 0x10 .word v :: ms) (hr : v.getLsbD 1 = true) :
    step s = .next (s.withInputs ms).toReset :=
  (step_of_head hin).trans (performMove_of_resets (.inr ⟨v, rfl, hr⟩) _)

theorem step_write_ctrl_of_idle (hin : s.inputs = .write 0x10 .word v :: ms) (hb : s.busy = false) :
    step s = .next ((s.withInputs ms).writeCtrl v) := step_write_register hin (by decide) (by decide) hb

/-- Without `RESET` a write of `CTRL` has no move while `BUSY = 1` (R62). -/
theorem step_write_ctrl_of_busy (hin : s.inputs = .write 0x10 .word v :: ms) (hr : v.getLsbD 1 = false) (hb : s.busy = true) :
    step s = .refused .portBusy := by
  have hm : (s.withInputs ms).mapped 0x10 = true := mapped_of_register _ (by decide)
  rw [step_write hin]
  simpa [portWrite, checkedAccess, hm, hb] using hr

end

/-- Settles O8: `RESET` resets in every state; without it a busy engine refuses the write, and an idle one acts on the bits. -/
theorem controlRegisterActs : Obligations.ControlRegisterActs := by
  refine fun s v ms => ⟨fun hin => ⟨fun hr => ?reset, fun hr hstart hb hf => ?start, fun hr _ hb hf => ?faulted,
    fun hr hb => step_write_ctrl_of_busy hin hr hb, fun hr hstart hb => ?neither⟩, fun hin hb => ?read⟩
  case reset => exact step_write_reset hin hr
  case start =>
    rw [step_write_ctrl_of_idle hin hb, writeCtrl_start (s := s.withInputs ms) hf hr hstart]
    rfl
  case faulted =>
    rw [step_write_ctrl_of_idle hin hb, writeCtrl_of_fault (s := s.withInputs ms) hf hr]
    rfl
  case neither =>
    rw [step_write_ctrl_of_idle hin hb, writeCtrl_of_no_command hr hstart]
    rfl
  case read => exact step_read_register hin (by decide) (by decide) (by simp [hb])

/-- Settles O9: both kinds of reset leave the reset state for the same parameters, whose memory has no listed byte. -/
theorem resetLeavesTheResetTable : Obligations.ResetLeavesTheResetTable := by
  intro s ms h
  have hstep : step s = .next (s.withInputs ms).toReset := by
    rcases h with hin | ⟨v, hin, hr⟩
    · exact step_of_head hin
    · exact step_write_reset hin hr
  exact ⟨_, hstep, fun _ => rfl, List.length_replicate, fun c hc => List.getElem?_replicate_of_lt hc,
    rfl, rfl, rfl, rfl, rfl, rfl, rfl, rfl, rfl, rfl, rfl, rfl, rfl⟩

/-! ## Reads while busy, and the fault record (R30, R31, R62) -/

/-- Settles O10: the six reads are of registers readable at any time; a step on any other access would contradict the port's
condition for a move. -/
theorem busyPortAllowsOnlySixReadsAndReset : Obligations.BusyPortAllowsOnlySixReadsAndReset := by
  have hread {s : State} {ms : List Move} {o : BitVec 20} (hin : s.inputs = .read o .word :: ms)
      (ho : o ∈ [0x14, 0x1C, 0x20, 0x24, 0x28, 0x2C]) :
      step s = .next { s with inputs := ms, replies := s.readRegister o.toNat :: s.replies } := by
    have hoff : o.toNat < 0x30 ∧ o.toNat % 4 = 0 := by fin_cases ho <;> decide
    exact step_read_register hin hoff.1 hoff.2 fun _ => (alwaysReadable_iff o).2 ho
  intro s ms hb
  refine ⟨fun hin => hread hin (by decide), fun hin => hread hin (by decide), fun hin => hread hin (by decide),
    fun hin => hread hin (by decide), fun hin => hread hin (by decide), fun hin => hread hin (by decide),
    fun v hin hr => step_write_reset hin hr, fun o wd t hin hno ht => ?_, fun o wd v t hin hno ht => ?_⟩
  · rw [step_read hin, portRead_next_iff] at ht
    obtain ⟨hw, -, -, hallowed, -⟩ := ht
    exact hno ⟨hw, by simpa using (alwaysReadable_iff o).1 (hallowed hb)⟩
  · rw [step_write hin, portWrite_next_iff] at ht
    obtain ⟨hw, -, -, hallowed, -⟩ := ht
    obtain ⟨ho, hr⟩ := hallowed hb
    exact hno ⟨hw, BitVec.eq_of_toNat_eq ho, hr⟩

/-- What the invariant says of the fault record (R30, R31, R231). -/
theorem faultRecord_of_inv {s : State} (hi : s.Inv) :
    (s.fault = false → s.faultCode = 0 ∧ s.faultInfo = 0) ∧
    (s.fault = true → 1 ≤ s.faultCode.toNat ∧ s.faultCode.toNat ≤ 7) := by
  obtain ⟨-, -, -, -, -, -, hrecord, -⟩ := hi
  unfold State.faultRecordLegal at hrecord
  exact ⟨fun hf => by simpa [hf] using hrecord, fun hf => by simpa [hf] using hrecord⟩

/-- Settles O15: the two registers show the record, of which the invariant says what it is. -/
theorem faultRegistersReadTheRecord : Obligations.FaultRegistersReadTheRecord := by
  intro s ms hi
  obtain ⟨hclear, hset⟩ := faultRecord_of_inv hi
  refine ⟨fun hin => ⟨s.faultCodeWord, ?_, ?_, ?_, fun hf => ?_, fun hf => ?_⟩,
    fun hin => ⟨s.faultInfo, ?_, rfl, fun hf => (hclear hf).2⟩⟩
  · exact step_read_register hin (by decide) (by decide) fun _ => by decide
  · ext j hj
    simp [State.faultCodeWord, show j < 32 by omega, BitVec.getLsbD_eq_getElem hj]
  · ext j hj
    simp [State.faultCodeWord]
  · simp [State.faultCodeWord, hclear hf]
  · have hlt := s.faultCode.isLt
    rw [State.faultCodeWord, BitVec.toNat_setWidth, Nat.mod_eq_of_lt (by omega)]
    exact hset hf
  · exact step_read_register hin (by decide) (by decide) fun _ => by decide

/-! ## Completion (R82, R240, R241) -/

/-- Settles O7: the engine's move completes `LC`, and a legal command is executed. -/
theorem stepRunsTheDecodedCommand : Obligations.StepRunsTheDecodedCommand := by
  intro s i hc hd
  rw [step_completes hc, complete, State.withInputs_lc, hd]

/-- The codes of R231, written out. -/
theorem FaultCode.code_mem (f : FaultCode) : f.code ∈ [(0x01 : Byte), 0x02, 0x03, 0x04, 0x05, 0x06, 0x07] := by
  cases f <;> decide

/-- Settles O25: the completion has a next state, which is trap entry or the retired effect of a command. -/
theorem everyCommandInFlightFinishes : Obligations.EveryCommandInFlightFinishes := by
  intro s hc
  obtain ⟨t, ht⟩ := complete_total (s.withInputs s.inputs.tail)
  refine ⟨t, (step_completes hc).trans ht, ?_⟩
  rcases complete_traps_or_retires ht with ⟨f, rfl⟩ | ⟨i, -, -, rfl⟩
  · exact ⟨rfl, .inr ⟨f.code, f.code_mem, rfl⟩⟩
  · have hkept := controlKept_effectOf i (s.withInputs s.inputs.tail)
    generalize effectOf i (s.withInputs s.inputs.tail) = t at hkept
    rw [hkept]
    exact ⟨rfl, .inl ⟨rfl, rfl, rfl, rfl⟩⟩

/-! ## The frame of a command (R29, R68) -/

/-- Limb memory outside the destination of the footprint reads as before. -/
theorem effectOf_getByte {i : Instr} {s : State} {a : Nat}
    (h : ∀ b, (footprint i s).dest = some b → a < b.base * s.cfg.width.bytes ∨ (b.base + b.len) * s.cfg.width.bytes ≤ a) :
    (effectOf i s).mem.getByte a = s.mem.getByte a := by
  cases hd : (footprint i s).dest with
  | none => rw [effectOf_mem_of_no_dest i s hd]
  | some b => exact (effectOf_frame i s hd).2 a (h b hd)

/-- Settles O28: trap entry writes the fault record alone, and an effect leaves the control state and the memory outside its
destination. -/
theorem commandTouchesOnlyItsFootprint : Obligations.CommandTouchesOnlyItsFootprint := by
  intro i s t h
  rcases exec_cases h with ⟨f, -, rfl⟩ | ⟨-, rfl⟩
  · exact ⟨rfl, rfl, rfl, rfl, rfl, rfl, rfl, rfl, .inr ⟨f.code, rfl⟩, fun _ _ => rfl⟩
  · have hmem := fun a => effectOf_getByte (i := i) (s := s) (a := a)
    have hkept := controlKept_effectOf i s
    generalize effectOf i s = t at hkept hmem
    rw [hkept]
    exact ⟨rfl, rfl, rfl, rfl, rfl, rfl, rfl, rfl, .inl ⟨rfl, rfl, rfl⟩, hmem⟩

theorem writeResult_result_chk (s : State) (rd len : Nat) (ok : Bool) (v : List Nat) (r : List (List Nat)) :
    (s.writeResult rd len ok v r).result = s.result ∧ (s.writeResult rd len ok v r).chk = s.chk := by
  cases ok <;> exact ⟨rfl, rfl⟩

/-- The only effects that reach `RESULT` are `CHKMOD`'s and `GETLEN`'s, and `CHKMOD`'s alone reaches `CHK`. -/
theorem effectOf_result_cases (i : Instr) (s : State) :
    ((effectOf i s).result = s.result ∧ (effectOf i s).chk = s.chk) ∨
    (∃ ra len, i = .chkmod ra len ∧ ((effectOf i s).result = 0 ∨ (effectOf i s).result = 1)) ∨
    ∃ c, i = .getlen c ∧ (effectOf i s).result = BitVec.ofNat 32 (s.slot c).len ∧ (effectOf i s).chk = s.chk := by
  cases i with
  | chkmod ra len =>
    refine .inr (.inl ⟨ra, len, rfl, ?_⟩)
    simp only [effectOf, effectChkmod, State.setChk_result, State.setResult_result]
    split
    · exact .inr rfl
    · exact .inl rfl
  | init c ra len =>
    obtain ⟨x, h | h⟩ := effectInit_cases c ra len s <;> exact .inl ⟨(congrArg State.result h :), (congrArg State.chk h :)⟩
  | free c => exact .inl ⟨rfl, rfl⟩
  | getlen c => exact .inr (.inr ⟨c, rfl, rfl, rfl⟩)
  | _ => exact .inl (writeResult_result_chk ..)

/-- Settles O30: trap entry leaves `RESULT` and `CHK`, and a completed command that changes them is one of the two. -/
theorem resultIsWrittenByChkmodAndGetlenOnly : Obligations.ResultIsWrittenByChkmodAndGetlenOnly := by
  refine ⟨fun i s t h hne => ?result, fun i s t h hne => ?chk, fun _ => rfl, fun s ms hb hin => ?read⟩
  case result =>
    rcases exec_cases h with ⟨f, -, rfl⟩ | ⟨-, rfl⟩
    · exact absurd rfl hne
    · refine ⟨rfl, rfl, ?_⟩
      rcases effectOf_result_cases i s with ⟨hsame, -⟩ | hchkmod | ⟨c, hi, hlen, -⟩
      · exact absurd hsame hne
      · exact .inl hchkmod
      · exact .inr ⟨c, hi, hlen⟩
  case chk =>
    rcases exec_cases h with ⟨f, -, rfl⟩ | ⟨-, rfl⟩
    · exact absurd rfl hne
    · rcases effectOf_result_cases i s with ⟨-, hsame⟩ | ⟨ra, len, hi, -⟩ | ⟨c, -, -, hsame⟩
      · exact absurd hsame hne
      · exact ⟨ra, len, hi⟩
      · exact absurd hsame hne
  case read => exact step_read_register hin (by decide) (by decide) (by simp [hb])

end Sys2Proof.Machine

/-! SUPPORT. What the ten field commands write (R160, R161, R170 to R174, R198 to R200, R220, R248): each completes whatever the
values of its operands, and for operands below an odd modulus the destination has the value of its rule. Settles
`ModularAddAndSubtractValues`, `TofieldMultipliesByTheRadix`, `FromfieldDividesByTheRadix`, `OneWritesTheRadixModN`, `AddAddsModN`,
`SubSubtractsModN`, `MulIsTheMontgomeryProduct`, `SqrIsMulOfTheSourceWithItself`, `ExpctRaisesToThePower`, `ExpvtRaisesToThePower`,
`InvRaisesToTheModulusMinusTwo`, `InverseTimesOperandIsOne` and `UncheckedValuesStillComplete`. -/

namespace Sys2Proof.Machine

/-- Settles O53, by the values of the two procedures. -/
theorem modularAddAndSubtractValues : Obligations.ModularAddAndSubtractValues := by
  intro w n a b hn ha hb hal hbl hav hbv
  obtain ⟨hadd, haddFit, haddLen⟩ := addModN_value hn ha hb hal hbl hav hbv
  obtain ⟨hsub, hsubFit, hsubLen⟩ := subModN_value hn ha hb hal hbl hav hbv
  exact ⟨hadd, hsub, haddFit, hsubFit, haddLen, hsubLen⟩

/-! ## Completion whatever the values (R248) -/

/-- An admitted command with a destination completes and writes that alone. -/
theorem exec_wroteOnly {i : Instr} {s : State} {b : Buffer} (hadm : admission i s = none) (hd : (footprint i s).dest = some b) :
    ∃ t, exec i s = .next t ∧ wroteOnly s t b.base b.len :=
  ⟨_, exec_of_admitted hadm, effectOf_frame i s hd⟩

/-- Settles O46: the admission checks of each format look at no value, and every field command has a destination of `len` limbs
at `rd`. -/
theorem uncheckedValuesStillComplete : Obligations.UncheckedValuesStillComplete := by
  intro s c rd ra rb bbits
  refine ⟨fun hacc hin => ?one, fun i hi hadm => ?formatU, fun i hi hadm => ?formatB, fun i hi hadm => ?formatE⟩
  case one => exact exec_wroteOnly (i := .one c rd) ((footprintD_admitted_iff ..).2 ⟨hacc, hin⟩) rfl
  case formatU =>
    have hdest : (footprint i s).dest = some ⟨rd, s.ctxLen c⟩ := by fin_cases hi <;> rfl
    exact exec_wroteOnly ((admission_formatU i hi).trans ((footprintU_admitted_iff ..).2 hadm)) hdest
  case formatB =>
    have hdest : (footprint i s).dest = some ⟨rd, s.ctxLen c⟩ := by fin_cases hi <;> rfl
    exact exec_wroteOnly ((admission_formatB i hi).trans ((footprintB_admitted_iff ..).2 hadm)) hdest
  case formatE =>
    have hdest : (footprint i s).dest = some ⟨rd, s.ctxLen c⟩ := by fin_cases hi <;> rfl
    exact exec_wroteOnly ((admission_formatE i hi).trans ((footprintE_admitted_iff ..).2 hadm)) hdest

/-! ## What a stored result is (R140) -/

section
variable {s : State} {c rd : Nat} {v : List Nat}

theorem wroteOnly_stored (s : State) (c rd : Nat) (v : List Nat) : wroteOnly s (s.stored c rd v) rd (s.ctxLen c) :=
  ⟨rfl, s.bytesKeptOutside_memWrite rd (s.ctxLen c) v⟩

theorem operand_stored (hm : s.mem.wf = true) (hv : (s.slot c).IsElement s.cfg.w v) :
    (s.stored c rd v).operand c rd = val s.cfg.w v := congrArg (val s.cfg.w) (State.stored_memRead hm hv)

/-- A command that stores an element: the frame of its "Writes" line, and whatever holds of the element's value holds of the
destination. -/
theorem exec_stored {i : Instr} {P : Nat → Prop} (hm : s.mem.wf = true) (hexec : exec i s = .next (s.stored c rd v))
    (hv : (s.slot c).IsElement s.cfg.w v) (hP : P (val s.cfg.w v)) :
    ∃ t, exec i s = .next t ∧ wroteOnly s t rd (s.ctxLen c) ∧ t.freeCount = s.freeCount ∧ P (t.operand c rd) :=
  ⟨_, hexec, wroteOnly_stored s c rd v, rfl, (operand_stored hm hv).symm ▸ hP⟩

/-- A command that stores the Montgomery form of `A` writes `A * R mod N`. -/
theorem State.storesForm.writes {i : Instr} {A : Nat} (ht : (s.slot c).FieldContext s.cfg.w) (hm : s.mem.wf = true)
    (h : s.storesForm i c rd A) :
    ∃ t, exec i s = .next t ∧ wroteOnly s t rd (s.ctxLen c) ∧ t.freeCount = s.freeCount ∧
      t.operand c rd = A * s.radix c % s.modulusValue c := by
  obtain ⟨v, hv, hexec⟩ := h
  have hval := hv.2.2
  rw [ht.modulus_length] at hval
  exact exec_stored (P := (· = A * s.radix c % s.modulusValue c)) hm hexec (hv.isElement ht) hval

end

/-! ## Conversion and field arithmetic (R160, R161, R170 to R174) -/

/-- Settles O36: the source is converted to its Montgomery form. -/
theorem tofieldMultipliesByTheRadix : Obligations.TofieldMultipliesByTheRadix := by
  intro s c rd ra hi hadm ho hlt
  have ht := fieldContext_of_inv hi hadm.1 ho
  obtain ⟨-, hm, -⟩ := hi
  exact (storesForm_tofield ht hadm hlt).writes ht hm

/-- Settles O37, by the value of `from_field`. -/
theorem fromfieldDividesByTheRadix : Obligations.FromfieldDividesByTheRadix := by
  intro s c rd ra hi hadm ho hlt
  have ht := fieldContext_of_inv hi hadm.1 ho
  obtain ⟨-, hm, -⟩ := hi
  obtain ⟨helem, hval⟩ := Slot.fromField_value ht (isElement_memRead hlt)
  exact exec_stored (P := fun x => x < s.modulusValue c ∧ x * s.radix c % s.modulusValue c = s.operand c ra) hm
    (exec_fromfield hadm ht rfl (isElement_memRead hlt)) helem ⟨helem.lt, hval⟩

/-- Settles O38: `ONE` stores the Montgomery form of 1. -/
theorem oneWritesTheRadixModN : Obligations.OneWritesTheRadixModN := by
  intro s c rd hi hacc hin ho
  have ht := fieldContext_of_inv hi hacc ho
  obtain ⟨-, hm, -⟩ := hi
  simpa only [Nat.one_mul] using (storesForm_one ht hacc hin).writes ht hm

section
variable {w : Nat} {t : Slot} {a b : List Nat} (ht : t.FieldContext w) (ha : t.IsElement w a) (hb : t.IsElement w b)
include ht ha hb

theorem addModN_isElement :
    t.IsElement w (addModN w t.modulus a b) ∧ val w (addModN w t.modulus a b) = (val w a + val w b) % val w t.modulus := by
  have hlen := ht.modulus_length
  obtain ⟨hval, hfit, hl⟩ := addModN_value ht.modulus_fit ha.fit hb.fit (ha.length.trans hlen.symm) (hb.length.trans hlen.symm)
    ha.lt hb.lt
  exact ⟨⟨hfit, hl.trans hlen, hval ▸ Nat.mod_lt _ (Nat.zero_lt_of_lt ha.lt)⟩, hval⟩

theorem subModN_isElement :
    t.IsElement w (subModN w t.modulus a b) ∧
    val w (subModN w t.modulus a b) = (val w a + val w t.modulus - val w b) % val w t.modulus := by
  have hlen := ht.modulus_length
  obtain ⟨hval, hfit, hl⟩ := subModN_value ht.modulus_fit ha.fit hb.fit (ha.length.trans hlen.symm) (hb.length.trans hlen.symm)
    ha.lt hb.lt
  exact ⟨⟨hfit, hl.trans hlen, hval ▸ Nat.mod_lt _ (Nat.zero_lt_of_lt ha.lt)⟩, hval⟩

/-- The Montgomery product of two elements is the element that times `R` is their product (R125, R127). -/
theorem montMul_isElement :
    t.IsElement w (montMul w t.modulus t.mu a b) ∧
    val w (montMul w t.modulus t.mu a b) * 2 ^ (w * t.len) % val w t.modulus = val w a * val w b % val w t.modulus := by
  have hlen := ht.modulus_length
  obtain ⟨hl, hfit, hlt, hval⟩ := montMul_value ht.modulus_fit ht.mu_right ha.fit (ha.length.trans hlen.symm) hb.fit
    (hb.length.trans hlen.symm) hb.lt
  rw [hlen] at hval
  exact ⟨⟨hfit, hl.trans hlen, hlt⟩, hval⟩

end

/-- Settles O39, by the value of `add_mod_n`. -/
theorem addAddsModN : Obligations.AddAddsModN := by
  intro s c rd ra rb hi hadm ho hlta hltb
  have ht := fieldContext_of_inv hi hadm.1.1 ho
  obtain ⟨-, hm, -⟩ := hi
  have ha := isElement_memRead hlta
  have hb := isElement_memRead hltb
  obtain ⟨helem, hval⟩ := addModN_isElement ht ha hb
  exact exec_stored (P := (· = _)) hm (exec_add hadm ht rfl rfl ha hb) helem hval

/-- Settles O40, by the value of `sub_mod_n`. -/
theorem subSubtractsModN : Obligations.SubSubtractsModN := by
  intro s c rd ra rb hi hadm ho hlta hltb
  have ht := fieldContext_of_inv hi hadm.1.1 ho
  obtain ⟨-, hm, -⟩ := hi
  have ha := isElement_memRead hlta
  have hb := isElement_memRead hltb
  obtain ⟨helem, hval⟩ := subModN_isElement ht ha hb
  refine exec_stored (P := fun x => (x : Int) = ((s.operand c ra : Int) - (s.operand c rb : Int)) % (s.modulusValue c : Int)) hm
    (exec_sub hadm ht rfl rfl ha hb) helem ?_
  rw [hval, Nat.add_sub_assoc hltb.le]
  exact natCast_add_sub_mod hltb.le

/-- Settles O41, by the value of the Montgomery product. -/
theorem mulIsTheMontgomeryProduct : Obligations.MulIsTheMontgomeryProduct := by
  intro s c rd ra rb hi hadm ho hlta hltb
  have ht := fieldContext_of_inv hi hadm.1.1 ho
  obtain ⟨-, hm, -⟩ := hi
  have ha := isElement_memRead hlta
  have hb := isElement_memRead hltb
  obtain ⟨helem, hval⟩ := montMul_isElement ht ha hb
  exact exec_stored (P := fun x => x < s.modulusValue c ∧
    x * s.radix c % s.modulusValue c = s.operand c ra * s.operand c rb % s.modulusValue c) hm
    (exec_mul hadm ht rfl rfl ha hb) helem ⟨helem.lt, hval⟩

/-- Settles O42: both commands store the Montgomery product of the source with itself. -/
theorem sqrIsMulOfTheSourceWithItself : Obligations.SqrIsMulOfTheSourceWithItself := by
  intro s c rd ra hi hadm ho hlt
  have ⟨hacc, hrd, hra, hapart⟩ := hadm
  have ht := fieldContext_of_inv hi hacc ho
  obtain ⟨t, hmul, hrest⟩ := mulIsTheMontgomeryProduct s c rd ra ra hi ⟨hadm, hra, hapart⟩ ho hlt hlt
  have ha := isElement_memRead hlt
  have hsame : exec (.sqr c rd ra) s = exec (.mul c rd ra ra) s :=
    (exec_sqr hadm ht rfl ha).trans (exec_mul ⟨hadm, hra, hapart⟩ ht rfl rfl ha ha).symm
  exact ⟨t, hsame.trans hmul, hmul, hrest⟩

/-! ## Exponentiation (R198 to R200) -/

/-- The plain value of an operand below `N`: the element that `from_field` gives, whose Montgomery form the operand is. -/
theorem exists_plain_value {s : State} {c a : Nat} (ht : (s.slot c).FieldContext s.cfg.w)
    (hlt : s.operand c a < s.modulusValue c) :
    ∃ A, A < s.modulusValue c ∧ A * s.radix c % s.modulusValue c = s.operand c a ∧ s.holdsForm c a A := by
  have ha := isElement_memRead hlt
  obtain ⟨helem, hval⟩ := Slot.fromField_value ht ha
  exact ⟨_, helem.lt, hval, represents_of_isElement ht ha hval.symm⟩

/-- A command that stores the form of the `E`-th power of its source, whatever number the source is the form of. -/
theorem exec_power {i : Instr} {s : State} {c rd ra E : Nat} (ht : (s.slot c).FieldContext s.cfg.w) (hm : s.mem.wf = true)
    (hlt : s.operand c ra < s.modulusValue c) (h : ∀ A, s.holdsForm c ra A → s.storesForm i c rd (A ^ E)) :
    ∃ t A, exec i s = .next t ∧ wroteOnly s t rd (s.ctxLen c) ∧ t.freeCount = s.freeCount ∧
      A < s.modulusValue c ∧ A * s.radix c % s.modulusValue c = s.operand c ra ∧
      t.operand c rd = A ^ E * s.radix c % s.modulusValue c := by
  obtain ⟨A, hA, hAval, hform⟩ := exists_plain_value ht hlt
  obtain ⟨t, hexec, hframe, hfree, hval⟩ := (h A hform).writes ht hm
  exact ⟨t, A, hexec, hframe, hfree, hA, hAval, hval⟩

/-- Settles O43: the command stores the Montgomery form of the power. -/
theorem expctRaisesToThePower : Obligations.ExpctRaisesToThePower := by
  intro s c rd ra rb bbits hi hadm ho hlt hE
  have ht := fieldContext_of_inv hi hadm.1.1 ho
  obtain ⟨-, hm, -⟩ := hi
  exact exec_power ht hm hlt fun A ha => storesForm_expct ht hadm ha hE

/-- Settles O44: the command stores the Montgomery form of the power. -/
theorem expvtRaisesToThePower : Obligations.ExpvtRaisesToThePower := by
  intro s c rd ra rb bbits hi hadm ho hlt hE
  have ht := fieldContext_of_inv hi hadm.1.1 ho
  obtain ⟨-, hm, -⟩ := hi
  exact exec_power ht hm hlt fun A ha => storesForm_expvt ht hadm ha hE

/-! ## The inverse (R220, R221) -/

/-- The exponent of `INV` is `N - 2`: an odd modulus above 1 is at least 3, so the subtraction does not borrow (R221). -/
theorem nMinus2_value {w : Nat} {t : Slot} (ht : t.FieldContext w) :
    val w (nMinus2 w t.modulus) = val w t.modulus - 2 ∧ (nMinus2 w t.modulus).length = t.len ∧
    limbsFit w (nMinus2 w t.modulus) = true := by
  have hodd := ht.modulus_odd
  have hgt := ht.one_lt_modulus
  have hlt := val_lt ht.modulus_fit
  have htwoLen : t.modulus.length = (limbsOf w t.modulus.length 2).length := (length_limbsOf ..).symm
  have htwo : val w (limbsOf w t.modulus.length 2) = 2 := by rw [val_limbsOf, Nat.mod_eq_of_lt (by omega)]
  have hval := bnSub_value htwoLen ht.modulus_fit (limbsFit_limbsOf ..)
  rw [bnSub_borrow htwoLen ht.modulus_fit (limbsFit_limbsOf ..), htwo, if_neg (by omega)] at hval
  refine ⟨?_, (length_bnSubFrom w 0 htwoLen).trans ht.modulus_length, limbsFit_bnSubFrom ..⟩
  rw [nMinus2]
  omega

/-- `INV` stores the Montgomery form of the power `A^(N-2)` (R220). -/
theorem storesForm_inv {s : State} {c rd ra A : Nat} (ht : (s.slot c).FieldContext s.cfg.w) (hadm : s.takesU c rd ra)
    (ha : s.holdsForm c ra A) : s.storesForm (.inv c rd ra) c rd (A ^ (s.modulusValue c - 2)) := by
  obtain ⟨hval, hlen, hfit⟩ := nMinus2_value ht
  have hbits : (s.slot c).len * s.cfg.w = s.cfg.w * (nMinus2 s.cfg.w (s.slot c).modulus).length := by rw [hlen, Nat.mul_comm]
  have hE : val s.cfg.w (nMinus2 s.cfg.w (s.slot c).modulus) < 2 ^ ((s.slot c).len * s.cfg.w) := hbits ▸ val_lt hfit
  have hform := expVt_represents (Config.four_le_w _) ht ha hfit hbits.le hE
  rw [hval] at hform
  exact ⟨_, hform, exec_of_conforming_result ((footprintU_admitted_iff ..).2 hadm) rfl
    (Bool.and_eq_true_iff.2 ⟨ht.conforming, (ha.isElement ht).below⟩)⟩

/-- Settles O45: the command stores the Montgomery form of the power. -/
theorem invRaisesToTheModulusMinusTwo : Obligations.InvRaisesToTheModulusMinusTwo := by
  intro s c rd ra hi hadm ho hlt
  have ht := fieldContext_of_inv hi hadm.1 ho
  obtain ⟨-, hm, -⟩ := hi
  exact exec_power ht hm hlt fun A ha => storesForm_inv ht hadm ha

/-- Fermat's little theorem in the form of `INV`: the power `A^(N-2)` inverts a number that `N` does not divide. -/
theorem mul_pow_prime_sub_two {N A : Nat} (hN : N.Prime) (hA : A % N ≠ 0) : A * A ^ (N - 2) ≡ 1 [MOD N] := by
  have hcop : A.Coprime N := ((Nat.Prime.coprime_iff_not_dvd hN).2 fun h => hA (Nat.mod_eq_zero_of_dvd h)).symm
  have hfermat := Nat.ModEq.pow_totient hcop
  rw [Nat.totient_prime hN] at hfermat
  have hexp : N - 1 = N - 2 + 1 := by have := hN.two_le; omega
  rwa [hexp, Nat.pow_succ'] at hfermat

/-- Settles O50: `MUL` of the form of `A` and the form of `A^(N-2)` stores the form of their product, which is 1 modulo `N`. -/
theorem inverseTimesOperandIsOne : Obligations.InverseTimesOperandIsOne := by
  intro s c x y z hi hyx hzxy hd ho hprime hlt hpos
  have ⟨⟨hacc, hz, _⟩, _⟩ := hzxy
  have ht := fieldContext_of_inv hi hacc ho
  obtain ⟨-, hm, -⟩ := hi
  obtain ⟨A, hA, hAval, hform⟩ := exists_plain_value ht hlt
  have hne : A % s.modulusValue c ≠ 0 := by
    intro h0
    rw [Nat.mul_mod, h0, Nat.zero_mul, Nat.zero_mod] at hAval
    omega
  obtain ⟨v, hv, hinv⟩ := storesForm_inv ht hyx hform
  have hm' := State.mem_wf_stored c y v hm
  have hmul := storesForm_mul (s := s.stored c y v) ht hzxy (hform.stored_of_disjoint v hd) (State.holdsForm_stored hm ht hv)
  obtain ⟨u, hu, hprod⟩ := hmul
  have hone : (s.stored c y v).storesForm (.mul c z x y) c z 1 := ⟨u, hu.congr (mul_pow_prime_sub_two hprime hne), hprod⟩
  rw [execAll_cons hinv, execAll_cons hinv]
  constructor
  · obtain ⟨t, hexec, -, -, hval⟩ := State.storesForm.writes (s := s.stored c y v) ht hm' hone
    rw [Nat.one_mul] at hval
    exact ⟨t, by rw [execAll_cons hexec, execAll], hval⟩
  · obtain ⟨t, hexec, hval⟩ := execAll_storesForm_fromfield (s := s.stored c y v) ht hm' hacc hz hone
    exact ⟨t, hexec, hval.trans (Nat.mod_eq_of_lt ho.2)⟩

end Sys2Proof.Machine

/-! SUPPORT. The observable traces (R192 to R196, R274 to R277): how many multiplications, squarings and swaps each exponentiation
procedure makes, and that admission and the traces of the constant-time commands depend on public inputs only. Settles
`OperationCountsOfExponentiation` and `ConstantTimeCommandsLeakPublicInputsOnly`. -/

namespace Sys2Proof.Machine

/-! ## Operation counts (R192, R193, R195) -/

section
variable {w mu : Nat} {n : List Nat}

theorem montCount_ladderLoopT (b : List Nat) (i : Nat) (r0 r1 : List Nat) (prev : Nat) :
    montCount (ladderLoopT w n mu b i r0 r1 prev).2 = 2 * i := by
  induction i generalizing r0 r1 prev with
  | zero => rfl
  | succ i ih =>
    simp only [ladderLoopT, montMulT, montSqrT, montCount_append, montCount_cons, montCount_nil, montCount_getBitTrace, ih]
    omega

/-- The ladder swaps once for each bit and once at the end (R192). -/
theorem cswapCount_ladderLoopT (b : List Nat) (i : Nat) (r0 r1 : List Nat) (prev : Nat) :
    (ladderLoopT w n mu b i r0 r1 prev).2.countP (fun e => decide (e = .cswap n.length)) = i + 1 := by
  induction i generalizing r0 r1 prev with
  | zero => simp [ladderLoopT]
  | succ i ih => simp [ladderLoopT, montMulT, montSqrT, getBitTrace, ih]

/-- The bit-serial loop squares once for each bit and multiplies once for each 1 bit (R193). -/
theorem montCount_bitSerialLoopT (b : List Nat) (k i : Nat) (acc base : List Nat) :
    montCount (bitSerialLoopT w n mu b k i acc base).2 =
      k + (List.range k).countP fun j => decide (getBit w b (i + j) = 1) := by
  induction k generalizing i acc base with
  | zero => rfl
  | succ k ih =>
    have hshift : ((fun j => decide (getBit w b (i + j) = 1)) ∘ Nat.succ) = fun j => decide (getBit w b (i + 1 + j) = 1) := by
      funext j; simp only [Function.comp_apply, Nat.succ_eq_add_one, Nat.add_left_comm, Nat.add_comm]
    rw [List.range_succ_eq_map, List.countP_cons, List.countP_map, hshift]
    simp only [bitSerialLoopT, montSqrT, montCount_append, montCount_cons, montCount_nil, montCount_getBitTrace, ih, Nat.add_zero]
    by_cases hbit : getBit w b i = 1
    · simp [hbit, montMulT]; omega
    · simp [hbit]; omega

variable {select : Nat → Nat → List (List Nat) → Nat → Traced}

/-- The trace of the window path: the table is built, then the full windows and the partial one, if there is one (R195). -/
theorem expWindowT_events (oneM a b : List Nat) (bbits : Nat) :
    (expWindowT w n mu select oneM a b bbits).2 = .tableWrite 0 :: .tableWrite 1 :: tableTrace n 2 (tableSize - 2) ++
      ((windowLoopT w n mu select (powerTable w n mu oneM a) b (bbits % windowBits) (bbits / windowBits) oneM).2 ++
        if bbits % windowBits > 0 then (windowTurnT w n mu select (powerTable w n mu oneM a) b 0 (bbits % windowBits)
          (windowLoopT w n mu select (powerTable w n mu oneM a) b (bbits % windowBits) (bbits / windowBits) oneM).1).2
        else []) := by
  by_cases hr : bbits % windowBits > 0
  · simp only [expWindowT, if_pos hr, List.append_assoc]
  · simp only [expWindowT, if_neg hr, List.append_nil]

variable (h : ∀ w k t v, montCount (select w k t v).2 = 0)
include h

theorem montCount_windowLoopT (t : List (List Nat)) (b : List Nat) (r k : Nat) (acc : List Nat) :
    montCount (windowLoopT w n mu select t b r k acc).2 = 5 * k := by
  induction k generalizing acc with
  | zero => rfl
  | succ k ih =>
    simp only [windowLoopT, montCount_append, montCount_windowTurnT h, ih, windowBits]
    omega

/-- The window path makes 14 multiplications for the table, a squaring for each bit and a multiplication for each window, the
partial one included (R194, R195). -/
theorem montCount_expWindowT (oneM a b : List Nat) (bbits : Nat) :
    montCount (expWindowT w n mu select oneM a b bbits).2 = 14 + bbits + (bbits + 3) / 4 := by
  rw [expWindowT_events, montCount_append, montCount_append, montCount_windowLoopT h]
  simp only [montCount_cons, montCount_tableTrace, tableSize]
  split
  · rw [montCount_windowTurnT h]
    unfold windowBits at *
    omega
  · unfold windowBits at *
    rw [montCount_nil]
    omega

end

theorem montCount_selectCtT (w k : Nat) (t : List (List Nat)) (v : Nat) : montCount (selectCtT w k t v).2 = 0 := by
  simp [selectCtT, montCount_scanTableT]

theorem montCount_selectVtT (w k : Nat) (t : List (List Nat)) (v : Nat) : montCount (selectVtT w k t v).2 = 0 := rfl

/-- Settles O57: below 200 bits the counts of the two bit-serial loops, from there on those of the window path. -/
theorem operationCountsOfExponentiation : Obligations.OperationCountsOfExponentiation := by
  intro w n mu oneM a b bbits
  refine ⟨fun hsmall => ?_, fun hlarge => ?_⟩
  · have hpath : bbits < expSmallLimit := hsmall
    rw [expCtT, expVtT, if_pos hpath, if_pos hpath]
    refine ⟨montCount_ladderLoopT .., cswapCount_ladderLoopT .., ?_⟩
    simpa only [Nat.zero_add] using montCount_bitSerialLoopT (n := n) (mu := mu) b bbits 0 oneM a
  · have hpath : ¬bbits < expSmallLimit := Nat.not_lt.2 hlarge
    rw [expCtT, expVtT, if_neg hpath, if_neg hpath]
    exact ⟨montCount_expWindowT montCount_selectCtT .., montCount_expWindowT montCount_selectVtT ..⟩

/-! ## The trace of `EXPCT` (R191, R276) -/

/-- The trace of `EXPCT` depends on the limb counts of the modulus and of the exponent and on `BBITS` alone. -/
theorem expCtT_trace {w mu mu' : Nat} {n n' b b' : List Nat} (h : n.length = n'.length) (hb : b.length = b'.length)
    (oneM oneM' a a' : List Nat) (bbits : Nat) :
    (expCtT w n mu oneM a b bbits).2 = (expCtT w n' mu' oneM' a' b' bbits).2 := by
  have htable : (powerTable w n mu oneM a).length = (powerTable w n' mu' oneM' a').length := by
    rw [length_powerTable, length_powerTable]
  unfold expCtT
  split
  · exact ladderLoopT_trace h ..
  · rw [expWindowT_events, expWindowT_events, tableTrace_congr h]
    refine congrArg₂ HAppend.hAppend rfl (congrArg₂ HAppend.hAppend (windowLoopT_trace h htable hb ..) ?_)
    split
    · exact windowTurnT_trace h htable hb ..
    · rfl

/-! ## Public inputs (R275 to R277) -/

section
variable {i : Instr} {s t : State} (h : publicAgree i s t)
include h

/-- Admission looks at public inputs only (R277). -/
theorem admission_of_publicAgree : admission i s = admission i t := by
  obtain ⟨hcfg, hslot⟩ := h
  cases i with
  | chkmod ra len => simp only [admission, admitChkmod, State.lenRange, hcfg]
  | _ =>
    obtain ⟨hvalid, hlen⟩ := hslot _ rfl
    simp only [admission, admitInit, admitSlot, admitField, State.footprintD, State.footprintU, State.footprintB,
      State.footprintE, State.ctxLen, State.ctxRange, State.lenRange, hcfg, hvalid, hlen]

theorem footprint_of_publicAgree : footprint i s = footprint i t := by
  obtain ⟨hcfg, hslot⟩ := h
  cases i with
  | chkmod ra len => rfl
  | init c ra len => rfl
  | free c => rfl
  | getlen c => rfl
  | _ =>
    obtain ⟨-, hlen⟩ := hslot _ rfl
    simp only [footprint, State.footprintD, State.footprintU, State.footprintB, State.footprintE, State.ctxLen, hcfg, hlen]

/-- The operations of a constant-time command depend on the limb counts of its slot and of its exponent alone (R276). -/
theorem operations_of_publicAgree (hct : constantTime i = true)
    (hk : ∀ c, slotNamed i = some c → (s.slot c).modulus.length = (t.slot c).modulus.length) :
    operations i s = operations i t := by
  obtain ⟨hcfg, -⟩ := h
  cases i with
  | chkmod ra len => cases hct
  | init c ra len => cases hct
  | free c => cases hct
  | getlen c => cases hct
  | expvt c rd ra rb bbits => cases hct
  | inv c rd ra => cases hct
  | expct c rd ra rb bbits =>
    have hc := hk c rfl
    have hexp : (s.memRead rb (bLen s.cfg.w bbits)).length = (t.memRead rb (bLen t.cfg.w bbits)).length := by
      rw [State.length_memRead, State.length_memRead, hcfg]
    simp only [operations, hc]
    rw [hcfg] at hexp ⊢
    exact congrArg _ (expCtT_trace hc hexp ..)
  | _ => simp only [operations, montMulT, montSqrT, hk _ rfl]

end

/-- A constant-time command is admitted only with a slot it accepts. -/
theorem accepts_of_admitted {i : Instr} {s : State} {c : Nat} (hct : constantTime i = true) (hc : slotNamed i = some c)
    (hadm : admission i s = none) : s.accepts c := by
  cases i with
  | chkmod ra len => cases hct
  | init c ra len => cases hct
  | free c => cases hct
  | getlen c => cases hct
  | _ =>
    cases hc
    exact ((admitField_none_iff ..).1 hadm).1

/-- Settles O56: an admitted command's slot is valid in both states, so its modulus has the same limb count in both, and the rest of
the trace is the footprint's. -/
theorem constantTimeCommandsLeakPublicInputsOnly : Obligations.ConstantTimeCommandsLeakPublicInputsOnly := by
  intro i s t hs ht hpub
  have hadm := admission_of_publicAgree hpub
  refine ⟨hadm, fun hct hvs hvt => ?_⟩
  cases ha : admission i t with
  | some f => rw [leak, leak, hadm, ha]
  | none =>
    have hk (c : Nat) (hc : slotNamed i = some c) : (s.slot c).modulus.length = (t.slot c).modulus.length := by
      obtain ⟨-, -, hsl, -⟩ := valid_slot hs (accepts_of_admitted hct hc (hadm.trans ha))
      obtain ⟨-, -, htl, -⟩ := valid_slot ht (accepts_of_admitted hct hc ha)
      exact hsl.trans ((hpub.2 c hc).2.trans htl.symm)
    simp only [leak, hadm, ha, hvs, hvt, if_true, footprint_of_publicAgree hpub, operations_of_publicAgree hpub hct hk]

end Sys2Proof.Machine
